-- ==== Sys2Proof/Word.lean ====
section
/-! DEFINITION. The word types of the GBP link core (spec/00_scope.md R10, R12). Bytes, 16-bit fields and
32-bit request words are bit vectors. Counts and lengths are natural numbers. -/

namespace Sys2Proof

/-- A byte of a stream, of a payload buffer or of a request operand (R10). -/
abbrev Byte := BitVec 8

/-- A 16-bit value: the wire payload length, the checksum, an accumulator (R10). -/
abbrev Half := BitVec 16

/-- A 32-bit request word (R82). -/
abbrev Word := BitVec 32

end Sys2Proof
end

