-- ==== Sys2Proof/Config.lean ====
section
/-! DEFINITION. The three OPEN build-time parameters of spec/00_scope.md R7, R8, R9. Each is its least legal
value plus a constant without a body, so that a proof knows the bound the spec gives and nothing more
(notes/assumptions/4.md). And the one free value there is: the content of a payload buffer where nothing has been
written (notes/assumptions/5.md). -/

namespace Sys2Proof

/-- How far `OUT_MAX` lies above its least legal value. FREE: the spec leaves it open (R7). -/
opaque Config.outMaxSurplus : Nat

/-- How far `OPERAND_MAX` lies above its least legal value. FREE: the spec leaves it open (R9). -/
opaque Config.operandMaxSurplus : Nat

/-- How many links there are beyond link 0. FREE: the spec leaves it open (R8). -/
opaque Config.moreLinks : Nat

/-- What index `a` of a payload buffer holds while nothing has been written there since the last idle load. FREE: the
content is unspecified (spec/10_state.md R31, spec/20_memory.md R53; I9, I10: any value). -/
opaque Config.freeByte (a : Nat) : Byte

/-- `OUT_MAX` (R7): the capacity in bytes of one payload buffer and the largest output of RLED. -/
def Config.outMax : Nat := Config.outMaxSurplus + 65535

/-- `OPERAND_MAX` (R9): the longest operand sequence the operand-stream port accepts. -/
def Config.operandMax : Nat := Config.operandMaxSurplus + 65535

/-- `N_LINKS` (R8): the number of decoder instances. -/
def Config.nLinks : Nat := Config.moreLinks + 1

end Sys2Proof
end

