-- ==== Sys2Proof/Syntax.lean ====
section
/-! DEFINITION. The instructions of the GBP link core: one constructor for each of the 25 rows of
spec/opcode_table.json, 13 requests (spec/30_encoding.md R83) and 12 wire codes (R72, R73, R74, R77, R80); and
the small enumerations their fields and decoders speak of. -/

namespace Sys2Proof

/-- The five commands of a packet (R39, R73). -/
inductive Command
  | init | print | data | break | inquiry
  deriving DecidableEq, Repr

/-- A run of the RLE format as its tag byte announces it (R77). `c` is the tag's count field, bits 6:0. -/
inductive Tag
  | lit (c : Nat)
  | rep (c : Nat)
  deriving DecidableEq, Repr

/-- The two kinds of request port (R83): one per decoder instance, and the one the other units share. -/
inductive PortKind
  | decoder | shared
  deriving DecidableEq, Repr

/-- The places on the link where a byte can be met as a wire code. The first five are states of a decoder
(R102, R103, R104, R106, R141). `response` is the printer-to-host direction (R80, R217). -/
inductive WirePlace
  | waitSync0 | waitSync1 | command | compression | rleTag | response
  deriving DecidableEq, Repr

/-- Where a code word is met, which decides what it means: on a request port, or on the wire. The same byte is a
sync byte, a command, a flag or a tag according to the place. -/
inductive Place
  | port (p : PortKind)
  | wire (p : WirePlace)
  deriving DecidableEq, Repr

/-- A code word: a 32-bit request word (R82) or a byte of the wire formats (R70). -/
inductive CodeWord
  | request (w : Word)
  | wire (b : Byte)
  deriving DecidableEq, Repr

/-- The instructions, one per row of spec/opcode_table.json. The byte sequence of FEEDN, CSSUM, RLED, RLEC and ENC and
the Status record of STPACK and TRAIL are not fields of the word. They come on ports of their own (R84). -/
inductive Instr
  /-- DRST (R122) -/
  | drst
  /-- FEED (R101), `b` = imm[7:0] -/
  | feed (b : Byte)
  /-- FEEDN (R120) -/
  | feedn
  /-- CSCLR (R171) -/
  | csclr
  /-- CSADD (R172), `b` = imm[7:0] -/
  | csadd (b : Byte)
  /-- CSSUM (R173) -/
  | cssum
  /-- CSCMP (R174), `v` = imm[15:0] -/
  | cscmp (v : Half)
  /-- RLED (R147) -/
  | rled
  /-- RLEC (R160) -/
  | rlec
  /-- ENC (R200), `f` = bit 24, `c` = imm[7:0] -/
  | enc (f : Bool) (c : Byte)
  /-- STPACK (R191) -/
  | stpack
  /-- STUNPACK (R192), `b` = imm[7:0] -/
  | stunpack (b : Byte)
  /-- TRAIL (R215) -/
  | trail
  /-- SYNC0 (R72, R102) -/
  | sync0
  /-- SYNC1 (R72, R103) -/
  | sync1
  /-- CMD_INIT (R73, R104) -/
  | cmdInit
  /-- CMD_PRINT (R73, R104) -/
  | cmdPrint
  /-- CMD_DATA (R73, R104) -/
  | cmdData
  /-- CMD_BREAK (R73, R104) -/
  | cmdBreak
  /-- CMD_INQUIRY (R73, R104) -/
  | cmdInquiry
  /-- COMP_RAW (R74, R106) -/
  | compRaw
  /-- COMP_RLE (R74, R106) -/
  | compRle
  /-- RLE_LIT (R77, R141), `c` = bits 6:0 -/
  | rleLit (c : Nat)
  /-- RLE_REP (R77, R141), `c` = bits 6:0 -/
  | rleRep (c : Nat)
  /-- DEVICE_ID (R80, R216) -/
  | deviceId
  deriving DecidableEq, Repr

/-- The wire code of a command (R73). -/
def Command.instr : Command → Instr
  | .init => .cmdInit
  | .print => .cmdPrint
  | .data => .cmdData
  | .break => .cmdBreak
  | .inquiry => .cmdInquiry

/-- The place at which an instruction's code word is met: the `port` of its request row, or the decoder state
(or direction) that its wire rule speaks of. -/
def Instr.place : Instr → Place
  | .drst | .feed _ | .feedn => .port .decoder
  | .csclr | .csadd _ | .cssum | .cscmp _ | .rled | .rlec | .enc _ _ | .stpack | .stunpack _ | .trail =>
    .port .shared
  | .sync0 => .wire .waitSync0
  | .sync1 => .wire .waitSync1
  | .cmdInit | .cmdPrint | .cmdData | .cmdBreak | .cmdInquiry => .wire .command
  | .compRaw | .compRle => .wire .compression
  | .rleLit _ | .rleRep _ => .wire .rleTag
  | .deviceId => .wire .response

end Sys2Proof
end

