-- ==== Sys2Proof/WellFormed.lean ====
section
/-! DEFINITION. Which instructions have a code word. Every field but one has a bit-vector type of exactly the
width the spec gives it. The count field of an RLE tag is a number, and must fit the tag's seven bits (R77). -/

namespace Sys2Proof

/-- The count field of a tag is seven bits, 0 to 127 (R77). -/
def Tag.wf : Tag → Bool
  | .lit c => c < 128
  | .rep c => c < 128

/-- An instruction is well-formed when its fields fit the bits the encoding gives them. -/
def Instr.wf : Instr → Bool
  | .rleLit c => (Tag.lit c).wf
  | .rleRep c => (Tag.rep c).wf
  | .drst | .feed _ | .feedn | .csclr | .csadd _ | .cssum | .cscmp _ | .rled | .rlec | .enc _ _ | .stpack
  | .stunpack _ | .trail | .sync0 | .sync1 | .cmdInit | .cmdPrint | .cmdData | .cmdBreak | .cmdInquiry
  | .compRaw | .compRle | .deviceId => true

end Sys2Proof
end

