-- ==== Sys2Proof/Decode.lean ====
section
/-! DEFINITION. From code words to instructions and back. Request words follow the match and mask table of
spec/30_encoding.md R83 and the operand fields of R84. Wire bytes follow R72, R73, R74, R77, R80 and are read at a
`WirePlace`, because the wire formats give one byte several meanings. Decoding is total: what no row takes is
rejected by name. The encoder is written from the same tables. -/

namespace Sys2Proof

/-! ### Wire codes -/

/-- SYNC0 (R72). -/
def sync0Byte : Byte := 0x88

/-- SYNC1 (R72). -/
def sync1Byte : Byte := 0x33

/-- The device ID, bit 7 set and device number 1 (R80, R216). -/
def deviceIdByte : Byte := 0x81

/-- The command byte of a command (R73). -/
def Command.toByte : Command → Byte
  | .init => 0x01
  | .print => 0x02
  | .data => 0x04
  | .break => 0x08
  | .inquiry => 0x0F

/-- The command a byte stands for. The other 251 values are illegal (R73, R86). -/
def Command.ofByte? (b : Byte) : Option Command :=
  if b = 0x01 then some .init
  else if b = 0x02 then some .print
  else if b = 0x04 then some .data
  else if b = 0x08 then some .break
  else if b = 0x0F then some .inquiry
  else none

/-- The compression byte of a flag: 0x00 raw, 0x01 RLE-encoded (R74). -/
def compByte (f : Bool) : Byte := if f then 0x01 else 0x00

/-- The flag a compression byte stands for. 0x02 to 0xFF are illegal (R74, R87). -/
def compOfByte? (b : Byte) : Option Bool :=
  if b = 0x00 then some false else if b = 0x01 then some true else none

/-- The tag byte of a run: bit 7 is the kind, bits 6:0 the count field (R77). -/
def Tag.toByte : Tag → Byte
  | .lit c => BitVec.ofNat 8 (c % 128)
  | .rep c => 0x80#8 ||| BitVec.ofNat 8 (c % 128)

/-- The run a tag byte selects. Every byte is a tag (R77, R88). -/
def Tag.ofByte (b : Byte) : Tag :=
  if b &&& 0x80#8 = 0x80#8 then .rep (b &&& 0x7F#8).toNat else .lit (b &&& 0x7F#8).toNat

/-- What the decoder says of a word or byte it does not take. -/
inductive Rejected
  /-- No row of R83 matches on this port. The request is refused with IllegalRequest (R94). -/
  | illegalRequest
  /-- Not the sync byte this place waits for (R102, R103). -/
  | noise
  /-- Not one of the five command bytes (R86). -/
  | unrecognizedCommand
  /-- Neither 0x00 nor 0x01 (R87). -/
  | unrecognizedCompressionFlag
  /-- Not the one device ID there is (R216). -/
  | unknownDeviceId
  /-- A request word met on the wire, or a wire byte met on a request port. -/
  | wrongWidth
  deriving DecidableEq, Repr

/-- The wire code that a byte is at a place. -/
def decodeWire (p : WirePlace) (b : Byte) : Except Rejected Instr :=
  match p with
  | .waitSync0 => if b = sync0Byte then .ok .sync0 else .error .noise
  | .waitSync1 => if b = sync1Byte then .ok .sync1 else .error .noise
  | .command =>
    match Command.ofByte? b with
    | some c => .ok c.instr
    | none => .error .unrecognizedCommand
  | .compression =>
    match compOfByte? b with
    | some true => .ok .compRle
    | some false => .ok .compRaw
    | none => .error .unrecognizedCompressionFlag
  | .rleTag =>
    match Tag.ofByte b with
    | .lit c => .ok (.rleLit c)
    | .rep c => .ok (.rleRep c)
  | .response => if b = deviceIdByte then .ok .deviceId else .error .unknownDeviceId

/-! ### Request words -/

/-- `imm[7:0]` of a request word (R82, R84). -/
def immByte (w : Word) : Byte := w.setWidth 8

/-- `imm[15:0]` of a request word (R82, R84). -/
def immHalf (w : Word) : Half := w.setWidth 16

/-- Bit 24, `f`, of a request word (R82). -/
def flagF (w : Word) : Bool := w.getLsbD 24

/-- One row of the request table R83, with the extraction of its operand fields (R84). -/
structure RequestRow where
  port : PortKind
  pattern : Word
  mask : Word
  build : Word → Instr

/-- A row matches a word when the word has the pattern's bits under the mask (R94). -/
def RequestRow.takes (r : RequestRow) (w : Word) : Bool := w &&& r.mask == r.pattern

/-- The thirteen rows of R83. -/
def requestRows : List RequestRow :=
  [ ⟨.decoder, 0x00000000, 0xFFFFFFFF, fun _ => .drst⟩,
    ⟨.decoder, 0x10000000, 0xFFFFFF00, fun w => .feed (immByte w)⟩,
    ⟨.decoder, 0x20000000, 0xFFFFFFFF, fun _ => .feedn⟩,
    ⟨.shared, 0x30000000, 0xFFFFFFFF, fun _ => .csclr⟩,
    ⟨.shared, 0x40000000, 0xFFFFFF00, fun w => .csadd (immByte w)⟩,
    ⟨.shared, 0x50000000, 0xFFFFFFFF, fun _ => .cssum⟩,
    ⟨.shared, 0x60000000, 0xFFFF0000, fun w => .cscmp (immHalf w)⟩ ] ++
  [ ⟨.shared, 0x70000000, 0xFFFFFFFF, fun _ => .rled⟩,
    ⟨.shared, 0x80000000, 0xFFFFFFFF, fun _ => .rlec⟩,
    ⟨.shared, 0x90000000, 0xFEFFFF00, fun w => .enc (flagF w) (immByte w)⟩,
    ⟨.shared, 0xA0000000, 0xFFFFFFFF, fun _ => .stpack⟩,
    ⟨.shared, 0xB0000000, 0xFFFFFF00, fun w => .stunpack (immByte w)⟩,
    ⟨.shared, 0xC0000000, 0xFFFFFFFF, fun _ => .trail⟩ ]

/-- The request that a word is on a port (R94): the row that takes it and whose unit the port accepts. -/
def decodeRequest (p : PortKind) (w : Word) : Except Rejected Instr :=
  match requestRows.find? (fun r => r.takes w && r.port == p) with
  | some r => .ok (r.build w)
  | none => .error .illegalRequest

/-- The instruction that a code word is at a place. -/
def decode (p : Place) (c : CodeWord) : Except Rejected Instr :=
  match p, c with
  | .port k, .request w => decodeRequest k w
  | .wire q, .wire b => decodeWire q b
  | .port _, .wire _ => .error .wrongWidth
  | .wire _, .request _ => .error .wrongWidth

/-! ### The encoder -/

/-- The code word of a well-formed instruction (R72, R73, R74, R77, R80, R83, R84). -/
def encode : Instr → CodeWord
  | .drst => .request 0x00000000
  | .feed b => .request (0x10000000#32 ||| b.setWidth 32)
  | .feedn => .request 0x20000000
  | .csclr => .request 0x30000000
  | .csadd b => .request (0x40000000#32 ||| b.setWidth 32)
  | .cssum => .request 0x50000000
  | .cscmp v => .request (0x60000000#32 ||| v.setWidth 32)
  | .rled => .request 0x70000000
  | .rlec => .request 0x80000000
  | .enc f c => .request (0x90000000#32 ||| (if f then 0x01000000#32 else 0#32) ||| c.setWidth 32)
  | .stpack => .request 0xA0000000
  | .stunpack b => .request (0xB0000000#32 ||| b.setWidth 32)
  | .trail => .request 0xC0000000
  | .sync0 => .wire sync0Byte
  | .sync1 => .wire sync1Byte
  | .cmdInit => .wire Command.init.toByte
  | .cmdPrint => .wire Command.print.toByte
  | .cmdData => .wire Command.data.toByte
  | .cmdBreak => .wire Command.break.toByte
  | .cmdInquiry => .wire Command.inquiry.toByte
  | .compRaw => .wire (compByte false)
  | .compRle => .wire (compByte true)
  | .rleLit c => .wire (Tag.lit c).toByte
  | .rleRep c => .wire (Tag.rep c).toByte
  | .deviceId => .wire deviceIdByte

/-! ### Words as the opcode table numbers them -/

/-- The two ports in the order a bare word is tried on them. No word is taken by both (R83, R94). -/
def decodeRequestAnyPort (w : Word) : Option Instr :=
  match decodeRequest .decoder w with
  | .ok i => some i
  | .error _ => (decodeRequest .shared w).toOption

/-- The wire places in the order a bare byte is tried at them: the rows that fix all eight bits before the tags,
which take every byte. DESIGN CHOICE (notes/assumptions/3.md): the table gives 0x01 and other bytes to several rows,
and a bare byte has no place. -/
def bareByteOrder : List WirePlace :=
  [.waitSync0, .waitSync1, .command, .compression, .response, .rleTag]

/-- The first wire code that a bare byte is, in the order `bareByteOrder`. -/
def decodeBareByte (b : Byte) : Option Instr :=
  bareByteOrder.findSome? (fun p => (decodeWire p b).toOption)

/-- The instruction of a word as spec/opcode_table.json numbers its bits: 32 bits for a request, 8 for a wire code. -/
def decodeTableWord (nbits w : Nat) : Option Instr :=
  if nbits = 32 then decodeRequestAnyPort (BitVec.ofNat 32 w)
  else if nbits = 8 then decodeBareByte (BitVec.ofNat 8 w)
  else none

end Sys2Proof
end

