-- ==== Sys2Proof/Machine/State.lean ====
section
/-! DEFINITION. The state of the GBP link core: the registers of spec/10_state.md R21 to R34, the payload buffers
(R31, R51), the ports of spec/20_memory.md R50 and the requests the host has issued (R18, R64). Plain data. -/

namespace Sys2Proof.Machine

/-! ### Values on the interfaces -/

/-- The Status record: eight independent booleans (R42). -/
structure Status where
  lowBattery : Bool
  otherError : Bool
  paperJam : Bool
  packetError : Bool
  unprocessedData : Bool
  printBufferFull : Bool
  printerBusy : Bool
  checksumError : Bool
  deriving DecidableEq, Repr

/-- The Status record with every field false. -/
def Status.clear : Status := ⟨false, false, false, false, false, false, false, false⟩

/-- The error kinds of R230. `checksumMismatch` and `truncatedStream` have codes but are never raised. -/
inductive ErrorKind
  | unrecognizedCommand
  | unrecognizedCompressionFlag
  | malformedRLEStream
  | checksumMismatch
  | payloadTooLarge
  | truncatedStream
  | bufferOverflow
  | illegalRequest
  deriving DecidableEq, Repr

/-- The record a FEED emits at the end of a packet (R40). The last two fields are the flags of R37. -/
structure Packet where
  command : Command
  compressed : Bool
  payload : List Byte
  checksumValid : Bool
  lengthWarning : Bool
  deriving DecidableEq, Repr

/-- The result of one FEED (R41). -/
inductive Event
  | needMore
  | packet (p : Packet)
  | error (k : ErrorKind)
  deriving DecidableEq, Repr

/-- The value that an `Ok` result carries (R43), with the type that the request's own rule gives it. -/
inductive Value
  /-- no value: DRST, CSCLR -/
  | unit
  /-- one bit: CSCMP -/
  | bit (b : BitVec 1)
  /-- one byte: STPACK -/
  | byte (b : Byte)
  /-- 16 bits: CSADD, CSSUM -/
  | half (v : Half)
  /-- a byte sequence: RLED, RLEC, ENC, TRAIL -/
  | bytes (bs : List Byte)
  /-- a Status record: STUNPACK -/
  | status (s : Status)
  /-- one Event per byte: FEEDN -/
  | events (es : List Event)
  deriving DecidableEq, Repr

/-- What a result port returns: the Event of a FEED (R41) or the Result of any other request (R43, R56). -/
inductive Reply
  | event (e : Event)
  | ok (v : Value)
  | error (k : ErrorKind)
  deriving DecidableEq, Repr

/-! ### A decoder instance -/

/-- The values of `DEC.state` (R21). There is no `Done` (C2), and codes 9 to 15 are never held (I14). -/
inductive DecState
  | waitSync0 | waitSync1 | command | compression | lenLow | lenHigh | payload | checksumLow | checksumHigh
  deriving DecidableEq, Repr

/-- The values of `DEC.rle_mode` (R28). Code 3 is never held (I14). -/
inductive RleMode
  | tag | lit | rep
  deriving DecidableEq, Repr

/-- What one step of the RLE line decoder writes (R141, R142, R143): nothing for a tag, one byte for a literal, `n`
copies of one byte for a repeat run. -/
inductive RleOut
  | nothing
  | one (v : Byte)
  | copies (v : Byte) (n : Nat)
  deriving DecidableEq, Repr

/-- A byte memory: the addresses that have been written, strictly rising, with what they hold. -/
abbrev Memory := List Host.Cell

/-- The registers of one decoder instance (R21 to R31). -/
structure Decoder where
  /-- `DEC.state`, R21 -/
  state : DecState
  /-- `DEC.cmd`, R22 -/
  cmd : Byte
  /-- `DEC.comp`, R23 -/
  comp : Bool
  /-- `DEC.len`, R24 -/
  len : Half
  /-- `DEC.rem`, R25 -/
  rem : Half
  /-- `DEC.acc`, R26 -/
  acc : Half
  /-- `DEC.rxcs`, R27 -/
  rxcs : Half
  /-- `DEC.rle_mode`, R28 -/
  rleMode : RleMode
  /-- `DEC.rle_cnt`, R29 -/
  rleCnt : Byte
  /-- `DEC.olen`, R30 -/
  olen : Nat
  /-- `DEC.pb`, the payload buffer, R31 -/
  pb : Memory
  deriving DecidableEq, Repr

/-- One link: its decoder instance and its result port (R50 (e), R56), `none` until its first result. -/
structure Link where
  dec : Decoder
  reply : Option Reply
  deriving DecidableEq, Repr

/-! ### The ports of the other units, and the host -/

/-- The result ports of the units behind the shared request port (R56), one slot per unit because a result is
replaced by the next request to the SAME unit; `port` receives the refusal of a word that reaches no unit
(notes/assumptions/6.md). `none` until the first result. -/
structure Results where
  csu : Option Reply
  rle : Option Reply
  enc : Option Reply
  stat : Option Reply
  resp : Option Reply
  port : Option Reply
  deriving DecidableEq, Repr

/-- Whose result port a reply goes to. -/
inductive UnitName
  | dec (link : Nat)
  | csu | rle | enc | stat | resp
  | port
  deriving DecidableEq, Repr

/-- A request port (R83, R248): the one of a decoder instance, or the one the other units share. -/
inductive Port
  | decoder (link : Nat)
  | shared
  deriving DecidableEq, Repr

/-- One request of the host: the port, the request word (R50 (b)), the byte sequence on the operand-stream port
(R50 (c)) and the record on the status-struct port (R50 (d)). -/
structure Request where
  port : Port
  word : Word
  operand : List Byte
  status : Status
  deriving DecidableEq, Repr

/-- What the outside can do to the core: assert the reset input (R260), or issue a request (R18 (a)). -/
inductive HostInput
  | reset
  | request (r : Request)
  deriving DecidableEq, Repr

/-! ### The machine -/

/-- The state of the core. -/
structure State where
  /-- The links, by number, that differ from a link right after reset. Numbers strictly rising, and a link that
  is not listed is as reset leaves it (notes/assumptions/8.md). There are `N_LINKS` of them (R8, R248). -/
  links : List (Nat × Link)
  /-- `CSU.acc`, R34 -/
  csuAcc : Half
  /-- the result ports of the units behind the shared port -/
  results : Results
  /-- the link whose port the last decoder request came in on (R83, R248) -/
  link : Nat
  /-- the operand-stream port, R50 (c): the byte sequence of the request in service -/
  operand : List Byte
  /-- the status-struct port, R50 (d): the record of the request in service -/
  status : Status
  /-- what the host does next, oldest first (R18, R64) -/
  inputs : List HostInput
  deriving DecidableEq, Repr

/-- Why the machine stops. None of these is reached from a state that meets `State.Inv` (Safety.lean). -/
inductive Fault
  /-- Raised by `step` when the next request names a decoder port `i` with `i >= N_LINKS`: no such instance exists
  (R8, R248). Safe: the machine stops where the hardware has no port. -/
  | absentPort (link : Nat)
  /-- Raised by the emission of a packet (R112) when `DEC.cmd` holds none of the five command bytes, which R22
  excludes. Safe: no run reaches such a state. -/
  | illegalCommandLatch
  deriving DecidableEq, Repr

/-- Why an instruction has no meaning. -/
inductive Refusal
  /-- Raised by an arm of `exec` whose instruction has no meaning yet. No arm raises it now. Safe. -/
  | notModelled (mnemonic : String)
  deriving DecidableEq, Repr

/-- The machine right after reset (R260): every decoder at the idle values of R32 (no link is listed), `CSU.acc` zero,
no result on any port, nothing on the operand ports, no input. The values of the ports are the model's
(notes/assumptions/7.md). -/
def State.reset : State where
  links := []
  csuAcc := 0x0000
  results := ⟨none, none, none, none, none, none⟩
  link := 0
  operand := []
  status := Status.clear
  inputs := []

end Sys2Proof.Machine
end

