-- ==== Sys2Proof/Machine/Operands.lean ====
section
/-! DEFINITION. The operand forms: the byte order of 16-bit wire fields (spec/20_memory.md R57, R58), the Status record
and its byte (spec/43_status.md R190), the length check of the operand-stream port (R55, R239), and the numeric codes
of states, errors and result words (spec/10_state.md R21, R28; spec/60_exceptions.md R230; spec/30_encoding.md R85). -/

namespace Sys2Proof.Machine

/-! ### 16-bit fields, low byte first -/

/-- Bits 7:0 of a 16-bit value, sent first (R57, R58). -/
def lowByte (v : Half) : Byte := v.setWidth 8

/-- Bits 15:8 of a 16-bit value, sent second (R57, R58). -/
def highByte (v : Half) : Byte := (v >>> 8).setWidth 8

/-- Write bits 7:0 of a register. -/
def setLow (v : Half) (b : Byte) : Half := (v &&& 0xFF00#16) ||| b.setWidth 16

/-- Write bits 15:8 of a register. -/
def setHigh (v : Half) (b : Byte) : Half := (v &&& 0x00FF#16) ||| (b.setWidth 16 <<< 8)

/-! ### The status byte -/

/-- A bit of the status byte: 1 means true (R79). -/
def statusBit (f : Bool) (i : Nat) : Byte := if f then 1#8 <<< i else 0#8

/-- `to_byte` (R190), over the bit positions of R79. -/
def Status.toByte (s : Status) : Byte :=
  statusBit s.lowBattery 7 ||| statusBit s.otherError 6 ||| statusBit s.paperJam 5 |||
  statusBit s.packetError 4 ||| statusBit s.unprocessedData 3 ||| statusBit s.printBufferFull 2 |||
  statusBit s.printerBusy 1 ||| statusBit s.checksumError 0

/-- `from_byte` (R190). -/
def Status.ofByte (b : Byte) : Status where
  lowBattery := b.getLsbD 7
  otherError := b.getLsbD 6
  paperJam := b.getLsbD 5
  packetError := b.getLsbD 4
  unprocessedData := b.getLsbD 3
  printBufferFull := b.getLsbD 2
  printerBusy := b.getLsbD 1
  checksumError := b.getLsbD 0

/-! ### The operand-stream port -/

/-- A sequence longer than `OPERAND_MAX` is refused with IllegalRequest (R55, R239). The first test follows from the
second (R9) and decides ordinary lengths without the open constant. -/
def operandTooLong (bs : List Byte) : Bool := decide (65535 < bs.length) && decide (Config.operandMax < bs.length)

/-! ### The Print payload -/

/-- The fields of the four payload bytes of a Print packet (R81). -/
structure PrintFields where
  sheets : Byte
  lfBefore : BitVec 4
  lfAfter : BitVec 4
  palette : Byte
  density : Byte
  deriving DecidableEq, Repr

/-- Field extraction from a Print payload of four bytes (R81). No field is checked, and the core itself never reads
them: it passes the payload through. -/
def PrintFields.ofPayload : List Byte → Option PrintFields
  | [b0, b1, b2, b3] => some ⟨b0, (b1 >>> 4).setWidth 4, b1.setWidth 4, b2, b3⟩
  | _ => none

/-! ### Numeric codes -/

/-- The 4-bit code of `DEC.state` (R21). No request reads it. -/
def DecState.code : DecState → BitVec 4
  | .waitSync0 => 0
  | .waitSync1 => 1
  | .command => 2
  | .compression => 3
  | .lenLow => 4
  | .lenHigh => 5
  | .payload => 6
  | .checksumLow => 7
  | .checksumHigh => 8

/-- The 2-bit code of `DEC.rle_mode` (R28). No request reads it. -/
def RleMode.code : RleMode → BitVec 2
  | .tag => 0
  | .lit => 1
  | .rep => 2

/-- The 4-bit code of an error kind (R230). -/
def ErrorKind.code : ErrorKind → BitVec 4
  | .unrecognizedCommand => 0x1
  | .unrecognizedCompressionFlag => 0x2
  | .malformedRLEStream => 0x3
  | .checksumMismatch => 0x4
  | .payloadTooLarge => 0x5
  | .truncatedStream => 0x6
  | .bufferOverflow => 0x7
  | .illegalRequest => 0x8

/-- A result word from its two fields: `code` in bits 7:4, zero in bits 3:2, `kind` in bits 1:0 (R85). -/
def resultWord (code : BitVec 4) (kind : BitVec 2) : Byte :=
  (code.setWidth 8 <<< 4) ||| kind.setWidth 8

/-- The 8-bit result word that goes with every reply (R85). -/
def Reply.word : Reply → Byte
  | .event .needMore => resultWord 0 0
  | .event (.packet _) => resultWord 0 1
  | .event (.error k) => resultWord k.code 2
  | .ok _ => resultWord 0 3
  | .error k => resultWord k.code 2

/-- The kind of request port that a port is (R83). -/
def Port.kind : Port → PortKind
  | .decoder _ => .decoder
  | .shared => .shared

/-- The unit that performs an instruction, and so the result port it answers on (R56, R83). `link` is the link that
decoder requests come in on. -/
def Instr.unit (link : Nat) : Instr → UnitName
  | .drst | .feed _ | .feedn => .dec link
  | .csclr | .csadd _ | .cssum | .cscmp _ => .csu
  | .rled | .rlec => .rle
  | .enc _ _ => .enc
  | .stpack | .stunpack _ => .stat
  | .trail | .deviceId => .resp
  | .sync0 | .sync1 | .cmdInit | .cmdPrint | .cmdData | .cmdBreak | .cmdInquiry | .compRaw | .compRle
  | .rleLit _ | .rleRep _ => .dec link

end Sys2Proof.Machine
end

