-- ==== Sys2Proof/Machine/Ops.lean ====
section
/-! DEFINITION. The shared operations: canonical association lists, the payload buffer (spec/20_memory.md R51 to R53),
the links, the idle load (spec/40_decoder.md R100), raising an error in a decoder (spec/60_exceptions.md R231, R242),
the result ports (R56), the reset input (spec/70_reset_and_hazards.md R260) and taking a request off the host's list. -/

namespace Sys2Proof.Machine

/-! ### Association lists in canonical form: keys strictly rising -/

/-- The entry at a key. -/
def findKey {α : Type} (k : Nat) : List (Nat × α) → Option α
  | [] => none
  | (a, v) :: t => if a = k then some v else findKey k t

/-- Write an entry, keeping the keys rising. -/
def putKey {α : Type} (k : Nat) (v : α) : List (Nat × α) → List (Nat × α)
  | [] => [(k, v)]
  | (a, w) :: t =>
    if k < a then (k, v) :: (a, w) :: t else if k = a then (k, v) :: t else (a, w) :: putKey k v t

/-- Drop the entry at a key. -/
def dropKey {α : Type} (k : Nat) : List (Nat × α) → List (Nat × α)
  | [] => []
  | (a, w) :: t => if a = k then dropKey k t else (a, w) :: dropKey k t

/-- Every key is above `k`, and the keys rise strictly. -/
def risingAbove {α : Type} : Nat → List (Nat × α) → Bool
  | _, [] => true
  | k, (a, _) :: t => decide (k < a) && risingAbove a t

/-- The keys rise strictly. -/
def rising {α : Type} : List (Nat × α) → Bool
  | [] => true
  | (a, _) :: t => risingAbove a t

/-! ### The payload buffer -/

/-- The canonical form of a memory: addresses strictly rising. What an unlisted address reads as is a free value, so no
entry is known to be equal to it. -/
def Memory.wf (m : Memory) : Bool := rising m

/-- `MemRead(a, 1)` (R14, R52): the byte last written at `a` since the last idle load, and any value where nothing has
been written (R31, R53). -/
def Memory.read (m : Memory) (a : Nat) : Byte := (findKey a m).getD (Config.freeByte a)

/-- `MemWrite(a, 1, v)` (R14, R52). -/
def Memory.write (m : Memory) (a : Nat) (v : Byte) : Memory := putKey a v m

/-- Write a sequence of bytes at consecutive indices from `a` on, each by one write of one byte (R61). -/
def Memory.writeSeq (m : Memory) (a : Nat) : List Byte → Memory
  | [] => m
  | v :: vs => Memory.writeSeq (m.write a v) (a + 1) vs

/-- `[MemRead(a, 1), ..., MemRead(a + n - 1, 1)]` (R112). -/
def Memory.readSeq (m : Memory) (a : Nat) : Nat → List Byte
  | 0 => []
  | n + 1 => m.read a :: Memory.readSeq m (a + 1) n

/-! ### One decoder: idle load, errors, the append primitive -/

/-- The idle values (R32). Nothing has been written to the payload buffer, so every index holds any value. -/
def Decoder.idle : Decoder where
  state := .waitSync0
  cmd := 0x00
  comp := false
  len := 0x0000
  rem := 0x0000
  acc := 0x0000
  rxcs := 0x0000
  rleMode := .tag
  rleCnt := 0
  olen := 0
  pb := []

/-- `LoadIdle` (R100): every register of the instance takes its idle value. The buffer's content becomes unspecified
(R53): a free value at every index (notes/assumptions/5.md). -/
def Decoder.loadIdle (_ : Decoder) : Decoder := Decoder.idle

/-- `raise k` in a decoder, the one exception entry there is (R14, R231 (a), R242): the decoder performs LoadIdle,
nothing is saved, and the FEED in progress returns `Error(k)`. There is no return from it (R243): the next byte
is taken in WaitSync0. -/
def Decoder.raise (d : Decoder) (k : ErrorKind) : Decoder × Event := (d.loadIdle, .error k)

/-- Whether `n` more bytes would take a logical payload of `olen` bytes beyond `OUT_MAX` (R52, R234). The first test
follows from the second (R7) and decides ordinary lengths without the open constant. Irreducible so that no tactic
unrolls the large bound; `overflows_eq` (Laws/State.lean) says what it is. -/
@[irreducible] def overflows (olen n : Nat) : Bool :=
  decide (65535 < olen + n) && decide (Config.outMax < olen + n)

/-- `Append` and `AppendRep` (R52): the bound is checked before any write, and the bytes go to the indices from
`DEC.olen` on. `none` stands for BufferOverflow. -/
def Decoder.appendSeq (d : Decoder) (vs : List Byte) : Option Decoder :=
  if overflows d.olen vs.length then none
  else some { d with pb := d.pb.writeSeq d.olen vs, olen := d.olen + vs.length }

/-- `Append(v)` (R52). -/
def Decoder.append (d : Decoder) (v : Byte) : Option Decoder := d.appendSeq [v]

/-- `AppendRep(v, n)` (R52). -/
def Decoder.appendRep (d : Decoder) (v : Byte) (n : Nat) : Option Decoder := d.appendSeq (List.replicate n v)

/-- Add one byte to the decoder's running checksum, modulo 65536 (R26, R175). -/
def Decoder.sum (d : Decoder) (b : Byte) : Decoder := { d with acc := d.acc + b.setWidth 16 }

/-! ### Links -/

/-- A link right after reset: its decoder idle (R32), no result yet. -/
def Link.fresh : Link := { dec := Decoder.idle, reply := none }

/-- The link of a number (R248). -/
def State.getLink (s : State) (i : Nat) : Link := (findKey i s.links).getD Link.fresh

/-- Write a link, keeping the list of links in canonical form: rising, and no entry equal to a link after reset. -/
def State.setLink (s : State) (i : Nat) (l : Link) : State :=
  { s with links := if l = Link.fresh then dropKey i s.links else putKey i l s.links }

/-- The decoder instance of a link. -/
def State.dec (s : State) (i : Nat) : Decoder := (s.getLink i).dec

/-- Write the decoder instance of a link. -/
def State.setDec (s : State) (i : Nat) (d : Decoder) : State := s.setLink i { s.getLink i with dec := d }

/-! ### The checksum unit -/

/-- Write `CSU.acc` (R34). -/
def State.setCsuAcc (s : State) (v : Half) : State := { s with csuAcc := v }

/-! ### Result ports -/

/-- What stands on a unit's result port (R56). -/
def State.replyOf (s : State) : UnitName → Option Reply
  | .dec i => (s.getLink i).reply
  | .csu => s.results.csu
  | .rle => s.results.rle
  | .enc => s.results.enc
  | .stat => s.results.stat
  | .resp => s.results.resp
  | .port => s.results.port

/-- Return a result: it replaces the unit's earlier one (R56). -/
def State.answer (s : State) (u : UnitName) (r : Reply) : State :=
  match u with
  | .dec i => s.setLink i { s.getLink i with reply := some r }
  | .csu => { s with results := { s.results with csu := some r } }
  | .rle => { s with results := { s.results with rle := some r } }
  | .enc => { s with results := { s.results with enc := some r } }
  | .stat => { s with results := { s.results with stat := some r } }
  | .resp => { s with results := { s.results with resp := some r } }
  | .port => { s with results := { s.results with port := some r } }

/-- Return from a decoder request: the selected link's decoder becomes `d`, and its result port shows `r` (R56). -/
def State.returnFrom (s : State) (d : Decoder) (r : Reply) : State := s.setLink s.link { dec := d, reply := some r }

/-- The reply of a request other than FEED that returned a value or raised an error (R43). -/
def Reply.ofResult : Except ErrorKind Value → Reply
  | .ok v => .ok v
  | .error k => .error k

/-- The reply of a request to a unit without state that takes the byte sequence on the operand-stream port:
IllegalRequest when it is longer than `OPERAND_MAX`, before anything else is done, and what the unit computes otherwise
(R55, R231 (b), R239). -/
def operandReply (bs : List Byte) (f : List Byte → Except ErrorKind Value) : Reply :=
  if operandTooLong bs then .error .illegalRequest else .ofResult (f bs)

/-- Perform such a request on the operand of the request in service. No state but the unit's result port changes
(R231 (b)). -/
def State.answerOperand (s : State) (u : UnitName) (f : List Byte → Except ErrorKind Value) : State :=
  s.answer u (operandReply s.operand f)

/-! ### The host's side -/

/-- Whether the port exists: decoder ports are numbered 0 to `N_LINKS - 1` (R248). -/
def Port.present : Port → Bool
  | .decoder i => i < Config.nLinks
  | .shared => true

/-- The link number of a port, `none` for the shared one. -/
def Port.link : Port → Option Nat
  | .decoder i => some i
  | .shared => none

/-- Where a port's refusals are returned: a decoder port's at that instance, the shared port's at the port itself. -/
def Port.refusalTo : Port → UnitName
  | .decoder i => .dec i
  | .shared => .port

/-- The rest of the host's list, once its head is taken. -/
def State.withInputs (s : State) (rest : List HostInput) : State := { s with inputs := rest }

/-- Put a request's attachments on the ports: the link it came in on, the byte sequence, the Status record
(R50, R55, R84). -/
def State.attach (s : State) (r : Request) : State :=
  { s with link := r.port.link.getD s.link, operand := r.operand, status := r.status }

/-- Refuse a word that no row takes: `Error(IllegalRequest)`, and no unit's state changes (R94, R231 (c), R239). -/
def State.refuseWord (s : State) (p : Port) : State := s.answer p.refusalTo (.error .illegalRequest)

/-- Every listed link's decoder performs LoadIdle, and its result port keeps what it shows. A link that is then as
reset leaves it is no longer listed. -/
def idleLinks : List (Nat × Link) → List (Nat × Link)
  | [] => []
  | (i, l) :: t =>
    if l.reply = none then idleLinks t
    else (i, { l with dec := l.dec.loadIdle }) :: idleLinks t

/-- The reset input (R260): LoadIdle in every decoder instance, and `CSU.acc` becomes 0x0000. -/
def State.assertReset (s : State) : State := { s with links := idleLinks s.links, csuAcc := 0x0000 }

end Sys2Proof.Machine
end

