-- ==== Sys2Proof/Machine/Checksum.lean ====
section
/-! DEFINITION. The 16-bit checksum accumulator CSU (spec/42_checksum.md). -/

namespace Sys2Proof.Machine

/-- The loop of csum16 (R170): add each byte, modulo 65536, from a given sum on. -/
def sumBytes : Half → List Byte → Half
  | a, [] => a
  | a, b :: bs => sumBytes (a + b.setWidth 16) bs

/-- `csum16(s)` (R170). -/
def csum16 (bs : List Byte) : Half := sumBytes 0#16 bs

/-- CSCLR (R171): clear the standalone accumulator. -/
def execCsclr (s : State) : Host.Outcome State Fault Refusal :=
  .next ((s.setCsuAcc 0x0000).answer .csu (.ok .unit))

/-- CSADD (R172): add one byte to the standalone accumulator, and return the new value. -/
def execCsadd (b : Byte) (s : State) : Host.Outcome State Fault Refusal :=
  let v := s.csuAcc + b.setWidth 16
  .next ((s.setCsuAcc v).answer .csu (.ok (.half v)))

/-- CSSUM (R173): the sum of the byte sequence on the operand-stream port. `CSU.acc` is not touched. -/
def execCssum (s : State) : Host.Outcome State Fault Refusal :=
  .next (s.answerOperand .csu (fun bs => .ok (.half (csum16 bs))))

/-- CSCMP (R174): whether the accumulator equals a value, as one bit. -/
def execCscmp (v : Half) (s : State) : Host.Outcome State Fault Refusal :=
  .next (s.answer .csu (.ok (.bit (if s.csuAcc = v then 1 else 0))))

end Sys2Proof.Machine
end

