-- ==== Sys2Proof/Machine/Rle.lean ====
section
/-! DEFINITION. The RLE codec (spec/41_rle.md): the streaming line decoder RleStep, the standalone requests RLED and RLEC,
and the canonical greedy compressor. -/

namespace Sys2Proof.Machine

/-! ### The line decoder -/

/-- RleStep (R140 to R143), without the write: the new run state and what is to be written. `after` is the budget left
after this byte, the spec's `DEC.rem - 1`. -/
def rleStep (mode : RleMode) (cnt : Byte) (after : Nat) (b : Byte) : Except ErrorKind (RleMode × Byte × RleOut) :=
  match mode with
  | .tag =>
    match Tag.ofByte b with
    | .lit c =>
      if after < c + 1 then .error .malformedRLEStream else .ok (.lit, BitVec.ofNat 8 (c + 1), .nothing)
    | .rep c =>
      if after < 1 then .error .malformedRLEStream else .ok (.rep, BitVec.ofNat 8 (c + 2), .nothing)
  | .lit => .ok (if cnt - 1#8 = 0#8 then .tag else .lit, cnt - 1#8, .one b)
  | .rep => .ok (.tag, 0#8, .copies b cnt.toNat)

/-- Write what a step of the line decoder produces into the payload buffer (R52). `none` stands for BufferOverflow. -/
def Decoder.emit (d : Decoder) : RleOut → Option Decoder
  | .nothing => some d
  | .one v => d.append v
  | .copies v n => d.appendRep v n

/-- RleStep in a decoder (R110): the run state and the buffer of the instance. -/
def Decoder.rleStep (d : Decoder) (b : Byte) : Except ErrorKind Decoder :=
  match Machine.rleStep d.rleMode d.rleCnt (d.rem - 1#16).toNat b with
  | .error k => .error k
  | .ok (mode, cnt, out) =>
    match d.emit out with
    | none => .error .bufferOverflow
    | some d' => .ok { d' with rleMode := mode, rleCnt := cnt }

/-! ### RLED -/

/-- Append a sequence to the output of RLED, whose length `OUT_MAX` bounds (R7, R148). -/
def outputSeq (out vs : List Byte) : Option (List Byte) :=
  if overflows out.length vs.length then none else some (out ++ vs)

/-- Write what a step of the line decoder produces to the output of RLED (R148). `none` stands for BufferOverflow. -/
def outputEmit (out : List Byte) : RleOut → Option (List Byte)
  | .nothing => some out
  | .one v => outputSeq out [v]
  | .copies v n => outputSeq out (List.replicate n v)

/-- The loop of rle_decompress (R148), over private copies of the run state, the budget and the output. -/
def rleRun : List Byte → RleMode → Byte → Nat → List Byte → Except ErrorKind (List Byte)
  | [], _, _, _, out => .ok out
  | b :: w, mode, cnt, rem, out =>
    match rleStep mode cnt (rem - 1) b with
    | .error k => .error k
    | .ok (mode', cnt', e) =>
      match outputEmit out e with
      | none => .error .bufferOverflow
      | some out' => rleRun w mode' cnt' (rem - 1) out'

/-- `rle_decompress(w)` (R148): the whole of `w` is the budget. -/
def rleDecompress (w : List Byte) : Except ErrorKind (List Byte) := rleRun w .tag 0 w.length []

/-! ### RLEC -/

/-- How many of the next bytes, at most `cap`, equal `v`: the loop that lengthens a repeat run (R161). -/
def equalBytes (v : Byte) : Nat → List Byte → Nat
  | 0, _ => 0
  | _ + 1, [] => 0
  | cap + 1, x :: xs => if x = v then equalBytes v cap xs + 1 else 0

/-- How many of the next bytes, at most `cap`, a literal run takes: it stops before the first byte that begins a pair
of equal bytes (R161). -/
def literalBytes : Nat → List Byte → Nat
  | 0, _ => 0
  | _ + 1, [] => 0
  | _ + 1, [_] => 1
  | cap + 1, x :: y :: xs => if x = y then 0 else literalBytes cap (y :: xs) + 1

/-- The main loop of rle_compress (R161), for at most `fuel` runs. Every run takes at least one byte. -/
def compressRuns : Nat → List Byte → List Byte
  | 0, _ => []
  | _ + 1, [] => []
  | fuel + 1, x :: xs =>
    let r := equalBytes x 128 xs + 1
    if 2 ≤ r then
      (Tag.rep (r - 2)).toByte :: x :: compressRuns fuel ((x :: xs).drop r)
    else
      let k := literalBytes 128 (x :: xs)
      (Tag.lit (k - 1)).toByte :: ((x :: xs).take k ++ compressRuns fuel ((x :: xs).drop k))

/-- `rle_compress(p)` (R161). -/
def rleCompress (p : List Byte) : List Byte := compressRuns p.length p

/-! ### The requests -/

/-- RLED (R147): decompress the byte sequence on the operand-stream port. -/
def execRled (s : State) : Host.Outcome State Fault Refusal :=
  .next (s.answerOperand .rle (fun w => (rleDecompress w).map Value.bytes))

/-- RLEC (R160): compress the byte sequence on the operand-stream port. -/
def execRlec (s : State) : Host.Outcome State Fault Refusal :=
  .next (s.answerOperand .rle (fun p => .ok (.bytes (rleCompress p))))

end Sys2Proof.Machine
end

