-- ==== Sys2Proof/Machine/Encoder.lean ====
section
/-! DEFINITION. The packet encoder ENC (spec/44_encoder.md). -/

namespace Sys2Proof.Machine

/-- The largest wire payload the 16-bit length field can describe (R202). -/
def maxWireLength : Nat := 65535

/-- The wire payload: compressed if the flag is set (R201). -/
def wirePayload (f : Bool) (p : List Byte) : List Byte := if f then rleCompress p else p

/-- The header bytes at offsets 2 to 5: command, compression, length low, length high (R71, R201). -/
def packetHeader (c : Byte) (f : Bool) (x : Half) : List Byte := [c, compByte f, lowByte x, highByte x]

/-- The bytes of a packet around its wire payload `w` (R71, R201): sync word, header, payload, checksum. -/
def packetBytes (c : Byte) (f : Bool) (w : List Byte) : List Byte :=
  let body := packetHeader c f (BitVec.ofNat 16 w.length) ++ w
  let cs := csum16 body
  [sync0Byte, sync1Byte] ++ body ++ [lowByte cs, highByte cs]

/-- ENC once its operand is taken (R201): the command check, then the length check on the wire payload (R202, R203,
R204). -/
def encodePacket (c : Byte) (f : Bool) (p : List Byte) : Except ErrorKind (List Byte) :=
  match Command.ofByte? c with
  | none => .error .unrecognizedCommand
  | some _ =>
    if maxWireLength < (wirePayload f p).length then .error .payloadTooLarge
    else .ok (packetBytes c f (wirePayload f p))

/-- ENC (R200): build one host-to-printer packet from the payload on the operand-stream port. -/
def execEnc (f : Bool) (c : Byte) (s : State) : Host.Outcome State Fault Refusal :=
  .next (s.answerOperand .enc (fun p => (encodePacket c f p).map Value.bytes))

end Sys2Proof.Machine
end

