-- ==== Sys2Proof/Machine/Flags.lean ====
section
/-! DEFINITION. The flags the core produces (spec/10_state.md R37): `checksum_valid` and `length_warning` of an
emitted Packet. There is no flag register. -/

namespace Sys2Proof.Machine

/-- `checksum_valid`: the received checksum equals the running sum, in all 16 bits (R113). -/
def checksumValid (rxcs acc : Half) : Bool := rxcs == acc

/-- `LengthWarning(c, n)` (R114): Print expects exactly 4 bytes, Init, Break and Inquiry none, Data any number. -/
def lengthWarning (c : Command) (n : Nat) : Bool :=
  match c with
  | .print => n != 4
  | .init => n != 0
  | .break => n != 0
  | .inquiry => n != 0
  | .data => false

end Sys2Proof.Machine
end

