-- ==== Sys2Proof/Machine/Packets.lean ====
section
/-! DEFINITION. The packet decoder (spec/40_decoder.md): one definition per state for the byte that arrives in it, FEED,
FEEDN and DRST. -/

namespace Sys2Proof.Machine

/-! ### One byte, by the state it arrives in -/

/-- WaitSync0 (R102). Any other byte is noise. -/
def Decoder.takeWaitSync0 (d : Decoder) (b : Byte) : Decoder × Event :=
  (if b = sync0Byte then { d with state := .waitSync1 } else d, .needMore)

/-- WaitSync1 (R103), with re-sync on a second 0x88. -/
def Decoder.takeWaitSync1 (d : Decoder) (b : Byte) : Decoder × Event :=
  (if b = sync1Byte then { d with state := .command }
    else if b = sync0Byte then { d with state := .waitSync1 }
    else { d with state := .waitSync0 }, .needMore)

/-- Command (R104). -/
def Decoder.takeCommand (d : Decoder) (b : Byte) : Decoder × Event :=
  match Command.ofByte? b with
  | none => d.raise .unrecognizedCommand
  | some _ => ({ d.sum b with cmd := b, state := .compression }, .needMore)

/-- Compression (R106). -/
def Decoder.takeCompression (d : Decoder) (b : Byte) : Decoder × Event :=
  match compOfByte? b with
  | none => d.raise .unrecognizedCompressionFlag
  | some f => ({ d.sum b with comp := f, state := .lenLow }, .needMore)

/-- LenLow (R107). -/
def Decoder.takeLenLow (d : Decoder) (b : Byte) : Decoder × Event :=
  ({ d.sum b with len := setLow d.len b, state := .lenHigh }, .needMore)

/-- LenHigh (R108). -/
def Decoder.takeLenHigh (d : Decoder) (b : Byte) : Decoder × Event :=
  let x := setHigh d.len b
  ({ d.sum b with
      len := x, rem := x, rleMode := .tag, rleCnt := 0,
      state := if x = 0#16 then .checksumLow else .payload }, .needMore)

/-- Count one wire byte of the payload (R25, R109, R110). -/
def Decoder.countDown (d : Decoder) : Decoder :=
  { d with rem := d.rem - 1#16, state := if d.rem - 1#16 = 0#16 then .checksumLow else d.state }

/-- Payload, uncompressed (R109). -/
def Decoder.takeRaw (d : Decoder) (b : Byte) : Decoder × Event :=
  match (d.sum b).append b with
  | none => d.raise .bufferOverflow
  | some d' => (d'.countDown, .needMore)

/-- Payload, compressed (R110). -/
def Decoder.takeCompressed (d : Decoder) (b : Byte) : Decoder × Event :=
  match (d.sum b).rleStep b with
  | .error k => d.raise k
  | .ok d' => (d'.countDown, .needMore)

/-- ChecksumLow (R111). -/
def Decoder.takeChecksumLow (d : Decoder) (b : Byte) : Decoder × Event :=
  ({ d with rxcs := setLow d.rxcs b, state := .checksumHigh }, .needMore)

/-- ChecksumHigh (R112): emit the Packet and load the idle values. The fault is for states that no run reaches (R22). -/
def Decoder.takeChecksumHigh (d : Decoder) (b : Byte) : Except Fault (Decoder × Event) :=
  match Command.ofByte? d.cmd with
  | none => .error .illegalCommandLatch
  | some c =>
    .ok (d.loadIdle, .packet
      { command := c
        compressed := d.comp
        payload := d.pb.readSeq 0 d.olen
        checksumValid := checksumValid (setHigh d.rxcs b) d.acc
        lengthWarning := lengthWarning c d.olen })

/-- FEED on one decoder (R101): dispatch on `DEC.state`. -/
def Decoder.feed (d : Decoder) (b : Byte) : Except Fault (Decoder × Event) :=
  match d.state with
  | .waitSync0 => .ok (d.takeWaitSync0 b)
  | .waitSync1 => .ok (d.takeWaitSync1 b)
  | .command => .ok (d.takeCommand b)
  | .compression => .ok (d.takeCompression b)
  | .lenLow => .ok (d.takeLenLow b)
  | .lenHigh => .ok (d.takeLenHigh b)
  | .payload => .ok (if d.comp then d.takeCompressed b else d.takeRaw b)
  | .checksumLow => .ok (d.takeChecksumLow b)
  | .checksumHigh => d.takeChecksumHigh b

/-- The loop of FEEDN (R120): FEED each byte in order, and list the events. -/
def Decoder.feedAll (d : Decoder) : List Byte → Except Fault (Decoder × List Event)
  | [] => .ok (d, [])
  | b :: bs =>
    match d.feed b with
    | .error f => .error f
    | .ok (d', e) =>
      match d'.feedAll bs with
      | .error f => .error f
      | .ok (d'', es) => .ok (d'', e :: es)

/-! ### The requests -/

/-- Feed one byte to the decoder of the selected link, and return its Event (R101, R119). -/
def State.feedByte (s : State) (b : Byte) : Host.Outcome State Fault Refusal :=
  match (s.dec s.link).feed b with
  | .error f => .fault f
  | .ok (d, e) => .next (s.returnFrom d (.event e))

/-- FEED (R101). -/
def execFeed (b : Byte) (s : State) : Host.Outcome State Fault Refusal := s.feedByte b

/-- FEEDN (R120): feed the byte sequence on the operand-stream port, and return one Event per byte. A sequence longer
than `OPERAND_MAX` is refused before any byte is taken (R239, R241). -/
def execFeedn (s : State) : Host.Outcome State Fault Refusal :=
  if operandTooLong s.operand then .next (s.answer (.dec s.link) (.error .illegalRequest))
  else
    match (s.dec s.link).feedAll s.operand with
    | .error f => .fault f
    | .ok (d, es) => .next (s.returnFrom d (.ok (.events es)))

/-- The pseudo-instruction FEEDS (R93): FEED requests for the bytes in order, with the events they return, oldest
first. -/
def feeds (s : State) : List Byte → Host.Outcome (State × List Event) Fault Refusal
  | [] => .next (s, [])
  | b :: bs =>
    match execFeed b s with
    | .fault f => .fault f
    | .refused r => .refused r
    | .next t =>
      match feeds t bs with
      | .fault f => .fault f
      | .refused r => .refused r
      | .next (u, es) =>
        match t.replyOf (.dec s.link) with
        | some (.event e) => .next (u, e :: es)
        | some (.ok _) | some (.error _) | none => .next (u, es)

/-- DRST (R122): discard the state of the selected link's decoder. -/
def execDrst (s : State) : Host.Outcome State Fault Refusal :=
  .next (s.returnFrom (s.dec s.link).loadIdle (.ok .unit))

end Sys2Proof.Machine
end

