-- ==== Sys2Proof/Machine/StatusCodec.lean ====
section
/-! DEFINITION. The status codec STAT (spec/43_status.md) and the response generator RESP (spec/45_responder.md). -/

namespace Sys2Proof.Machine

/-- STPACK (R191): the byte of the Status record on the status-struct port. -/
def execStpack (s : State) : Host.Outcome State Fault Refusal :=
  .next (s.answer .stat (.ok (.byte s.status.toByte)))

/-- STUNPACK (R192): the Status record of a byte. -/
def execStunpack (b : Byte) (s : State) : Host.Outcome State Fault Refusal :=
  .next (s.answer .stat (.ok (.status (Status.ofByte b))))

/-- The response trailer (R215): the device ID and the status byte, in this order. -/
def responseTrailer (st : Status) : List Byte := [deviceIdByte, st.toByte]

/-- RESP returns the trailer for the Status record on the status-struct port (R215, R217). -/
def State.sendTrailer (s : State) : State := s.answer .resp (.ok (.bytes (responseTrailer s.status)))

/-- TRAIL (R215). -/
def execTrail (s : State) : Host.Outcome State Fault Refusal := .next s.sendTrailer

end Sys2Proof.Machine
end

