-- ==== Sys2Proof/Machine/Wire.lean ====
section
/-! DEFINITION. The wire codes of spec/opcode_table.json. A wire code is no request: it is a byte that passes over the
link, and it does so only inside a request. Eleven of them travel from the host to the printer, so each is the FEED of
its byte on the selected link (R17, R54, R101). The device ID travels the other way, and only in the response trailer,
so it is the TRAIL that sends it (R80, R118, R215, R216, R217). See notes/assumptions/2.md. -/

namespace Sys2Proof.Machine

/-- SYNC0 arrives at the selected link's decoder (R72). R102 is its rule in the state that waits for it. -/
def execSync0 (s : State) : Host.Outcome State Fault Refusal := s.feedByte sync0Byte

/-- SYNC1 arrives (R72). R103 is its rule in the state that waits for it. -/
def execSync1 (s : State) : Host.Outcome State Fault Refusal := s.feedByte sync1Byte

/-- CMD_INIT arrives (R73). R104 is its rule in the state that waits for it. -/
def execCmdInit (s : State) : Host.Outcome State Fault Refusal := s.feedByte Command.init.toByte

/-- CMD_PRINT arrives (R73, R104). -/
def execCmdPrint (s : State) : Host.Outcome State Fault Refusal := s.feedByte Command.print.toByte

/-- CMD_DATA arrives (R73, R104). -/
def execCmdData (s : State) : Host.Outcome State Fault Refusal := s.feedByte Command.data.toByte

/-- CMD_BREAK arrives (R73, R104). -/
def execCmdBreak (s : State) : Host.Outcome State Fault Refusal := s.feedByte Command.break.toByte

/-- CMD_INQUIRY arrives (R73, R104). -/
def execCmdInquiry (s : State) : Host.Outcome State Fault Refusal := s.feedByte Command.inquiry.toByte

/-- COMP_RAW arrives (R74). R106 is its rule in the state that waits for it. -/
def execCompRaw (s : State) : Host.Outcome State Fault Refusal := s.feedByte (compByte false)

/-- COMP_RLE arrives (R74, R106). -/
def execCompRle (s : State) : Host.Outcome State Fault Refusal := s.feedByte (compByte true)

/-- RLE_LIT with count field `c` arrives (R77). R141 is its rule in a compressed payload between runs. -/
def execRleLit (c : Nat) (s : State) : Host.Outcome State Fault Refusal := s.feedByte (Tag.lit c).toByte

/-- RLE_REP with count field `c` arrives (R77, R141). -/
def execRleRep (c : Nat) (s : State) : Host.Outcome State Fault Refusal := s.feedByte (Tag.rep c).toByte

/-- DEVICE_ID is sent (R80, R216): it leaves RESP as the first byte of a response trailer (R215). -/
def execDeviceId (s : State) : Host.Outcome State Fault Refusal := .next s.sendTrailer

/-! ### Placing a code where the next step takes it -/

/-- A decoder that a run from reset brings to the place where a wire code is met: the header bytes before the place are
those of a packet, and for a tag they announce a compressed Data packet of 65535 wire bytes, which any run fits.
Each is the idle decoder fed the bytes in its comment. -/
def decoderAt : WirePlace → Decoder
  | .waitSync0 => Decoder.idle                                                            -- none
  | .waitSync1 => { Decoder.idle with state := .waitSync1 }                               -- 88
  | .command => { Decoder.idle with state := .command }                                   -- 88 33
  | .compression => { Decoder.idle with state := .compression, cmd := 0x04, acc := 4 }    -- 88 33 04
  | .rleTag =>                                                                            -- 88 33 04 01 FF FF
    { Decoder.idle with
        state := .payload, cmd := 0x04, comp := true, len := 0xFFFF, rem := 0xFFFF, acc := 0x0203 }
  | .response => Decoder.idle                                                             -- none

/-- Put a request at the head of the host's list, with the attachments that stand on the ports now, and on the
selected link if it is for a decoder. -/
def State.placeRequest (s : State) (k : PortKind) (w : Word) : State :=
  let port := match k with
    | .decoder => Port.decoder s.link
    | .shared => Port.shared
  s.withInputs (.request { port := port, word := w, operand := s.operand, status := s.status } :: s.inputs)

/-- Put a bare request word at the head of the host's list, on the port that takes it. -/
def State.placeWord (s : State) (w : Word) : State :=
  match decodeRequest .decoder w with
  | .ok _ => s.placeRequest .decoder w
  | .error _ => s.placeRequest .shared w

/-- The request that a wire code passes over the link in: FEED of its byte, or TRAIL for the device ID. -/
def carrierWord (p : WirePlace) (b : Byte) : Word :=
  match p with
  | .response => 0xC0000000#32
  | .waitSync0 | .waitSync1 | .command | .compression | .rleTag => 0x10000000#32 ||| b.setWidth 32

/-- Bring the selected link's decoder to the place where a wire code is met. The device ID meets no decoder. -/
def State.atPlace (s : State) (p : WirePlace) : State :=
  match p with
  | .response => s
  | .waitSync0 | .waitSync1 | .command | .compression | .rleTag => s.setDec s.link (decoderAt p)

/-- Put a bare wire code where the next step takes it: the decoder at the place the code is met, and the request that
carries the code at the head of the host's list. -/
def State.placeByte (s : State) (b : Byte) : State :=
  match (decodeBareByte b).map Instr.place with
  | some (.wire p) => (s.atPlace p).placeWord (carrierWord p b)
  | some (.port _) => s
  | none => s

end Sys2Proof.Machine
end

