-- ==== Sys2Proof/Machine/Dispatch.lean ====
section
/-! DEFINITION. The meaning of every instruction, one arm per row of spec/opcode_table.json. -/

namespace Sys2Proof.Machine

def exec (i : Instr) (s : State) : Host.Outcome State Fault Refusal :=
  match i with
  -- the packet decoder
  | .drst => Sys2Proof.Machine.execDrst s
  | .feed b => Sys2Proof.Machine.execFeed b s
  | .feedn => Sys2Proof.Machine.execFeedn s
  -- the checksum accumulator
  | .csclr => Sys2Proof.Machine.execCsclr s
  | .csadd b => Sys2Proof.Machine.execCsadd b s
  | .cssum => Sys2Proof.Machine.execCssum s
  | .cscmp v => Sys2Proof.Machine.execCscmp v s
  -- the RLE codec
  | .rled => Sys2Proof.Machine.execRled s
  | .rlec => Sys2Proof.Machine.execRlec s
  -- the packet encoder
  | .enc f c => Sys2Proof.Machine.execEnc f c s
  -- the status codec and the response trailer
  | .stpack => Sys2Proof.Machine.execStpack s
  | .stunpack b => Sys2Proof.Machine.execStunpack b s
  | .trail => Sys2Proof.Machine.execTrail s
  -- the wire codes
  | .sync0 => Sys2Proof.Machine.execSync0 s
  | .sync1 => Sys2Proof.Machine.execSync1 s
  | .cmdInit => Sys2Proof.Machine.execCmdInit s
  | .cmdPrint => Sys2Proof.Machine.execCmdPrint s
  | .cmdData => Sys2Proof.Machine.execCmdData s
  | .cmdBreak => Sys2Proof.Machine.execCmdBreak s
  | .cmdInquiry => Sys2Proof.Machine.execCmdInquiry s
  | .compRaw => Sys2Proof.Machine.execCompRaw s
  | .compRle => Sys2Proof.Machine.execCompRle s
  | .rleLit c => Sys2Proof.Machine.execRleLit c s
  | .rleRep c => Sys2Proof.Machine.execRleRep c s
  | .deviceId => Sys2Proof.Machine.execDeviceId s

end Sys2Proof.Machine
end

