-- ==== Sys2Proof/Machine/Step.lean ====
section
/-! DEFINITION. One step of the core (spec/20_memory.md R61, R64; spec/30_encoding.md R94): the oldest input of the host is
taken and performed to completion. -/

namespace Sys2Proof.Machine

/-- One step. With no input the core does nothing and keeps its state (R18, R250). The reset input is performed (R260).
A request is decoded on its port: a word that a row takes is performed, any other is refused (R94). -/
def step (s : State) : Host.Outcome State Fault Refusal :=
  match s.inputs with
  | [] => .next s
  | .reset :: rest => .next (s.withInputs rest).assertReset
  | .request r :: rest =>
    if r.port.present then
      match decodeRequest r.port.kind r.word with
      | .ok i => exec i ((s.withInputs rest).attach r)
      | .error _ => .next ((s.withInputs rest).refuseWord r.port)
    else .fault (.absentPort (r.port.link.getD 0))

/-- The state with a word of spec/opcode_table.json placed so that the next step runs it: a 32-bit request at the head
of the host's list, an 8-bit wire code in the request that carries it, with the selected link's decoder at the place
where the code is met (notes/assumptions/12.md). -/
def State.withFetchWord (s : State) (nbits w : Nat) : State :=
  if nbits = 8 then s.placeByte (BitVec.ofNat 8 w) else s.placeWord (BitVec.ofNat 32 w)

end Sys2Proof.Machine
end

