-- ==== Sys2Proof/Safety.lean ====
section
/-! DEFINITION. What a safe state is: the invariants of spec/10_state.md R22, R26, R29 to R33 for each decoder, and of the
whole core; what a well-formed RLE stream is (spec/30_encoding.md R77, R91); and the error kinds a reply may carry
(spec/60_exceptions.md R236, R238). -/

namespace Sys2Proof.Machine

/-- WaitSync0, WaitSync1 and Command: nothing of a packet has been taken yet. -/
def DecState.upToCommand : DecState → Bool
  | .waitSync0 | .waitSync1 | .command => true
  | .compression | .lenLow | .lenHigh | .payload | .checksumLow | .checksumHigh => false

/-- The states before Payload. -/
def DecState.beforePayload : DecState → Bool
  | .waitSync0 | .waitSync1 | .command | .compression | .lenLow | .lenHigh => true
  | .payload | .checksumLow | .checksumHigh => false

/-- ChecksumLow and ChecksumHigh. -/
def DecState.inChecksum : DecState → Bool
  | .checksumLow | .checksumHigh => true
  | .waitSync0 | .waitSync1 | .command | .compression | .lenLow | .lenHigh | .payload => false

/-- R32, R26, R175: until the command byte is taken, every register but `DEC.state` is idle. -/
abbrev Decoder.idleUpToCommand (d : Decoder) : Prop :=
  d.state.upToCommand → d = { Decoder.idle with state := d.state }

/-- R22: from Compression on, `DEC.cmd` holds one of the five command bytes. -/
abbrev Decoder.commandLatched (d : Decoder) : Prop :=
  !d.state.upToCommand → (Command.ofByte? d.cmd).isSome

/-- Before Payload no logical byte has been written. -/
abbrev Decoder.nothingWritten (d : Decoder) : Prop := d.state.beforePayload → d.olen = 0

/-- R33 (a), (b): what remains of the wire payload. -/
abbrev Decoder.budgetSound (d : Decoder) : Prop :=
  (d.state = .payload → 1 ≤ d.rem.toNat ∧ d.rem.toNat ≤ d.len.toNat) ∧
  (d.state.inChecksum → d.rem = 0#16 ∧ d.rleMode = .tag)

/-- R29, R33 (c), (d), (e): the run state and the count of an open run. -/
abbrev Decoder.runSound (d : Decoder) : Prop :=
  (d.rleMode = .tag → d.rleCnt = 0#8) ∧
  (d.rleMode = .lit → 1 ≤ d.rleCnt.toNat ∧ d.rleCnt.toNat ≤ 128 ∧ d.rleCnt.toNat ≤ d.rem.toNat) ∧
  (d.rleMode = .rep → 2 ≤ d.rleCnt.toNat ∧ d.rleCnt.toNat ≤ 129 ∧ 1 ≤ d.rem.toNat) ∧
  (d.rleMode ≠ .tag → d.state = .payload ∧ d.comp = true)

/-- R30, R31, R33 (f): the payload buffer holds exactly the `DEC.olen` bytes written since the idle load, in canonical
form, within its capacity. -/
abbrev Decoder.bufferSound (d : Decoder) : Prop :=
  d.pb.map Prod.fst = List.range d.olen ∧ d.olen ≤ Config.outMax ∧
  (d.comp = false → d.state = .payload → d.olen = d.len.toNat - d.rem.toNat)

/-- The invariant of a decoder instance. -/
abbrev Decoder.Inv (d : Decoder) : Prop :=
  d.idleUpToCommand ∧ d.commandLatched ∧ d.nothingWritten ∧ d.budgetSound ∧ d.runSound ∧ d.bufferSound

/-- The port that an input of the host uses exists (R248). -/
def HostInput.present : HostInput → Bool
  | .reset => true
  | .request r => r.port.present

/-- The invariant of the core: the list of links is canonical, names only links there are (R8, R248), and each
decoder meets its own invariant. The host issues requests on ports that exist. -/
abbrev State.Inv (s : State) : Prop :=
  rising s.links = true ∧
  (∀ p ∈ s.links, p.1 < Config.nLinks ∧ p.2 ≠ Link.fresh ∧ p.2.dec.Inv) ∧
  s.link < Config.nLinks ∧
  (∀ x ∈ s.inputs, x.present = true)

/-! ### Streams of runs -/

/-- One run of the RLE format as it stands on the wire (R77, R91), whoever wrote it. -/
inductive Run
  /-- a literal run of the bytes `bs` -/
  | lit (bs : List Byte)
  /-- a repeat run of `n` copies of `v` -/
  | rep (n : Nat) (v : Byte)
  deriving DecidableEq, Repr

/-- The lengths that a tag can announce (R77, R78). -/
def Run.wf : Run → Bool
  | .lit bs => decide (1 ≤ bs.length) && decide (bs.length ≤ 128)
  | .rep n _ => decide (2 ≤ n) && decide (n ≤ 129)

/-- The wire bytes of a run: its tag, and the bytes the tag governs (R77, R78). -/
def Run.wire : Run → List Byte
  | .lit bs => BitVec.ofNat 8 (bs.length - 1) :: bs
  | .rep n v => [BitVec.ofNat 8 (128 + (n - 2)), v]

/-- The logical bytes of a run (R77). -/
def Run.out : Run → List Byte
  | .lit bs => bs
  | .rep n v => List.replicate n v

/-- A list of runs that all have lengths a tag can announce. -/
abbrev Runs.wf (rs : List Run) : Prop := ∀ r ∈ rs, r.wf = true

/-- The wire bytes of runs that follow one another with no separator (R91). -/
def Runs.wire (rs : List Run) : List Byte := rs.flatMap Run.wire

/-- The logical bytes of runs in order. -/
def Runs.out (rs : List Run) : List Byte := rs.flatMap Run.out

/-! ### The error kinds a reply carries -/

/-- The error kinds that an Event carries. -/
def Event.kinds : Event → List ErrorKind
  | .needMore => []
  | .packet _ => []
  | .error k => [k]

/-- The error kinds that a reply carries, in the events of a FEEDN too. -/
def Reply.kinds : Reply → List ErrorKind
  | .event e => e.kinds
  | .error k => [k]
  | .ok (.events es) => es.flatMap Event.kinds
  | .ok .unit => []
  | .ok (.bit _) => []
  | .ok (.byte _) => []
  | .ok (.half _) => []
  | .ok (.bytes _) => []
  | .ok (.status _) => []

/-- R236, R238: ChecksumMismatch and TruncatedStream are never reported as errors. -/
abbrev Reply.legal (r : Reply) : Prop := ∀ k ∈ r.kinds, k ≠ .checksumMismatch ∧ k ≠ .truncatedStream

/-- Every result port shows a legal reply or none. -/
abbrev State.RepliesLegal (s : State) : Prop := ∀ u r, s.replyOf u = some r → r.legal

end Sys2Proof.Machine
end

