-- ==== Sys2Proof/Certificates/Slice0/Obligations.lean ====
section
/-! DEFINITION. The statements about the GBP link core. Each docstring names the rules of spec/ that the statement
formalises. Throughout, `s.dec s.link` is the decoder of the link whose port the request came in on, and
`s.returnFrom d r` is `s` with that link's decoder `d` and its result port showing `r`. -/

open Sys2Proof Sys2Proof.Machine

/-! ### Encodings -/

/-- Code words written out from R72, R73, R74, R77, R80 and R83 decode to the instructions they stand for. -/
def Obligations.WrittenWordsDecode : Prop :=
  decodeRequest .decoder 0x00000000#32 = .ok .drst ∧
  decodeRequest .decoder 0x10000088#32 = .ok (.feed 0x88#8) ∧
  decodeRequest .decoder 0x20000000#32 = .ok .feedn ∧
  decodeRequest .shared 0x400000FF#32 = .ok (.csadd 0xFF#8) ∧
  decodeRequest .shared 0x60000047#32 = .ok (.cscmp 0x0047#16) ∧
  decodeRequest .shared 0x70000000#32 = .ok .rled ∧
  decodeRequest .shared 0x91000004#32 = .ok (.enc true 0x04#8) ∧
  decodeRequest .shared 0xB0000021#32 = .ok (.stunpack 0x21#8) ∧
  decodeRequest .shared 0xC0000000#32 = .ok .trail ∧
  decodeWire .waitSync0 0x88#8 = .ok .sync0 ∧
  decodeWire .waitSync1 0x33#8 = .ok .sync1 ∧
  decodeWire .command 0x0F#8 = .ok .cmdInquiry ∧
  decodeWire .compression 0x01#8 = .ok .compRle ∧
  decodeWire .rleTag 0x7F#8 = .ok (.rleLit 127) ∧
  decodeWire .rleTag 0x80#8 = .ok (.rleRep 0) ∧
  decodeWire .response 0x81#8 = .ok .deviceId

/-- Every well-formed instruction is read back from its code word, at its own place: no bit of an encoding is dropped. -/
def Obligations.DecodeOfEncode : Prop :=
  ∀ i : Instr, i.wf = true → decode i.place (encode i) = .ok i

/-- Whatever a place decodes, it decodes from the one code word of a well-formed instruction of that place: reserved
bits are never ignored. -/
def Obligations.EncodeOfDecode : Prop :=
  ∀ (p : Place) (c : CodeWord) (i : Instr), decode p c = .ok i → i.wf = true ∧ i.place = p ∧ encode i = c

/-! ### The step -/

/-- R94: a request word is performed by the one row that takes it and whose unit its port accepts, and refused with
IllegalRequest if there is none. Two things of the refusal are the model's choices: where the result of a word refused on
the shared port stands (notes/assumptions/6.md), and that the refused request's attachments and link do not reach the
state (notes/assumptions/16.md). -/
def Obligations.RequestsFollowTheTable : Prop :=
  (∀ (s : State) (r : Request) (rest : List HostInput),
    s.inputs = .request r :: rest → r.port.present = true →
      (∀ row ∈ requestRows, row.takes r.word = true → row.port = r.port.kind →
        step s = exec (row.build r.word) ((s.withInputs rest).attach r)) ∧
      ((∀ row ∈ requestRows, row.takes r.word = true → row.port ≠ r.port.kind) →
        step s = .next ((s.withInputs rest).answer r.port.refusalTo (.error .illegalRequest)))) ∧
  (∀ w : Word, ∀ row ∈ requestRows, ∀ row' ∈ requestRows,
    row.takes w = true → row'.takes w = true → row = row')

/-- A step performs the instruction that the oldest request's word decodes to, on the state in which that request is
taken off the host's list and its attachments stand on the ports, and nothing else has changed. -/
def Obligations.StepRunsDecodedInstruction : Prop :=
  ∀ (s : State) (r : Request) (rest : List HostInput) (i : Instr),
    s.inputs = .request r :: rest → r.port.present = true → decodeRequest r.port.kind r.word = .ok i →
      step s = exec i { s with inputs := rest, link := r.port.link.getD s.link, operand := r.operand, status := r.status }

/-- The byte of a wire code, fed to a decoder, is that wire code at work; and the device ID is at work as the first byte
of the response trailer (R80, R216; notes/assumptions/2.md, the model's reading of what a wire code's row means as an
instruction). -/
def Obligations.WireCodesRunInTheirCarriers : Prop :=
  (∀ (s : State) (p : WirePlace) (b : Byte) (c : Instr),
    p ≠ .response → decodeWire p b = .ok c → exec c s = exec (.feed b) s) ∧
  (∀ s : State, exec .deviceId s = .next (s.answer .resp (.ok (.bytes [0x81#8, s.status.toByte]))))

/-- R89: a reserved op code, a nonzero reserved field and a nonzero field that must be 0 are refused with
IllegalRequest, and no decoder and not `CSU.acc` changes (R231 (c)). That every other result stands too, a refusal on the
shared port having a slot of its own, is the model's choice (notes/assumptions/6.md). -/
def Obligations.IllegalWordsChangeNothing : Prop :=
  ∀ (s : State) (r : Request) (rest : List HostInput),
    s.inputs = .request r :: rest → r.port.present = true →
    (13 ≤ (r.word >>> 28).toNat ∨
      (r.word >>> 25) &&& 0x7#32 ≠ 0#32 ∨
      (r.word >>> 16) &&& 0xFF#32 ≠ 0#32 ∨
      ((r.word >>> 28).toNat ≠ 9 ∧ r.word.getLsbD 24 = true) ∨
      ((r.word >>> 28).toNat ∈ [1, 4, 9, 11] ∧ (r.word >>> 8) &&& 0xFF#32 ≠ 0#32) ∨
      ((r.word >>> 28).toNat ∉ [1, 4, 6, 9, 11] ∧ r.word &&& 0xFFFF#32 ≠ 0#32)) →
    ∃ t, step s = .next t ∧ t.replyOf r.port.refusalTo = some (.error .illegalRequest) ∧
      t.csuAcc = s.csuAcc ∧ (∀ j, t.dec j = s.dec j) ∧
      (∀ u, u ≠ r.port.refusalTo → t.replyOf u = s.replyOf u)

/-- R239: IllegalRequest is the result of a word that matches no row on its port, and of an operand sequence longer than
`OPERAND_MAX`; the state of no unit changes (R231 (c)). The slot that a refusal on the shared port is shown in is the
model's choice (notes/assumptions/6.md), and so is that the operand ports and the selected link stay as they were when a
word is refused (notes/assumptions/16.md). -/
def Obligations.IllegalRequestCauses : Prop :=
  (∀ (s : State) (r : Request) (rest : List HostInput),
    s.inputs = .request r :: rest → r.port.present = true →
    (∀ row ∈ requestRows, row.port = r.port.kind → r.word &&& row.mask ≠ row.pattern) →
      step s = .next ((s.withInputs rest).answer r.port.refusalTo (.error .illegalRequest))) ∧
  (∀ s : State, Config.operandMax < s.operand.length →
    exec .feedn s = .next (s.answer (.dec s.link) (.error .illegalRequest)) ∧
    exec .cssum s = .next (s.answer .csu (.error .illegalRequest)) ∧
    exec .rled s = .next (s.answer .rle (.error .illegalRequest)) ∧
    exec .rlec s = .next (s.answer .rle (.error .illegalRequest)) ∧
    ∀ f c, exec (.enc f c) s = .next (s.answer .enc (.error .illegalRequest))) ∧
  (∀ (s : State) (u : UnitName),
    (s.answer u (.error .illegalRequest)).csuAcc = s.csuAcc ∧
    ∀ j, (s.answer u (.error .illegalRequest)).dec j = s.dec j)

/-- R260, R32: the reset input makes every decoder idle and clears `CSU.acc`, and that is what the machine right after
reset holds. `pb := []` is how the model writes unspecified content: every index holds a free value
(notes/assumptions/5.md). -/
def Obligations.ResetLoadsIdleEverywhere : Prop :=
  (∀ (s : State) (rest : List HostInput), s.inputs = .reset :: rest →
    ∃ t, step s = .next t ∧ t.csuAcc = 0x0000#16 ∧ ∀ i, t.dec i = State.reset.dec i) ∧
  State.reset.csuAcc = 0x0000#16 ∧
  (∀ i, State.reset.dec i =
    { state := .waitSync0, cmd := 0x00#8, comp := false, len := 0x0000#16, rem := 0x0000#16, acc := 0x0000#16,
      rxcs := 0x0000#16, rleMode := .tag, rleCnt := 0#8, olen := 0, pb := [] })

/-- R250, R248: with no request the core does nothing and keeps its state; and a step stops with the fault `absentPort`
exactly when the oldest request names a decoder instance beyond `N_LINKS - 1` (notes/assumptions/10.md, the model's
choice). -/
def Obligations.StepsThatRunNoInstruction : Prop :=
  (∀ s : State, s.inputs = [] → step s = .next s) ∧
  (∀ (s : State) (i : Nat), step s = .fault (.absentPort i) ↔
    ∃ r rest, s.inputs = .request r :: rest ∧ r.port = .decoder i ∧ Config.nLinks ≤ i)

/-! ### The packet decoder, one state at a time -/

/-- R102, R103: WaitSync0 waits for 0x88 and discards every other byte; WaitSync1 takes 0x33, stays on 0x88, and returns
to WaitSync0 on any other byte. -/
def Obligations.FeedInWaitSync : Prop :=
  ∀ (s : State) (b : Byte),
    ((s.dec s.link).state = .waitSync0 → exec (.feed b) s = .next (s.returnFrom
      (if b = 0x88#8 then { s.dec s.link with state := .waitSync1 } else s.dec s.link) (.event .needMore))) ∧
    ((s.dec s.link).state = .waitSync1 → exec (.feed b) s = .next (s.returnFrom
      { s.dec s.link with
          state := if b = 0x33#8 then .command else if b = 0x88#8 then .waitSync1 else .waitSync0 }
      (.event .needMore)))

/-- R104: Command latches and sums one of the five command bytes, and aborts on any other. -/
def Obligations.FeedInCommand : Prop :=
  ∀ (s : State) (b : Byte), (s.dec s.link).state = .command →
    exec (.feed b) s = .next (
      if b ∈ [0x01#8, 0x02#8, 0x04#8, 0x08#8, 0x0F#8] then
        s.returnFrom
          { s.dec s.link with cmd := b, acc := (s.dec s.link).acc + b.setWidth 16, state := .compression }
          (.event .needMore)
      else s.returnFrom Decoder.idle (.event (.error .unrecognizedCommand)))

/-- R106: Compression latches and sums 0x00 or 0x01, and aborts on any other byte. -/
def Obligations.FeedInCompression : Prop :=
  ∀ (s : State) (b : Byte), (s.dec s.link).state = .compression →
    exec (.feed b) s = .next (
      if b ∈ [0x00#8, 0x01#8] then
        s.returnFrom
          { s.dec s.link with
              comp := b.getLsbD 0, acc := (s.dec s.link).acc + b.setWidth 16, state := .lenLow }
          (.event .needMore)
      else s.returnFrom Decoder.idle (.event (.error .unrecognizedCompressionFlag)))

/-- R107, R108: LenLow writes bits 7:0 of the length. LenHigh completes the length X, loads the budget with it, and
skips Payload when X is 0. -/
def Obligations.FeedInLengthBytes : Prop :=
  ∀ (s : State) (b : Byte) (x : Half),
    ((s.dec s.link).state = .lenLow → x = (s.dec s.link).len.extractLsb' 8 8 ++ b →
      exec (.feed b) s = .next (s.returnFrom
        { s.dec s.link with len := x, acc := (s.dec s.link).acc + b.setWidth 16, state := .lenHigh }
        (.event .needMore))) ∧
    ((s.dec s.link).state = .lenHigh → x = b ++ (s.dec s.link).len.extractLsb' 0 8 →
      exec (.feed b) s = .next (s.returnFrom
        { s.dec s.link with
            len := x
            rem := x
            acc := (s.dec s.link).acc + b.setWidth 16
            rleMode := .tag
            rleCnt := 0#8
            state := if x = 0#16 then .checksumLow else .payload }
        (.event .needMore)))

/-- R109: an uncompressed payload byte is summed, appended and counted. It would overflow only beyond `OUT_MAX`, which
no decoder that meets its invariant can. -/
def Obligations.FeedInRawPayload : Prop :=
  ∀ (s : State) (b : Byte), (s.dec s.link).state = .payload → (s.dec s.link).comp = false →
    exec (.feed b) s = .next (
      if (s.dec s.link).olen + 1 ≤ Config.outMax then
        s.returnFrom
          { s.dec s.link with
              acc := (s.dec s.link).acc + b.setWidth 16
              pb := (s.dec s.link).pb.write (s.dec s.link).olen b
              olen := (s.dec s.link).olen + 1
              rem := (s.dec s.link).rem - 1#16
              state := if (s.dec s.link).rem - 1#16 = 0#16 then .checksumLow else .payload }
          (.event .needMore)
      else s.returnFrom Decoder.idle (.event (.error .bufferOverflow))) ∧
    ((s.dec s.link).Inv → (s.dec s.link).olen + 1 ≤ Config.outMax)

/-- R141: a tag byte opens a literal run of c + 1 bytes or a repeat run of c + 2 copies, if the budget left after it
holds the run, and aborts with MalformedRLEStream if it does not. -/
def Obligations.FeedOfTagByte : Prop :=
  ∀ (s : State) (b : Byte) (after c : Nat),
    (s.dec s.link).state = .payload → (s.dec s.link).comp = true → (s.dec s.link).rleMode = .tag →
    after = ((s.dec s.link).rem - 1#16).toNat → c = b.toNat % 128 →
    exec (.feed b) s = .next (
      if (b.toNat < 128 ∧ after < c + 1) ∨ (128 ≤ b.toNat ∧ after < 1) then
        s.returnFrom Decoder.idle (.event (.error .malformedRLEStream))
      else
        s.returnFrom
          { s.dec s.link with
              acc := (s.dec s.link).acc + b.setWidth 16
              rleMode := if b.toNat < 128 then .lit else .rep
              rleCnt := BitVec.ofNat 8 (if b.toNat < 128 then c + 1 else c + 2)
              rem := (s.dec s.link).rem - 1#16 }
          (.event .needMore))

/-- R142: a literal byte is appended whatever its value, and the run ends with its last byte. -/
def Obligations.FeedOfLiteralByte : Prop :=
  ∀ (s : State) (b : Byte),
    (s.dec s.link).state = .payload → (s.dec s.link).comp = true → (s.dec s.link).rleMode = .lit →
    exec (.feed b) s = .next (
      if (s.dec s.link).olen + 1 ≤ Config.outMax then
        s.returnFrom
          { s.dec s.link with
              acc := (s.dec s.link).acc + b.setWidth 16
              pb := (s.dec s.link).pb.write (s.dec s.link).olen b
              olen := (s.dec s.link).olen + 1
              rleCnt := (s.dec s.link).rleCnt - 1#8
              rleMode := if (s.dec s.link).rleCnt - 1#8 = 0#8 then .tag else .lit
              rem := (s.dec s.link).rem - 1#16
              state := if (s.dec s.link).rem - 1#16 = 0#16 then .checksumLow else .payload }
          (.event .needMore)
      else s.returnFrom Decoder.idle (.event (.error .bufferOverflow)))

/-- R143: the value byte of a repeat run appends all its copies at once, or none of them. -/
def Obligations.FeedOfRepeatValue : Prop :=
  ∀ (s : State) (b : Byte) (n : Nat),
    (s.dec s.link).state = .payload → (s.dec s.link).comp = true → (s.dec s.link).rleMode = .rep →
    n = (s.dec s.link).rleCnt.toNat →
    exec (.feed b) s = .next (
      if (s.dec s.link).olen + n ≤ Config.outMax then
        s.returnFrom
          { s.dec s.link with
              acc := (s.dec s.link).acc + b.setWidth 16
              pb := (s.dec s.link).pb.writeSeq (s.dec s.link).olen (List.replicate n b)
              olen := (s.dec s.link).olen + n
              rleCnt := 0#8
              rleMode := .tag
              rem := (s.dec s.link).rem - 1#16
              state := if (s.dec s.link).rem - 1#16 = 0#16 then .checksumLow else .payload }
          (.event .needMore)
      else s.returnFrom Decoder.idle (.event (.error .bufferOverflow)))

/-- R111: ChecksumLow writes bits 7:0 of the received checksum and sums nothing. -/
def Obligations.FeedInChecksumLow : Prop :=
  ∀ (s : State) (b : Byte), (s.dec s.link).state = .checksumLow →
    exec (.feed b) s = .next (s.returnFrom
      { s.dec s.link with rxcs := (s.dec s.link).rxcs.extractLsb' 8 8 ++ b, state := .checksumHigh }
      (.event .needMore))

/-- R112, R113, R114: ChecksumHigh emits the packet with its two flags and makes the decoder idle; a wrong checksum or an
unexpected length does not hold the packet back. The payload is read from the buffer, and a decoder that meets its
invariant has a command to emit and a payload of which every byte was written (R22, R31): no free value is read. -/
def Obligations.FeedInChecksumHigh : Prop :=
  (∀ (s : State) (b : Byte) (c : Command) (received : Half),
    (s.dec s.link).state = .checksumHigh → c.toByte = (s.dec s.link).cmd →
    received = b ++ (s.dec s.link).rxcs.extractLsb' 0 8 →
    exec (.feed b) s = .next (s.returnFrom Decoder.idle (.event (.packet
      { command := c
        compressed := (s.dec s.link).comp
        payload := (s.dec s.link).pb.readSeq 0 (s.dec s.link).olen
        checksumValid := decide (received = (s.dec s.link).acc)
        lengthWarning := decide ((c = .print ∧ (s.dec s.link).olen ≠ 4) ∨
          ((c = .init ∨ c = .break ∨ c = .inquiry) ∧ (s.dec s.link).olen ≠ 0)) })))) ∧
  (∀ d : Decoder, (d.pb.readSeq 0 d.olen).length = d.olen ∧
    ∀ i < d.olen, (d.pb.readSeq 0 d.olen)[i]? = some (d.pb.read i)) ∧
  (∀ d : Decoder, d.Inv → d.state = .checksumHigh →
    (∃ c : Command, c.toByte = d.cmd) ∧ ∀ i < d.olen, (i, d.pb.read i) ∈ d.pb)

/-! ### The wire codes at their places -/

/-- The sync, command and compression codes at the places that wait for them (R72, R73, R74, R102, R103, R104, R106;
notes/assumptions/2.md): SYNC0 and SYNC1 lead to Command and a second SYNC0 keeps the decoder in WaitSync1; each command
code is latched and summed; COMP_RAW clears the flag and adds nothing, COMP_RLE sets it and adds 1. -/
def Obligations.HeaderCodesAdvanceThePacket : Prop :=
  ∀ s : State,
    ((s.dec s.link).state = .waitSync0 →
      exec .sync0 s = .next (s.returnFrom { s.dec s.link with state := .waitSync1 } (.event .needMore))) ∧
    ((s.dec s.link).state = .waitSync1 →
      exec .sync0 s = .next (s.returnFrom { s.dec s.link with state := .waitSync1 } (.event .needMore)) ∧
      exec .sync1 s = .next (s.returnFrom { s.dec s.link with state := .command } (.event .needMore))) ∧
    ((s.dec s.link).state = .command →
      ∀ p ∈ [(Instr.cmdInit, 0x01#8), (.cmdPrint, 0x02#8), (.cmdData, 0x04#8), (.cmdBreak, 0x08#8),
          (.cmdInquiry, 0x0F#8)],
        exec p.1 s = .next (s.returnFrom
          { s.dec s.link with cmd := p.2, acc := (s.dec s.link).acc + p.2.setWidth 16, state := .compression }
          (.event .needMore))) ∧
    ((s.dec s.link).state = .compression →
      exec .compRaw s = .next (s.returnFrom
        { s.dec s.link with comp := false, state := .lenLow } (.event .needMore)) ∧
      exec .compRle s = .next (s.returnFrom
        { s.dec s.link with comp := true, acc := (s.dec s.link).acc + 1#16, state := .lenLow }
        (.event .needMore)))

/-- The tag codes open their runs when the budget holds them: `c + 1` literal bytes, or one value to be written `c + 2`
times (R77, R78, R141; notes/assumptions/2.md). -/
def Obligations.TagCodesOpenRuns : Prop :=
  ∀ (s : State) (c : Nat), c < 128 →
    (s.dec s.link).state = .payload → (s.dec s.link).comp = true → (s.dec s.link).rleMode = .tag →
    (c + 1 ≤ ((s.dec s.link).rem - 1#16).toNat →
      exec (.rleLit c) s = .next (s.returnFrom
        { s.dec s.link with
            acc := (s.dec s.link).acc + BitVec.ofNat 16 c, rleMode := .lit, rleCnt := BitVec.ofNat 8 (c + 1),
            rem := (s.dec s.link).rem - 1#16 }
        (.event .needMore))) ∧
    (1 ≤ ((s.dec s.link).rem - 1#16).toNat →
      exec (.rleRep c) s = .next (s.returnFrom
        { s.dec s.link with
            acc := (s.dec s.link).acc + BitVec.ofNat 16 (128 + c), rleMode := .rep,
            rleCnt := BitVec.ofNat 8 (c + 2), rem := (s.dec s.link).rem - 1#16 }
        (.event .needMore)))

/-- Every instruction, in every form, answers a next state whenever the selected link's decoder meets its invariant:
no operand, no byte and no place of a wire code stops the machine. -/
def Obligations.EveryInstructionCompletes : Prop :=
  ∀ (i : Instr) (s : State), (s.dec s.link).Inv → ∃ t, exec i s = .next t

/-! ### FEEDN, DRST and what FEED leaves alone -/

/-- R120, R93: FEEDN is the FEED requests of its bytes in order, with one event per byte; under the decoder's invariant
it completes, a sequence that is too long is refused before any byte is taken, and the empty one changes nothing. -/
def Obligations.FeednIsFeeds : Prop :=
  ∀ s : State,
    (s.operand.length ≤ Config.operandMax → ∀ u es, feeds s s.operand = .next (u, es) →
      exec .feedn s = .next (s.returnFrom (u.dec s.link) (.ok (.events es))) ∧ es.length = s.operand.length) ∧
    ((s.dec s.link).Inv → ∃ u es, feeds s s.operand = .next (u, es)) ∧
    (Config.operandMax < s.operand.length →
      exec .feedn s = .next (s.answer (.dec s.link) (.error .illegalRequest))) ∧
    (s.operand = [] → exec .feedn s = .next (s.returnFrom (s.dec s.link) (.ok (.events []))))

/-- R121: feeding a sequence in two parts gives the decoder state and the events of feeding it at once, and the same as
the FEED requests of its bytes. -/
def Obligations.FeednInTwoParts : Prop :=
  ∀ (s t u : State) (bs cs : List Byte) (es fs : List Event),
    (bs ++ cs).length ≤ Config.operandMax →
    exec .feedn { s with operand := bs } = .next t → t.replyOf (.dec s.link) = some (.ok (.events es)) →
    exec .feedn { t with operand := cs } = .next u → u.replyOf (.dec s.link) = some (.ok (.events fs)) →
    (∃ v, exec .feedn { s with operand := bs ++ cs } = .next v ∧ v.dec s.link = u.dec s.link ∧
      v.replyOf (.dec s.link) = some (.ok (.events (es ++ fs)))) ∧
    (∃ w, feeds s (bs ++ cs) = .next (w, es ++ fs) ∧ w.dec s.link = u.dec s.link)

/-- R119: every FEED returns exactly one Event. A Packet comes only on the byte that completes the checksum, and an
Error only on a byte that breaks the packet in Command, Compression or Payload. After either the decoder is idle. -/
def Obligations.OneEventPerByte : Prop :=
  ∀ (s t : State) (b : Byte), exec (.feed b) s = .next t →
    ∃ e, t.replyOf (.dec s.link) = some (.event e) ∧
      (∀ p, e = .packet p → (s.dec s.link).state = .checksumHigh ∧ t.dec s.link = Decoder.idle) ∧
      (∀ k, e = .error k →
        (s.dec s.link).state ∈ [.command, .compression, .payload] ∧ t.dec s.link = Decoder.idle)

/-- R122, R100: DRST loads the idle values and returns `Ok()`. `pb := []` is how the model writes unspecified content:
every index holds a free value (notes/assumptions/5.md). -/
def Obligations.DrstDiscardsThePacket : Prop :=
  ∀ s : State, exec .drst s = .next (s.returnFrom
    { state := .waitSync0, cmd := 0x00#8, comp := false, len := 0x0000#16, rem := 0x0000#16, acc := 0x0000#16,
      rxcs := 0x0000#16, rleMode := .tag, rleCnt := 0#8, olen := 0, pb := [] }
    (.ok .unit))

/-- R65, R261: a decoder request or a wire code that reaches a decoder changes that link alone; the other links,
`CSU.acc`, the other results, the ports and the host's list stay. What a wire code means as an instruction is the model's
reading (notes/assumptions/2.md), and that the operand ports keep their content its choice (notes/assumptions/17.md). -/
def Obligations.DecoderRequestsChangeOneLink : Prop :=
  ∀ (i : Instr) (s t : State), i.place ≠ .port .shared → i ≠ .deviceId → exec i s = .next t →
    (∀ j, j ≠ s.link → t.getLink j = s.getLink j) ∧ t.csuAcc = s.csuAcc ∧ t.results = s.results ∧
      t.link = s.link ∧ t.operand = s.operand ∧ t.status = s.status ∧ t.inputs = s.inputs

/-- R52, R53, R61: FEED writes the payload buffer only at the indices from `DEC.olen` on, one byte for a raw or literal
byte and `DEC.rle_cnt` bytes for a repeat value, and none otherwise. Every other index reads as before, unless the
decoder loads the idle values: then no index is specified any more. -/
def Obligations.FeedWritesOnlyTheEndOfTheBuffer : Prop :=
  ∀ (s t : State) (b : Byte) (n : Nat), exec (.feed b) s = .next t →
    n = (if (s.dec s.link).state ≠ .payload then 0
      else if (s.dec s.link).comp = false then 1
      else match (s.dec s.link).rleMode with
        | .tag => 0
        | .lit => 1
        | .rep => (s.dec s.link).rleCnt.toNat) →
    t.dec s.link = Decoder.idle ∨
      ((t.dec s.link).olen = (s.dec s.link).olen + n ∧
        (∀ a, a < (s.dec s.link).olen ∨ (s.dec s.link).olen + n ≤ a →
          (t.dec s.link).pb.read a = (s.dec s.link).pb.read a) ∧
        (∀ j < n, (t.dec s.link).pb.read ((s.dec s.link).olen + j) = b))

/-- R52: Append and AppendRep check the bound before any write, write at the end of the payload, and what they wrote is
read back; every other index reads as before. -/
def Obligations.AppendWritesAndIsReadBack : Prop :=
  ∀ (d : Decoder) (v : Byte), d.olen ≤ Config.outMax →
    (d.olen = Config.outMax → d.append v = none) ∧
    (d.olen ≠ Config.outMax → ∃ e, d.append v = some e ∧ e = { d with olen := d.olen + 1, pb := e.pb } ∧
      e.pb.read d.olen = v ∧ ∀ a, a ≠ d.olen → e.pb.read a = d.pb.read a) ∧
    (∀ n, 2 ≤ n → n ≤ 129 →
      (Config.outMax < d.olen + n → d.appendRep v n = none) ∧
      (d.olen + n ≤ Config.outMax → ∃ e, d.appendRep v n = some e ∧ e = { d with olen := d.olen + n, pb := e.pb } ∧
        (∀ j < n, e.pb.read (d.olen + j) = v) ∧
        ∀ a, a < d.olen ∨ d.olen + n ≤ a → e.pb.read a = d.pb.read a))

/-! ### The checksum unit -/

/-- R170: csum16 is the sum of the bytes as unsigned numbers, modulo 65536. -/
def Obligations.ChecksumIsTheSumModulo65536 : Prop :=
  ∀ bs : List Byte, (csum16 bs).toNat = (bs.map BitVec.toNat).sum % 65536

/-- R171, R172, R173, R174: CSCLR clears the accumulator; CSADD adds its byte modulo 65536 and returns the new value;
CSSUM returns csum16 of its operand, or refuses one that is too long, and CSCMP compares all 16 bits and returns 1 when
they are equal, both without touching the accumulator. -/
def Obligations.ChecksumUnitRequests : Prop :=
  ∀ (s : State) (b : Byte) (v w : Half),
    exec .csclr s = .next ({ s with csuAcc := 0x0000#16 }.answer .csu (.ok .unit)) ∧
    (v.toNat = (s.csuAcc.toNat + b.toNat) % 65536 →
      exec (.csadd b) s = .next ({ s with csuAcc := v }.answer .csu (.ok (.half v)))) ∧
    exec .cssum s = .next (s.answer .csu
      (if Config.operandMax < s.operand.length then .error .illegalRequest else .ok (.half (csum16 s.operand)))) ∧
    exec (.cscmp w) s = .next (s.answer .csu (.ok (.bit (if s.csuAcc = w then 1#1 else 0#1)))) ∧
    (∀ r, (s.answer .csu r).csuAcc = s.csuAcc ∧ ∀ j, (s.answer .csu r).dec j = s.dec j)

/-- R177: CSCLR and then CSADD of each byte leave csum16 of the sequence, and csum16 of two sequences is the sum of
theirs. -/
def Obligations.IncrementalSumIsBatchSum : Prop :=
  (∀ (s : State) (bs : List Byte), ∃ t,
    bs.foldl (fun (o : Host.Outcome State Fault Refusal) b => match o with
      | .next u => exec (.csadd b) u
      | .fault f => .fault f
      | .refused r => .refused r) (exec .csclr s) = .next t ∧ t.csuAcc = csum16 bs) ∧
  (∀ as bs : List Byte, csum16 (as ++ bs) = csum16 as + csum16 bs)

/-- R176: the sum does not see the order of the bytes, sees every change of exactly one byte, does not see two changes
that cancel, and does not see zero bytes. -/
def Obligations.WhatTheSumSees : Prop :=
  (∀ as bs : List Byte, as.Perm bs → csum16 as = csum16 bs) ∧
  (∀ (as bs : List Byte) (x y : Byte), x ≠ y → csum16 (as ++ x :: bs) ≠ csum16 (as ++ y :: bs)) ∧
  (∀ (as bs cs : List Byte) (x y : Byte), x ≠ 0xFF#8 → y ≠ 0x00#8 →
    csum16 (as ++ x :: bs ++ y :: cs) = csum16 (as ++ (x + 1#8) :: bs ++ (y - 1#8) :: cs)) ∧
  (∀ as bs : List Byte, csum16 (as ++ 0x00#8 :: bs) = csum16 (as ++ bs))

/-- R175: on entry to Command the decoder's accumulator is 0, and when a packet's header and payload have been taken it
is csum16 of exactly those bytes. -/
def Obligations.DecoderSumIsCsum16 : Prop :=
  (∀ d : Decoder, d.Inv → d.state = .command → d.acc = 0#16) ∧
  (∀ (s u : State) (c f lo hi : Byte) (w : List Byte) (es : List Event),
    (s.dec s.link).Inv → (s.dec s.link).state = .command → w.length = lo.toNat + 256 * hi.toNat →
    feeds s ([c, f, lo, hi] ++ w) = .next (u, es) → (u.dec s.link).state = .checksumLow →
    (∀ e ∈ es, e = .needMore) → (u.dec s.link).acc = csum16 ([c, f, lo, hi] ++ w))

/-- R65, R231: a request of the shared port, and the sending of the device ID, leave every decoder, every link's result
and the ports alone; `CSU.acc` is written only by CSCLR and CSADD, and only the unit's own result is replaced. That the
instruction DEVICE_ID is the whole trailer, with its result on RESP's port, is the model's choice
(notes/assumptions/2.md), and so is that the operand ports keep their content (notes/assumptions/17.md). -/
def Obligations.SharedRequestsFrame : Prop :=
  ∀ (i : Instr) (s t : State), i.place = .port .shared ∨ i = .deviceId → exec i s = .next t →
    t.links = s.links ∧ t.link = s.link ∧ t.operand = s.operand ∧ t.status = s.status ∧ t.inputs = s.inputs ∧
    ((i ≠ .csclr ∧ ∀ b, i ≠ .csadd b) → t.csuAcc = s.csuAcc) ∧
    (∀ u, u ≠ Instr.unit s.link i → t.replyOf u = s.replyOf u)

/-! ### The RLE codec -/

/-- R147, R148, R165: RLED returns the decompressed operand, or an error and no partial output. A stream decompresses
exactly when it is a sequence of runs, whoever wrote them, whose logical bytes fit in `OUT_MAX`, and it gives those bytes.
It is malformed exactly when, after runs that fit, a tag needs more bytes than are left (R141). Any other stream is too
long for `OUT_MAX`. -/
def Obligations.RledDecompresses : Prop :=
  (∀ s : State, exec .rled s = .next (s.answer .rle
    (if Config.operandMax < s.operand.length then .error .illegalRequest
      else match rleDecompress s.operand with
        | .ok out => .ok (.bytes out)
        | .error k => .error k))) ∧
  (∀ w out : List Byte, rleDecompress w = .ok out ↔
    ∃ rs, Runs.wf rs ∧ Runs.wire rs = w ∧ Runs.out rs = out ∧ out.length ≤ Config.outMax) ∧
  (∀ w : List Byte, rleDecompress w = .error .malformedRLEStream ↔
    ∃ (rs : List Run) (t : Byte) (rest : List Byte),
      Runs.wf rs ∧ w = Runs.wire rs ++ t :: rest ∧ (Runs.out rs).length ≤ Config.outMax ∧
      ((t.toNat < 128 ∧ rest.length < t.toNat + 1) ∨ (128 ≤ t.toNat ∧ rest = []))) ∧
  (∀ (w : List Byte) (k : ErrorKind), rleDecompress w = .error k → k = .malformedRLEStream ∨ k = .bufferOverflow) ∧
  rleDecompress [] = .ok []

/-- R149: the corner cases of decompression. -/
def Obligations.RledCornerCases : Prop :=
  ∀ (v a b : Byte) (bs : List Byte), bs.length = 128 →
    rleDecompress [0x00#8, v] = .ok [v] ∧ rleDecompress [0x80#8, v] = .ok [v, v] ∧
    rleDecompress [0xFF#8, v] = .ok (List.replicate 129 v) ∧ rleDecompress (0x7F#8 :: bs) = .ok bs ∧
    rleDecompress [0x7F#8] = .error .malformedRLEStream ∧ rleDecompress [0x80#8] = .error .malformedRLEStream ∧
    rleDecompress [0x01#8, v] = .error .malformedRLEStream ∧
    rleDecompress [0x02#8, a, b] = .error .malformedRLEStream

/-- R146: `w` wire bytes decompress to at most `floor(w / 2) * 129` bytes. -/
def Obligations.ExpansionBound : Prop :=
  ∀ w out : List Byte, rleDecompress w = .ok out → out.length ≤ w.length / 2 * 129

/-- R160, R161: RLEC returns the compressed operand; it refuses only one that is too long. The compressor is greedy: equal
bytes at the front, as many as there are but at most 129, become one repeat run; where there are no two, the bytes up to
the first pair of equal ones, to the end, or to the 128th become one literal run; and so on with what follows. -/
def Obligations.RlecCompresses : Prop :=
  (∀ s : State, exec .rlec s = .next (s.answer .rle
    (if Config.operandMax < s.operand.length then .error .illegalRequest
      else .ok (.bytes (rleCompress s.operand))))) ∧
  (∀ (v : Byte) (r : Nat) (q : List Byte), 2 ≤ r → r ≤ 129 → (r = 129 ∨ q[0]? ≠ some v) →
    rleCompress (List.replicate r v ++ q) = [BitVec.ofNat 8 (128 + (r - 2)), v] ++ rleCompress q) ∧
  (∀ bs q : List Byte, 1 ≤ bs.length → bs.length ≤ 128 →
    (∀ i < bs.length, (bs ++ q)[i]? ≠ (bs ++ q)[i + 1]?) →
    (bs.length = 128 ∨ q = [] ∨ q[0]? = q[1]?) →
    rleCompress (bs ++ q) = BitVec.ofNat 8 (bs.length - 1) :: bs ++ rleCompress q) ∧
  rleCompress [] = [] ∧ (∀ v, rleCompress [v] = [0x00#8, v])

/-- R162: the corner cases of the canonical compressor. -/
def Obligations.RlecCornerCases : Prop :=
  (∀ v : Byte, rleCompress (List.replicate 129 v) = [0xFF#8, v] ∧
    rleCompress (List.replicate 130 v) = [0xFF#8, v, 0x00#8, v] ∧
    rleCompress (List.replicate 131 v) = [0xFF#8, v, 0x80#8, v]) ∧
  (∀ p : List Byte, p.Nodup → p.length = 128 → rleCompress p = 0x7F#8 :: p) ∧
  (∀ (p : List Byte) (v : Byte), (p ++ [v]).Nodup → p.length = 128 →
    rleCompress (p ++ [v]) = 0x7F#8 :: (p ++ [0x00#8, v])) ∧
  rleCompress [1#8, 2#8, 2#8, 3#8] = [0x00#8, 1#8, 0x80#8, 2#8, 0x00#8, 3#8] ∧
  rleCompress [1#8, 2#8, 3#8, 3#8] = [0x01#8, 1#8, 2#8, 0x80#8, 3#8]

/-- R163: the output of the compressor is never malformed, and decompressing it gives the bytes back, as functions and as
the two requests. -/
def Obligations.RleRoundTrip : Prop :=
  (∀ p : List Byte, rleDecompress (rleCompress p) ≠ .error .malformedRLEStream) ∧
  (∀ p : List Byte, p.length ≤ Config.outMax → rleDecompress (rleCompress p) = .ok p) ∧
  (∀ (s t : State) (w : List Byte), s.operand.length ≤ Config.outMax → exec .rlec s = .next t →
    t.replyOf .rle = some (.ok (.bytes w)) → w.length ≤ Config.operandMax →
    exec .rled { t with operand := w } = .next ({ t with operand := w }.answer .rle (.ok (.bytes s.operand))))

/-- R164: the compressed form is the runs of the operand, and its length is that of the operand, plus one for each literal
run, minus what each repeat run has beyond two copies. So compression at most doubles the length; and the pattern 1, 2, 2
repeated `m` times becomes `4 m` bytes. -/
def Obligations.CompressedSize : Prop :=
  (∀ p : List Byte, ∃ rs : List Run, Runs.wf rs ∧ Runs.wire rs = rleCompress p ∧ Runs.out rs = p ∧
    (rleCompress p).length + (rs.map fun r => match r with
        | .lit _ => 0
        | .rep n _ => n - 2).sum =
      p.length + rs.countP fun r => match r with
        | .lit _ => true
        | .rep _ _ => false) ∧
  (∀ p : List Byte, (rleCompress p).length ≤ 2 * p.length) ∧
  (∀ m : Nat, rleCompress (List.replicate m [1#8, 2#8, 2#8]).flatten =
    (List.replicate m [0x00#8, 1#8, 0x80#8, 2#8]).flatten)

/-! ### The encoder and whole packets -/

/-- R201, R202, R203, R204: ENC checks the operand, the command and the wire length in this order, and builds the
packet: sync word, header, wire payload, checksum. -/
def Obligations.EncBuildsThePacket : Prop :=
  ∀ (s : State) (f : Bool) (c : Byte) (w hdr bytes : List Byte) (x cs : Half),
    w = (if f then rleCompress s.operand else s.operand) → x = BitVec.ofNat 16 w.length →
    hdr = [c, if f then 0x01#8 else 0x00#8, x.extractLsb' 0 8, x.extractLsb' 8 8] → cs = csum16 (hdr ++ w) →
    bytes = [0x88#8, 0x33#8] ++ hdr ++ w ++ [cs.extractLsb' 0 8, cs.extractLsb' 8 8] →
    exec (.enc f c) s = .next (s.answer .enc (
      if Config.operandMax < s.operand.length then .error .illegalRequest
      else if c ∉ [0x01#8, 0x02#8, 0x04#8, 0x08#8, 0x0F#8] then .error .unrecognizedCommand
      else if 65535 < w.length then .error .payloadTooLarge
      else .ok (.bytes bytes))) ∧
    bytes.length = 8 + w.length

/-- R71, R112, R113, R148: every packet decodes. From an idle decoder, a command, a flag, a wire payload that its length
describes (well-formed if it is compressed) and any two checksum bytes give NeedMore for each byte but the last, and
then the Packet with the logical payload, the verdict on the checksum, and the length warning. -/
def Obligations.EveryPacketDecodes : Prop :=
  ∀ (s : State) (c : Command) (f : Bool) (w p : List Byte) (k0 k1 : Byte) (x received : Half),
    s.dec s.link = Decoder.idle → x.toNat = w.length → received = k1 ++ k0 →
    (if f then rleDecompress w = .ok p else p = w) →
    ∃ u, feeds s ([0x88#8, 0x33#8, c.toByte, compByte f, x.extractLsb' 0 8, x.extractLsb' 8 8] ++ w ++ [k0, k1]) =
        .next (u, List.replicate (7 + w.length) Event.needMore ++ [Event.packet
          { command := c, compressed := f, payload := p
            checksumValid := decide (received =
              csum16 ([c.toByte, compByte f, x.extractLsb' 0 8, x.extractLsb' 8 8] ++ w))
            lengthWarning := lengthWarning c p.length }]) ∧
      u.dec s.link = Decoder.idle

/-- R205: the loopback law. What ENC returns, fed to a decoder in WaitSync0, gives exactly one Packet, valid and equal to
the inputs, and leaves the decoder in WaitSync0. -/
def Obligations.LoopbackLaw : Prop :=
  ∀ (s t : State) (f : Bool) (c : Byte) (cmd : Command) (bytes : List Byte),
    exec (.enc f c) s = .next t → t.replyOf .enc = some (.ok (.bytes bytes)) →
    s.operand.length ≤ Config.outMax → bytes.length ≤ Config.operandMax →
    (t.dec t.link).Inv → (t.dec t.link).state = .waitSync0 → Command.ofByte? c = some cmd →
    exec .feedn { t with operand := bytes } = .next ({ t with operand := bytes }.returnFrom Decoder.idle
      (.ok (.events (List.replicate (bytes.length - 1) Event.needMore ++ [Event.packet
        { command := cmd, compressed := f, payload := s.operand, checksumValid := true
          lengthWarning := lengthWarning cmd s.operand.length }]))))

/-- R265: from Command on the decoder takes exactly X + 6 bytes before it looks for a sync word again, unless an error
aborts the packet: the bytes inside are never read as a sync word. -/
def Obligations.NoResyncInsideAPacket : Prop :=
  ∀ (s : State) (c f lo hi k0 k1 : Byte) (w : List Byte) (es : List Event) (u : State),
    (s.dec s.link).Inv → (s.dec s.link).state = .command → w.length = lo.toNat + 256 * hi.toNat →
    feeds s ([c, f, lo, hi] ++ w ++ [k0, k1]) = .next (u, es) → (∀ k, Event.error k ∉ es) →
    ∃ p, es = List.replicate (w.length + 5) .needMore ++ [.packet p] ∧ u.dec s.link = Decoder.idle

/-- R117: after a packet, bytes that hold no 0x88 are noise: each gives NeedMore and none changes the decoder. -/
def Obligations.TrailingBytesAreNoise : Prop :=
  ∀ s : State, (s.dec s.link).state = .waitSync0 → 0x88#8 ∉ s.operand → s.operand.length ≤ Config.operandMax →
    exec .feedn s = .next (s.returnFrom (s.dec s.link)
      (.ok (.events (List.replicate s.operand.length .needMore))))

/-! ### The status codec and the trailer -/

/-- R190, R191, R192: STPACK and STUNPACK place and read each field at its own bit. -/
def Obligations.StatusFieldsAreBits : Prop :=
  ∀ (s : State) (b : Byte),
    (∃ v : Byte, exec .stpack s = .next (s.answer .stat (.ok (.byte v))) ∧
      v.getLsbD 7 = s.status.lowBattery ∧ v.getLsbD 6 = s.status.otherError ∧ v.getLsbD 5 = s.status.paperJam ∧
      v.getLsbD 4 = s.status.packetError ∧ v.getLsbD 3 = s.status.unprocessedData ∧
      v.getLsbD 2 = s.status.printBufferFull ∧ v.getLsbD 1 = s.status.printerBusy ∧
      v.getLsbD 0 = s.status.checksumError) ∧
    exec (.stunpack b) s = .next (s.answer .stat (.ok (.status
      { lowBattery := b.getLsbD 7, otherError := b.getLsbD 6, paperJam := b.getLsbD 5, packetError := b.getLsbD 4
        unprocessedData := b.getLsbD 3, printBufferFull := b.getLsbD 2, printerBusy := b.getLsbD 1
        checksumError := b.getLsbD 0 })))

/-- R193: the two conversions undo each other, for all records and all bytes. -/
def Obligations.StatusRoundTrip : Prop :=
  (∀ st : Status, Status.ofByte st.toByte = st) ∧ (∀ b : Byte, (Status.ofByte b).toByte = b)

/-- R215: TRAIL returns the device ID 0x81 and the status byte. -/
def Obligations.TrailReturnsIdAndStatus : Prop :=
  ∀ s : State, exec .trail s = .next (s.answer .resp (.ok (.bytes [0x81#8, s.status.toByte])))

/-! ### Results -/

/-- R85: a result word has its kind in bits 1:0, zero in bits 3:2 and the error code in bits 7:4, which is 0 unless the
kind is Error; the eight error kinds have the codes of R230. FEED returns an Event, and every other request Ok or Error.
On which unit's port a wire code or DEVICE_ID, which are no requests, leaves its result is the model's reading
(notes/assumptions/2.md). -/
def Obligations.ResultWordLayout : Prop :=
  (ErrorKind.unrecognizedCommand.code = 0x1#4 ∧ ErrorKind.unrecognizedCompressionFlag.code = 0x2#4 ∧
    ErrorKind.malformedRLEStream.code = 0x3#4 ∧ ErrorKind.checksumMismatch.code = 0x4#4 ∧
    ErrorKind.payloadTooLarge.code = 0x5#4 ∧ ErrorKind.truncatedStream.code = 0x6#4 ∧
    ErrorKind.bufferOverflow.code = 0x7#4 ∧ ErrorKind.illegalRequest.code = 0x8#4) ∧
  (∀ r : Reply,
    r.word.extractLsb' 2 2 = 0#2 ∧
    r.word.extractLsb' 0 2 = (match r with
      | .event .needMore => 0#2
      | .event (.packet _) => 1#2
      | .event (.error _) => 2#2
      | .error _ => 2#2
      | .ok _ => 3#2) ∧
    r.word.extractLsb' 4 4 = (match r with
      | .event (.error k) => k.code
      | .error k => k.code
      | .event .needMore => 0#4
      | .event (.packet _) => 0#4
      | .ok _ => 0#4)) ∧
  (∀ (i : Instr) (s t : State), exec i s = .next t →
    ∃ r, t.replyOf (Instr.unit s.link i) = some r ∧
      ((∃ b, i = .feed b) → ∃ e, r = .event e) ∧
      ((∃ p, i.place = .port p) → (∀ b, i ≠ .feed b) → (∃ v, r = .ok v) ∨ ∃ k, r = .error k))

/-- R236, R238: ChecksumMismatch and TruncatedStream are never reported: a step keeps every result port free of them. -/
def Obligations.NoMismatchOrTruncationErrors : Prop :=
  ∀ s t : State, s.Inv → s.RepliesLegal → step s = .next t → t.RepliesLegal

/-! ### Invariants and safety -/

/-- The machine right after reset meets the invariant. -/
def Obligations.ResetMeetsTheInvariant : Prop := State.reset.Inv

/-- R22, R26, R29 to R33: every step keeps the invariant of the decoders, of their buffers and of the list of links. -/
def Obligations.StepKeepsTheInvariant : Prop :=
  ∀ s t : State, s.Inv → step s = .next t → t.Inv

/-- R33: the decoder invariants hold after every request. -/
def Obligations.DecoderInvariantsAfterEveryRequest : Prop :=
  ∀ s t : State, s.Inv → step s = .next t → ∀ i, i < Config.nLinks →
    ((t.dec i).state = .payload → 1 ≤ (t.dec i).rem.toNat ∧ (t.dec i).rem.toNat ≤ (t.dec i).len.toNat) ∧
    ((t.dec i).state ∈ [.checksumLow, .checksumHigh] → (t.dec i).rem = 0#16 ∧ (t.dec i).rleMode = .tag) ∧
    ((t.dec i).rleMode = .lit → (t.dec i).rleCnt.toNat ≤ (t.dec i).rem.toNat) ∧
    ((t.dec i).rleMode = .rep → 1 ≤ (t.dec i).rem.toNat) ∧
    ((t.dec i).rleMode ≠ .tag → (t.dec i).state = .payload ∧ (t.dec i).comp = true) ∧
    ((t.dec i).comp = false → (t.dec i).state = .payload →
      (t.dec i).olen = (t.dec i).len.toNat - (t.dec i).rem.toNat)

/-- R61, R250: from every state that meets the invariant a step goes on; and so, whatever requests the host issues on
ports that exist, no step of a run from reset stops. -/
def Obligations.RunsFromResetNeverStop : Prop :=
  (∀ s : State, s.Inv → ∃ t, step s = .next t) ∧
  ∀ (xs : List HostInput) (n : Nat), (∀ x ∈ xs, x.present = true) →
    ∃ t, core.run n { State.reset with inputs := xs } = .next t

/-- R7, R30, R146: whatever bytes a decoder is fed, its logical payload never grows beyond 4226943 bytes, and so with
`OUT_MAX >= 4226943` it never raises BufferOverflow. -/
def Obligations.LogicalPayloadIsBounded : Prop :=
  ∀ (s u : State) (bs : List Byte) (es : List Event), s.dec s.link = Decoder.idle → feeds s bs = .next (u, es) →
    (u.dec s.link).olen ≤ 4226943 ∧ (4226943 ≤ Config.outMax → Event.error .bufferOverflow ∉ es)

/-! ### Independence -/

/-- R65: what a request does to its own unit depends only on that unit's state and on what the request itself reads. A
decoder's link afterwards depends on its decoder before, and for FEEDN on the byte sequence. `CSU.acc` is read by CSADD
and CSCMP only, the byte sequence by CSSUM, RLED, RLEC and ENC only, and the Status record by STPACK and TRAIL only. What
a wire code and DEVICE_ID mean as instructions is the model's reading (notes/assumptions/2.md). -/
def Obligations.RequestsDependOnTheirUnitOnly : Prop :=
  (∀ (i : Instr) (s t s' : State), i.place ≠ .port .shared → i ≠ .deviceId →
    s.dec s.link = s'.dec s'.link → (i = .feedn → s.operand = s'.operand) → exec i s = .next t →
    ∃ t', exec i s' = .next t' ∧ t'.getLink s'.link = t.getLink s.link) ∧
  (∀ (i : Instr) (s s' : State), i.place = .port .shared ∨ i = .deviceId →
    (((∃ b, i = .csadd b) ∨ ∃ v, i = .cscmp v) → s.csuAcc = s'.csuAcc) →
    ((i = .cssum ∨ i = .rled ∨ i = .rlec ∨ ∃ f c, i = .enc f c) → s.operand = s'.operand) →
    ((i = .stpack ∨ i = .trail ∨ i = .deviceId) → s.status = s'.status) →
    ∃ t t', exec i s = .next t ∧ exec i s' = .next t' ∧
      t.replyOf (Instr.unit s.link i) = t'.replyOf (Instr.unit s'.link i) ∧
      ((i = .csclr ∨ s.csuAcc = s'.csuAcc) → t.csuAcc = t'.csuAcc))

/-- R65: two requests on different ports may be issued in either order: the links, `CSU.acc` and the results are the
same after both. -/
def Obligations.RequestsOnDifferentPortsCommute : Prop :=
  ∀ (s t1 t2 : State) (r q : Request) (rest : List HostInput), r.port ≠ q.port →
    step { s with inputs := .request r :: .request q :: rest } = .next t1 → step t1 = .next t2 →
    ∃ u1 u2, step { s with inputs := .request q :: .request r :: rest } = .next u1 ∧ step u1 = .next u2 ∧
      (∀ j, u2.getLink j = t2.getLink j) ∧ u2.csuAcc = t2.csuAcc ∧ u2.results = t2.results
end

