-- ==== Sys2Proof/Laws/Checksum.lean ====
section
/-! SUPPORT. The sum of a byte sequence: from any starting value, and one byte at a time. -/

namespace Sys2Proof.Machine

@[simp] theorem csum16_nil : csum16 [] = 0#16 := rfl

/-- Summing from a value on adds the sum to it. -/
theorem sumBytes_eq : ∀ (bs : List Byte) (a : Half), sumBytes a bs = a + csum16 bs
  | [], a => by simp [sumBytes]
  | b :: bs, a => by
    unfold csum16 sumBytes
    rw [sumBytes_eq bs, sumBytes_eq bs (0#16 + _)]
    simp [BitVec.add_assoc]

theorem csum16_cons (b : Byte) (bs : List Byte) : csum16 (b :: bs) = b.setWidth 16 + csum16 bs := by
  unfold csum16
  rw [sumBytes, sumBytes_eq]
  simp [csum16]

end Sys2Proof.Machine
end

