-- ==== Sys2Proof/Laws/State.lean ====
section
/-! SUPPORT. One lemma per field per update of State and of Decoder, and what the link accessors read after a write. -/

namespace Sys2Proof.Machine

/-! ### Association lists -/

theorem findKey_putKey_same {α : Type} (k : Nat) (v : α) : ∀ l, findKey k (putKey k v l) = some v
  | [] => by simp [putKey, findKey]
  | (a, w) :: t => by
    unfold putKey
    split_ifs with h1 h2
    · simp [findKey]
    · simp [findKey]
    · simp [findKey, Ne.symm h2, findKey_putKey_same k v t]

theorem findKey_putKey_ne {α : Type} {j k : Nat} (v : α) (h : j ≠ k) : ∀ l, findKey j (putKey k v l) = findKey j l
  | [] => by simp [putKey, findKey, h.symm]
  | (a, w) :: t => by
    unfold putKey
    split_ifs with h1 h2
    · simp [findKey, h.symm]
    · subst h2; simp [findKey, h.symm]
    · simp [findKey, findKey_putKey_ne v h t]

theorem findKey_dropKey_same {α : Type} (k : Nat) : ∀ l : List (Nat × α), findKey k (dropKey k l) = none
  | [] => rfl
  | (a, w) :: t => by
    unfold dropKey
    split_ifs with h
    · exact findKey_dropKey_same k t
    · simp [findKey, h, findKey_dropKey_same k t]

theorem findKey_dropKey_ne {α : Type} {j k : Nat} (h : j ≠ k) : ∀ l : List (Nat × α), findKey j (dropKey k l) = findKey j l
  | [] => rfl
  | (a, w) :: t => by
    unfold dropKey
    split_ifs with h1
    · subst h1; simp [findKey, h.symm, findKey_dropKey_ne h t]
    · simp [findKey, findKey_dropKey_ne h t]

theorem risingAbove_mono {α : Type} {j k : Nat} (h : j ≤ k) :
    ∀ {l : List (Nat × α)}, risingAbove k l = true → risingAbove j l = true
  | [], _ => rfl
  | (a, _) :: t, hr => by
    simp only [risingAbove, Bool.and_eq_true, decide_eq_true_eq] at hr ⊢
    exact ⟨by omega, hr.2⟩

theorem rising_of_risingAbove {α : Type} {k : Nat} :
    ∀ {l : List (Nat × α)}, risingAbove k l = true → rising l = true
  | [], _ => rfl
  | (a, _) :: t, hr => by
    simp only [risingAbove, Bool.and_eq_true] at hr
    exact hr.2

theorem risingAbove_putKey {α : Type} {j k : Nat} (v : α) (h : j < k) :
    ∀ {l : List (Nat × α)}, risingAbove j l = true → risingAbove j (putKey k v l) = true
  | [], _ => by simp [putKey, risingAbove, h]
  | (a, w) :: t, hr => by
    simp only [risingAbove, Bool.and_eq_true, decide_eq_true_eq] at hr
    unfold putKey
    split_ifs with h1 h2
    · simp [risingAbove, h, h1, hr.2]
    · subst h2; simp [risingAbove, h, hr.2]
    · simp [risingAbove, hr.1, risingAbove_putKey v (show a < k by omega) hr.2]

theorem rising_putKey {α : Type} (k : Nat) (v : α) :
    ∀ {l : List (Nat × α)}, rising l = true → rising (putKey k v l) = true
  | [], _ => rfl
  | (a, w) :: t, hr => by
    unfold putKey
    split_ifs with h1 h2
    · simpa [rising, risingAbove, h1] using hr
    · subst h2; exact hr
    · exact risingAbove_putKey v (show a < k by omega) hr

theorem risingAbove_dropKey {α : Type} (k : Nat) :
    ∀ {l : List (Nat × α)} {j : Nat}, risingAbove j l = true → risingAbove j (dropKey k l) = true
  | [], _, _ => rfl
  | (a, w) :: t, j, hr => by
    simp only [risingAbove, Bool.and_eq_true, decide_eq_true_eq] at hr
    unfold dropKey
    split_ifs with h1
    · exact risingAbove_mono (Nat.le_of_lt hr.1) (risingAbove_dropKey k hr.2)
    · simp [risingAbove, hr.1, risingAbove_dropKey k hr.2]

theorem rising_dropKey {α : Type} (k : Nat) :
    ∀ {l : List (Nat × α)}, rising l = true → rising (dropKey k l) = true
  | [], _ => rfl
  | (a, w) :: t, hr => by
    unfold dropKey
    split_ifs with h1
    · exact rising_of_risingAbove (risingAbove_dropKey k (show risingAbove a t = true from hr))
    · exact risingAbove_dropKey k (show risingAbove a t = true from hr)

/-- Every entry after a write is the written one or an earlier one. -/
theorem mem_putKey {α : Type} {k : Nat} {v : α} {p : Nat × α} :
    ∀ {l : List (Nat × α)}, p ∈ putKey k v l → p = (k, v) ∨ p ∈ l
  | [], h => by simpa [putKey] using h
  | (a, w) :: t, h => by
    unfold putKey at h
    split_ifs at h with h1 h2
    · simpa using h
    · rcases List.mem_cons.mp h with h | h
      · exact .inl h
      · exact .inr (List.mem_cons_of_mem _ h)
    · rcases List.mem_cons.mp h with h | h
      · exact .inr (by simp [h])
      · rcases mem_putKey h with h | h
        · exact .inl h
        · exact .inr (List.mem_cons_of_mem _ h)

/-- Every entry after a removal is an earlier one. -/
theorem mem_dropKey {α : Type} {k : Nat} {p : Nat × α} :
    ∀ {l : List (Nat × α)}, p ∈ dropKey k l → p ∈ l
  | [], h => by simp [dropKey] at h
  | (a, w) :: t, h => by
    unfold dropKey at h
    split_ifs at h with h1
    · exact List.mem_cons_of_mem _ (mem_dropKey h)
    · rcases List.mem_cons.mp h with h | h
      · exact h ▸ List.mem_cons_self
      · exact List.mem_cons_of_mem _ (mem_dropKey h)

/-- What a lookup finds is an entry. -/
theorem mem_of_findKey {α : Type} {k : Nat} {v : α} :
    ∀ {l : List (Nat × α)}, findKey k l = some v → (k, v) ∈ l
  | [], h => by simp [findKey] at h
  | (a, w) :: t, h => by
    unfold findKey at h
    split_ifs at h with h1
    · subst h1; simp at h; simp [h]
    · exact List.mem_cons_of_mem _ (mem_of_findKey h)

/-! ### Fields under the updates of State -/

section
variable (s : State) (i : Nat) (l : Link) (d : Decoder) (r : Reply) (v : Half) (u : UnitName)
  (xs : List HostInput) (q : Request)

@[simp] theorem setLink_csuAcc : (s.setLink i l).csuAcc = s.csuAcc := rfl
@[simp] theorem setLink_results : (s.setLink i l).results = s.results := rfl
@[simp] theorem setLink_link : (s.setLink i l).link = s.link := rfl
@[simp] theorem setLink_operand : (s.setLink i l).operand = s.operand := rfl
@[simp] theorem setLink_status : (s.setLink i l).status = s.status := rfl
@[simp] theorem setLink_inputs : (s.setLink i l).inputs = s.inputs := rfl

@[simp] theorem returnFrom_csuAcc : (s.returnFrom d r).csuAcc = s.csuAcc := rfl
@[simp] theorem returnFrom_results : (s.returnFrom d r).results = s.results := rfl
@[simp] theorem returnFrom_link : (s.returnFrom d r).link = s.link := rfl
@[simp] theorem returnFrom_operand : (s.returnFrom d r).operand = s.operand := rfl
@[simp] theorem returnFrom_status : (s.returnFrom d r).status = s.status := rfl
@[simp] theorem returnFrom_inputs : (s.returnFrom d r).inputs = s.inputs := rfl

@[simp] theorem setCsuAcc_links : (s.setCsuAcc v).links = s.links := rfl
@[simp] theorem setCsuAcc_csuAcc : (s.setCsuAcc v).csuAcc = v := rfl
@[simp] theorem setCsuAcc_results : (s.setCsuAcc v).results = s.results := rfl
@[simp] theorem setCsuAcc_link : (s.setCsuAcc v).link = s.link := rfl
@[simp] theorem setCsuAcc_operand : (s.setCsuAcc v).operand = s.operand := rfl
@[simp] theorem setCsuAcc_status : (s.setCsuAcc v).status = s.status := rfl
@[simp] theorem setCsuAcc_inputs : (s.setCsuAcc v).inputs = s.inputs := rfl

@[simp] theorem answer_csuAcc : (s.answer u r).csuAcc = s.csuAcc := by cases u <;> rfl
@[simp] theorem answer_link : (s.answer u r).link = s.link := by cases u <;> rfl
@[simp] theorem answer_operand : (s.answer u r).operand = s.operand := by cases u <;> rfl
@[simp] theorem answer_status : (s.answer u r).status = s.status := by cases u <;> rfl
@[simp] theorem answer_inputs : (s.answer u r).inputs = s.inputs := by cases u <;> rfl

@[simp] theorem withInputs_links : (s.withInputs xs).links = s.links := rfl
@[simp] theorem withInputs_csuAcc : (s.withInputs xs).csuAcc = s.csuAcc := rfl
@[simp] theorem withInputs_results : (s.withInputs xs).results = s.results := rfl
@[simp] theorem withInputs_link : (s.withInputs xs).link = s.link := rfl
@[simp] theorem withInputs_operand : (s.withInputs xs).operand = s.operand := rfl
@[simp] theorem withInputs_status : (s.withInputs xs).status = s.status := rfl
@[simp] theorem withInputs_inputs : (s.withInputs xs).inputs = xs := rfl

@[simp] theorem attach_links : (s.attach q).links = s.links := rfl
@[simp] theorem attach_csuAcc : (s.attach q).csuAcc = s.csuAcc := rfl
@[simp] theorem attach_results : (s.attach q).results = s.results := rfl
@[simp] theorem attach_link : (s.attach q).link = q.port.link.getD s.link := rfl
@[simp] theorem attach_operand : (s.attach q).operand = q.operand := rfl
@[simp] theorem attach_status : (s.attach q).status = q.status := rfl
@[simp] theorem attach_inputs : (s.attach q).inputs = s.inputs := rfl

@[simp] theorem assertReset_links : s.assertReset.links = idleLinks s.links := rfl
@[simp] theorem assertReset_csuAcc : s.assertReset.csuAcc = 0x0000 := rfl
@[simp] theorem assertReset_results : s.assertReset.results = s.results := rfl
@[simp] theorem assertReset_link : s.assertReset.link = s.link := rfl
@[simp] theorem assertReset_operand : s.assertReset.operand = s.operand := rfl
@[simp] theorem assertReset_status : s.assertReset.status = s.status := rfl
@[simp] theorem assertReset_inputs : s.assertReset.inputs = s.inputs := rfl

/-! ### Links -/

@[simp] theorem getLink_setLink_same : (s.setLink i l).getLink i = l := by
  unfold State.setLink State.getLink
  split_ifs with h
  · simp [findKey_dropKey_same, h]
  · simp [findKey_putKey_same]

theorem getLink_setLink_ne {j : Nat} (h : j ≠ i) : (s.setLink i l).getLink j = s.getLink j := by
  unfold State.setLink State.getLink
  split_ifs
  · simp [findKey_dropKey_ne h]
  · simp [findKey_putKey_ne _ h]

@[simp] theorem dec_returnFrom_same : (s.returnFrom d r).dec s.link = d := by
  simp [State.dec, State.returnFrom]

theorem getLink_returnFrom_ne {j : Nat} (h : j ≠ s.link) : (s.returnFrom d r).getLink j = s.getLink j :=
  getLink_setLink_ne s s.link _ h

@[simp] theorem replyOf_returnFrom_same : (s.returnFrom d r).replyOf (.dec s.link) = some r := by
  simp [State.replyOf, State.returnFrom]

theorem replyOf_answer_same : (s.answer u r).replyOf u = some r := by
  cases u <;> simp [State.answer, State.replyOf]

theorem replyOf_answer_ne {w : UnitName} (h : w ≠ u) : (s.answer u r).replyOf w = s.replyOf w := by
  cases u <;> cases w <;> first
    | rfl
    | exact absurd rfl h
    | (rename_i i j
       simp only [State.answer, State.replyOf]
       rw [getLink_setLink_ne]
       intro hij
       exact h (by rw [hij]))

/-- A reply changes no decoder. -/
@[simp] theorem dec_answer (j : Nat) : (s.answer u r).dec j = s.dec j := by
  cases u with
  | dec i =>
    by_cases h : j = i
    · subst h; simp [State.answer, State.dec]
    · simp [State.answer, State.dec, getLink_setLink_ne s i _ h]
  | csu | rle | enc | stat | resp | port => rfl

@[simp] theorem dec_reset : State.reset.dec i = Decoder.idle := rfl

theorem findKey_idleLinks : ∀ ls : List (Nat × Link),
    ((findKey i (idleLinks ls)).getD Link.fresh).dec = Decoder.idle
  | [] => rfl
  | (j, m) :: t => by
    unfold idleLinks
    split_ifs with h
    · exact findKey_idleLinks t
    · by_cases hij : j = i
      · simp [findKey, hij, Decoder.loadIdle]
      · simpa [findKey, hij] using findKey_idleLinks t

/-- The reset input makes every decoder idle. -/
@[simp] theorem dec_assertReset : s.assertReset.dec i = Decoder.idle := findKey_idleLinks i s.links

/-- The list of links stays canonical under a write. -/
theorem rising_setLink (h : rising s.links = true) : rising (s.setLink i l).links = true := by
  unfold State.setLink
  split_ifs
  · exact rising_dropKey i h
  · exact rising_putKey i l h

/-- Every listed link after a write is the written one, and not a fresh one, or an earlier one. -/
theorem mem_setLink {p : Nat × Link} (h : p ∈ (s.setLink i l).links) :
    (p = (i, l) ∧ l ≠ Link.fresh) ∨ p ∈ s.links := by
  unfold State.setLink at h
  split_ifs at h with hf
  · exact .inr (mem_dropKey h)
  · rcases mem_putKey h with h | h
    · exact .inl ⟨h, hf⟩
    · exact .inr h

end

/-! ### Fields of a decoder under the shared operations -/

section
variable (d : Decoder) (b : Byte)

@[simp] theorem loadIdle_eq : d.loadIdle = Decoder.idle := rfl
@[simp] theorem raise_eq (k : ErrorKind) : d.raise k = (Decoder.idle, .error k) := rfl
@[simp] theorem sum_acc : (d.sum b).acc = d.acc + b.setWidth 16 := rfl
@[simp] theorem sum_state : (d.sum b).state = d.state := rfl
@[simp] theorem sum_cmd : (d.sum b).cmd = d.cmd := rfl
@[simp] theorem sum_comp : (d.sum b).comp = d.comp := rfl
@[simp] theorem sum_len : (d.sum b).len = d.len := rfl
@[simp] theorem sum_rem : (d.sum b).rem = d.rem := rfl
@[simp] theorem sum_rxcs : (d.sum b).rxcs = d.rxcs := rfl
@[simp] theorem sum_rleMode : (d.sum b).rleMode = d.rleMode := rfl
@[simp] theorem sum_rleCnt : (d.sum b).rleCnt = d.rleCnt := rfl
@[simp] theorem sum_olen : (d.sum b).olen = d.olen := rfl
@[simp] theorem sum_pb : (d.sum b).pb = d.pb := rfl

theorem outMax_ge : 65535 ≤ Config.outMax := by unfold Config.outMax; omega
theorem operandMax_ge : 65535 ≤ Config.operandMax := by unfold Config.operandMax; omega
theorem nLinks_pos : 0 < Config.nLinks := by unfold Config.nLinks; omega

theorem overflows_eq (olen n : Nat) : overflows olen n = decide (Config.outMax < olen + n) := by
  have := outMax_ge
  unfold overflows
  by_cases h : Config.outMax < olen + n
  · simp [h, show 65535 < olen + n by omega]
  · simp [h]

theorem operandTooLong_eq (bs : List Byte) : operandTooLong bs = decide (Config.operandMax < bs.length) := by
  have := operandMax_ge
  unfold operandTooLong
  by_cases h : Config.operandMax < bs.length
  · simp [h, show 65535 < bs.length by omega]
  · simp [h]

/-- All that an append can do: it writes the bytes at the end of the payload, within the capacity, and touches no
other register. -/
theorem appendSeq_eq_some {vs : List Byte} {d' : Decoder} (h : d.appendSeq vs = some d') :
    d.olen + vs.length ≤ Config.outMax ∧
      d' = { d with pb := d.pb.writeSeq d.olen vs, olen := d.olen + vs.length } := by
  unfold Decoder.appendSeq at h
  rw [overflows_eq] at h
  split_ifs at h with ho
  · exact ⟨by simpa using ho, by simpa using h.symm⟩

/-- An append that fits is done. -/
theorem appendSeq_of_le {vs : List Byte} (h : d.olen + vs.length ≤ Config.outMax) :
    d.appendSeq vs = some { d with pb := d.pb.writeSeq d.olen vs, olen := d.olen + vs.length } := by
  unfold Decoder.appendSeq
  simp [overflows_eq, Nat.not_lt.mpr h]

/-- An append that does not fit writes nothing. -/
theorem appendSeq_of_gt {vs : List Byte} (h : Config.outMax < d.olen + vs.length) : d.appendSeq vs = none := by
  unfold Decoder.appendSeq
  simp [overflows_eq, h]

end

end Sys2Proof.Machine
end

