-- ==== Sys2Proof/Laws/Memory.lean ====
section
/-! SUPPORT. The payload buffer: reading after writing, and that every operation keeps the canonical form. -/

namespace Sys2Proof.Machine

/-- A listed entry is what its index reads as. -/
theorem read_of_findKey {m : Memory} {a : Nat} {v : Byte} (h : findKey a m = some v) : m.read a = v := by
  simp [Memory.read, h]

@[simp] theorem read_write_same (m : Memory) (a : Nat) (v : Byte) : (m.write a v).read a = v :=
  read_of_findKey (findKey_putKey_same a v m)

theorem read_write_ne (m : Memory) {a b : Nat} (v : Byte) (h : b ≠ a) : (m.write a v).read b = m.read b := by
  simp [Memory.read, Memory.write, findKey_putKey_ne v h]

/-- A write keeps the canonical form. -/
theorem write_wf {m : Memory} (a : Nat) (v : Byte) (h : m.wf = true) : (m.write a v).wf = true :=
  rising_putKey a v h

/-- A sequence of writes keeps the canonical form. -/
theorem writeSeq_wf : ∀ (vs : List Byte) {m : Memory} (a : Nat), m.wf = true → (m.writeSeq a vs).wf = true
  | [], _, _, h => h
  | v :: vs, _, a, h => writeSeq_wf vs (a + 1) (write_wf a v h)

/-- A sequence of writes leaves every index outside it alone. -/
theorem read_writeSeq_outside : ∀ (vs : List Byte) (m : Memory) (a b : Nat), b < a ∨ a + vs.length ≤ b →
    (m.writeSeq a vs).read b = m.read b
  | [], _, _, _, _ => rfl
  | v :: vs, m, a, b, h => by
    simp only [List.length_cons] at h
    rw [Memory.writeSeq, read_writeSeq_outside vs (m.write a v) (a + 1) b (by omega),
      read_write_ne m v (by omega)]

/-- A sequence of writes is read back. -/
theorem read_writeSeq_inside : ∀ (vs : List Byte) (m : Memory) (a i : Nat) (h : i < vs.length),
    (m.writeSeq a vs).read (a + i) = vs[i]
  | [], _, _, _, h => absurd h (by simp)
  | v :: vs, m, a, i, h => by
    cases i with
    | zero =>
      have := read_writeSeq_outside vs (m.write a v) (a + 1) a (.inl (Nat.lt_add_one a))
      show ((m.write a v).writeSeq (a + 1) vs).read a = v
      rw [this, read_write_same]
    | succ i =>
      have := read_writeSeq_inside vs (m.write a v) (a + 1) i (by simpa using h)
      rw [Memory.writeSeq, show a + (i + 1) = a + 1 + i by omega, this]
      rfl

@[simp] theorem readSeq_length : ∀ (n : Nat) (m : Memory) (a : Nat), (m.readSeq a n).length = n
  | 0, _, _ => rfl
  | n + 1, m, a => by rw [Memory.readSeq, List.length_cons, readSeq_length n m (a + 1)]

/-- A sequence of reads, spelt out byte by byte. -/
theorem readSeq_getElem : ∀ (n : Nat) (m : Memory) (a i : Nat) (h : i < (m.readSeq a n).length),
    (m.readSeq a n)[i] = m.read (a + i)
  | 0, _, _, _, h => absurd h (by simp [Memory.readSeq])
  | n + 1, m, a, 0, _ => rfl
  | n + 1, m, a, i + 1, h => by
    have := readSeq_getElem n m (a + 1) i (by simpa using h)
    simp only [Memory.readSeq, List.getElem_cons_succ, this]
    congr 1
    omega

/-- The bytes written at the end of a sequence are read after it. -/
theorem readSeq_writeSeq (m : Memory) (n : Nat) (vs : List Byte) :
    (m.writeSeq n vs).readSeq 0 (n + vs.length) = m.readSeq 0 n ++ vs := by
  refine List.ext_getElem (by simp) (fun i h1 h2 => ?_)
  rw [readSeq_getElem, Nat.zero_add]
  by_cases hi : i < n
  · rw [read_writeSeq_outside vs m n i (.inl hi), List.getElem_append_left (by simpa using hi), readSeq_getElem,
      Nat.zero_add]
  · have hj : i - n < vs.length := by
      simp at h1
      omega
    have := read_writeSeq_inside vs m n (i - n) hj
    rw [show n + (i - n) = i by omega] at this
    rw [this, List.getElem_append_right (by simp; omega)]
    simp

/-- The indices of a buffer written from 0 to `n - 1` stay gapless when the next byte is written. -/
theorem map_fst_putKey_end : ∀ (m : Memory) (n k : Nat) (v : Byte), m.map Prod.fst = List.range' k n →
    (putKey (k + n) v m).map Prod.fst = List.range' k (n + 1)
  | [], n, k, v, h => by
    cases n with
    | zero => rfl
    | succ n => simp [List.range'_succ] at h
  | (a, w) :: t, n, k, v, h => by
    cases n with
    | zero => simp at h
    | succ n =>
      simp only [List.map_cons, List.range'_succ, List.cons.injEq] at h
      obtain ⟨rfl, h⟩ := h
      unfold putKey
      rw [if_neg (by omega), if_neg (by omega)]
      have := map_fst_putKey_end t n (a + 1) v h
      rw [show a + 1 + n = a + (n + 1) by omega] at this
      simp [this, List.range'_succ]

theorem map_fst_write (m : Memory) (n : Nat) (v : Byte) (h : m.map Prod.fst = List.range n) :
    (m.write n v).map Prod.fst = List.range (n + 1) := by
  rw [List.range_eq_range'] at *
  have := map_fst_putKey_end m n 0 v h
  rwa [Nat.zero_add] at this

/-- The same for a sequence of writes. -/
theorem map_fst_writeSeq : ∀ (vs : List Byte) (m : Memory) (n : Nat), m.map Prod.fst = List.range n →
    (m.writeSeq n vs).map Prod.fst = List.range (n + vs.length)
  | [], _, _, h => h
  | v :: vs, m, n, h => by
    rw [Memory.writeSeq, map_fst_writeSeq vs _ _ (map_fst_write m n v h), List.length_cons]
    congr 1
    omega

/-- What a listed index reads as is its entry. -/
theorem read_mem {a : Nat} : ∀ {m : Memory}, a ∈ m.map Prod.fst → (a, m.read a) ∈ m
  | [], h => by simp at h
  | (k, v) :: t, h => by
    by_cases hk : k = a
    · subst hk
      simp [Memory.read, findKey]
    · simp only [List.map_cons, List.mem_cons] at h
      have := read_mem (m := t) (h.resolve_left (Ne.symm hk))
      refine List.mem_cons_of_mem _ ?_
      simpa [Memory.read, findKey, hk] using this

/-- The idle memory is canonical. -/
theorem idle_pb_wf : Decoder.idle.pb.wf = true := rfl

/-- Every payload buffer of the machine right after reset is canonical. -/
theorem reset_pb_wf (i : Nat) : (State.reset.dec i).pb.wf = true := rfl

/-- An append keeps the canonical form. -/
theorem appendSeq_pb_wf {d d' : Decoder} {vs : List Byte} (h : d.appendSeq vs = some d') (hw : d.pb.wf = true) :
    d'.pb.wf = true := by
  obtain ⟨-, rfl⟩ := appendSeq_eq_some d h
  exact writeSeq_wf vs d.olen hw

end Sys2Proof.Machine
end

