-- ==== Sys2Proof/Laws/Encoding.lean ====
section
/-! SUPPORT. Small facts about the encodings: the wire recognisers take back what they encode, and the field extractions
of a request word read what the encoder puts there. -/

namespace Sys2Proof

@[simp] theorem command_ofByte_toByte (c : Command) : Command.ofByte? c.toByte = some c := by
  cases c <;> rfl

/-- The byte of a recognised command. -/
theorem toByte_of_ofByte {b : Byte} {c : Command} (h : Command.ofByte? b = some c) : c.toByte = b := by
  unfold Command.ofByte? at h
  split_ifs at h with h1 h2 h3 h4 h5 <;> (cases h; simp_all [Command.toByte])

@[simp] theorem comp_ofByte_compByte (f : Bool) : compOfByte? (compByte f) = some f := by
  cases f <;> rfl

/-- The byte of a recognised compression flag. -/
theorem compByte_of_ofByte {b : Byte} {f : Bool} (h : compOfByte? b = some f) : compByte f = b := by
  unfold compOfByte? at h
  split_ifs at h with h1 h2 <;> (cases h; simp_all [compByte])

theorem tag_ofByte_lit : ∀ c : Fin 128, Tag.ofByte (Tag.lit c).toByte = Tag.lit c := by decide

theorem tag_ofByte_rep : ∀ c : Fin 128, Tag.ofByte (Tag.rep c).toByte = Tag.rep c := by decide

/-- A well-formed tag is read back from its byte. -/
theorem tag_ofByte_toByte {t : Tag} (h : t.wf = true) : Tag.ofByte t.toByte = t := by
  cases t with
  | lit c => exact tag_ofByte_lit ⟨c, by simpa [Tag.wf] using h⟩
  | rep c => exact tag_ofByte_rep ⟨c, by simpa [Tag.wf] using h⟩

/-- The tag a byte selects is well-formed. -/
theorem tag_ofByte_wf (b : Byte) : (Tag.ofByte b).wf = true := by
  have h : (b &&& 0x7F#8).toNat < 128 := by
    rw [BitVec.toNat_and]
    exact Nat.and_lt_two_pow _ (n := 7) (by decide)
  unfold Tag.ofByte
  split_ifs <;> simpa [Tag.wf] using h

/-- A byte is read back from the tag it selects. -/
theorem tag_toByte_ofByte (b : Byte) : (Tag.ofByte b).toByte = b := by
  unfold Tag.ofByte
  split_ifs with h
  · have hx : ∀ x : Fin 256, (BitVec.ofFin x : Byte) &&& 0x80#8 = 0x80#8 →
        (Tag.rep ((BitVec.ofFin x : Byte) &&& 0x7F#8).toNat).toByte = BitVec.ofFin x := by decide +kernel
    exact hx b.toFin h
  · have hx : ∀ x : Fin 256, (BitVec.ofFin x : Byte) &&& 0x80#8 ≠ 0x80#8 →
        (Tag.lit ((BitVec.ofFin x : Byte) &&& 0x7F#8).toNat).toByte = BitVec.ofFin x := by decide +kernel
    exact hx b.toFin h

/-! ### The request table -/

/-- Every mask covers the op field (R94). -/
theorem mask_covers_op : ∀ r ∈ requestRows, r.mask >>> 28 = 0xF#32 := by decide

/-- The op fields of the rows differ (R94). -/
theorem ops_nodup : (requestRows.map (fun r : RequestRow => r.pattern >>> 28)).Nodup := by decide

/-- A row that takes a word has the word's op. -/
theorem op_of_takes {r : RequestRow} {w : Word} (hr : r ∈ requestRows) (h : r.takes w = true) :
    w >>> 28 = r.pattern >>> 28 := by
  have hw : w >>> 28 &&& 0xF#32 = w >>> 28 := by
    apply BitVec.eq_of_toNat_eq
    have : (w >>> 28).toNat < 2 ^ 4 := by
      rw [BitVec.toNat_ushiftRight, Nat.shiftRight_eq_div_pow]
      have := w.isLt
      omega
    rw [BitVec.toNat_and]
    exact (Nat.and_two_pow_sub_one_eq_mod _ 4).trans (Nat.mod_eq_of_lt this)
  have ht : w &&& r.mask = r.pattern := by simpa [RequestRow.takes] using h
  rw [← ht, BitVec.ushiftRight_and_distrib, mask_covers_op r hr, hw]

/-- Two rows that take one word are the same row (R94). -/
theorem row_unique {r q : RequestRow} {w : Word} (hr : r ∈ requestRows) (hq : q ∈ requestRows)
    (h : r.takes w = true) (k : q.takes w = true) : r = q :=
  List.inj_on_of_nodup_map ops_nodup hr hq ((op_of_takes hr h).symm.trans (op_of_takes hq k))

/-- The row that takes a word decodes it, on the port of its unit. -/
theorem decodeRequest_of_row {r : RequestRow} {w : Word} (hr : r ∈ requestRows) (h : r.takes w = true) :
    decodeRequest r.port w = .ok (r.build w) := by
  unfold decodeRequest
  have hs : (requestRows.find? (fun q => q.takes w && q.port == r.port)).isSome := by
    rw [List.find?_isSome]
    exact ⟨r, hr, by simp [h]⟩
  obtain ⟨q, hq⟩ := Option.isSome_iff_exists.mp hs
  have hp := List.find?_some hq
  simp only [Bool.and_eq_true, beq_iff_eq] at hp
  rw [hq, row_unique (List.mem_of_find?_eq_some hq) hr hp.1 h]

/-- What a decoded request word came from. -/
theorem row_of_decodeRequest {k : PortKind} {w : Word} {i : Instr} (h : decodeRequest k w = .ok i) :
    ∃ r ∈ requestRows, r.takes w = true ∧ r.port = k ∧ i = r.build w := by
  unfold decodeRequest at h
  split at h
  · next r hr =>
    have hp := List.find?_some hr
    simp only [Bool.and_eq_true, beq_iff_eq] at hp
    exact ⟨r, List.mem_of_find?_eq_some hr, hp.1, hp.2, by cases h; rfl⟩
  · cases h

/-- A word is refused on a port exactly when no row of the port takes it. -/
theorem decodeRequest_error {k : PortKind} {w : Word} {e : Rejected} (h : decodeRequest k w = .error e) :
    e = .illegalRequest ∧ ∀ r ∈ requestRows, r.takes w = true → r.port ≠ k := by
  unfold decodeRequest at h
  split at h
  · cases h
  · next hn =>
    refine ⟨by cases h; rfl, fun r hr ht hk => ?_⟩
    have := List.find?_eq_none.mp hn r hr
    simp [ht, hk] at this

/-! ### Operand fields -/

@[simp] theorem immByte_or_setWidth (p : Word) (b : Byte) (h : immByte p = 0#8) :
    immByte (p ||| b.setWidth 32) = b := by
  unfold immByte at *
  rw [BitVec.setWidth_or, h]
  ext i hi
  simp

@[simp] theorem immHalf_or_setWidth (p : Word) (v : Half) (h : immHalf p = 0#16) :
    immHalf (p ||| v.setWidth 32) = v := by
  unfold immHalf at *
  rw [BitVec.setWidth_or, h]
  ext i hi
  simp

/-- A byte operand lies outside the bits that a byte row's mask covers. -/
theorem byte_and_mask (b : Byte) : b.setWidth 32 &&& 0xFFFFFF00#32 = 0#32 := by
  have : ∀ x : Fin 256, (BitVec.ofFin x : Byte).setWidth 32 &&& 0xFFFFFF00#32 = 0#32 := by decide +kernel
  exact this b.toFin

/-- A 16-bit operand lies outside the bits that CSCMP's mask covers. -/
theorem half_and_mask (v : Half) : v.setWidth 32 &&& 0xFFFF0000#32 = 0#32 := by
  have hm : ∀ i : Fin 16, (0xFFFF0000#32).getLsbD i = false := by decide
  apply BitVec.eq_of_getLsbD_eq
  intro i hi
  by_cases h : i < 16
  · simpa using fun _ _ => hm ⟨i, h⟩
  · have : v.getLsbD i = false := BitVec.getLsbD_of_ge v i (by omega)
    simp [this]

/-- A pattern with its operand or-ed in still has the pattern's bits under the mask. -/
theorem pattern_or_operand {p x m : Word} (hp : p &&& m = p) (hx : x &&& m = 0#32) : (p ||| x) &&& m = p := by
  rw [BitVec.and_or_distrib_right, hp, hx, BitVec.or_zero]

end Sys2Proof
end

