-- ==== Sys2Proof/Laws/Operands.lean ====
section
/-! SUPPORT. The operand forms: what writing one byte of a 16-bit register leaves, counting a register down, and the two
outcomes of a request that takes the byte sequence on the operand-stream port. -/

namespace Sys2Proof.Machine

/-! ### The two bytes of a 16-bit register -/

/-- Writing bits 7:0 keeps bits 15:8. -/
theorem setLow_eq (v : Half) (b : Byte) : setLow v b = v.extractLsb' 8 8 ++ b := by
  have hm : ∀ i : Fin 16, (0xFF00#16).getLsbD i = decide (8 ≤ i.val) := by decide
  apply BitVec.eq_of_getLsbD_eq
  intro i hi
  have := hm ⟨i, hi⟩
  simp only at this
  rw [BitVec.getLsbD_append]
  simp only [setLow, BitVec.getLsbD_or, BitVec.getLsbD_and, this, BitVec.getLsbD_setWidth,
    BitVec.getLsbD_extractLsb', hi, decide_true, Bool.true_and]
  by_cases h : i < 8
  · simp [h]
  · have h' : 8 + (i - 8) = i := by omega
    simp [h, h', show i - 8 < 8 by omega, show 8 ≤ i by omega]

/-- Writing bits 15:8 keeps bits 7:0. -/
theorem setHigh_eq (v : Half) (b : Byte) : setHigh v b = b ++ v.extractLsb' 0 8 := by
  have hm : ∀ i : Fin 16, (0x00FF#16).getLsbD i = decide (i.val < 8) := by decide
  apply BitVec.eq_of_getLsbD_eq
  intro i hi
  have := hm ⟨i, hi⟩
  simp only at this
  rw [BitVec.getLsbD_append]
  simp only [setHigh, BitVec.getLsbD_or, BitVec.getLsbD_and, this, BitVec.getLsbD_shiftLeft,
    BitVec.getLsbD_setWidth, BitVec.getLsbD_extractLsb', hi, decide_true, Bool.true_and]
  by_cases h : i < 8
  · simp [h]
  · simp [h, show i - 8 < 16 by omega]

theorem low_append (a b : Byte) : (a ++ b).extractLsb' 0 8 = b := by
  apply BitVec.eq_of_getLsbD_eq
  intro i hi
  rw [BitVec.getLsbD_extractLsb', Nat.zero_add, BitVec.getLsbD_append]
  simp [hi]

/-- Both bytes written, low byte first: the register holds the pair whatever it held before. -/
theorem setHigh_setLow (v : Half) (a b : Byte) : setHigh (setLow v a) b = b ++ a := by
  rw [setHigh_eq, setLow_eq, low_append]

theorem lowByte_eq (x : Half) : lowByte x = x.extractLsb' 0 8 := by
  apply BitVec.eq_of_getLsbD_eq
  intro i hi
  simp [lowByte]

theorem highByte_eq (x : Half) : highByte x = x.extractLsb' 8 8 := by
  apply BitVec.eq_of_getLsbD_eq
  intro i hi
  simp [highByte]

/-- The two bytes of a value are the value. -/
theorem highByte_append_lowByte (x : Half) : highByte x ++ lowByte x = x := by
  apply BitVec.eq_of_getLsbD_eq
  intro i hi
  rw [BitVec.getLsbD_append]
  by_cases h : i < 8
  · rw [if_pos h]
    simp [lowByte, h]
  · have h' : 8 + (i - 8) = i := by omega
    rw [if_neg h]
    simp only [highByte, BitVec.getLsbD_setWidth, BitVec.getLsbD_ushiftRight, h']
    simp; omega

/-- A pair of bytes as a number. -/
theorem toNat_append_byte (a b : Byte) : (a ++ b).toNat = 256 * a.toNat + b.toNat := by
  rw [BitVec.toNat_append, ← Nat.shiftLeft_add_eq_or_of_lt b.isLt, Nat.shiftLeft_eq]
  omega

/-! ### Counting down -/

theorem half_sub_one {r : Half} (h : 1 ≤ r.toNat) : (r - 1#16).toNat = r.toNat - 1 := by
  rw [BitVec.toNat_sub]
  have := r.isLt
  simp; omega

theorem byte_sub_one {r : Byte} (h : 1 ≤ r.toNat) : (r - 1#8).toNat = r.toNat - 1 := by
  rw [BitVec.toNat_sub]
  have := r.isLt
  simp; omega

theorem half_eq_zero {r : Half} : r = 0#16 ↔ r.toNat = 0 :=
  ⟨fun h => by rw [h]; rfl, fun h => BitVec.eq_of_toNat_eq h⟩

theorem byte_eq_zero {r : Byte} : r = 0#8 ↔ r.toNat = 0 :=
  ⟨fun h => by rw [h]; rfl, fun h => BitVec.eq_of_toNat_eq h⟩

/-! ### Requests with a byte sequence -/

/-- An operand that fits is handed to the unit. -/
theorem operandReply_of_le {bs : List Byte} {f : List Byte → Except ErrorKind Value}
    (h : bs.length ≤ Config.operandMax) : operandReply bs f = .ofResult (f bs) := by
  unfold operandReply
  rw [operandTooLong_eq, decide_eq_false (by omega)]
  rfl

/-- An operand that is too long is refused, whatever the unit would do. -/
theorem operandReply_of_gt {bs : List Byte} {f : List Byte → Except ErrorKind Value}
    (h : Config.operandMax < bs.length) : operandReply bs f = .error .illegalRequest := by
  unfold operandReply
  rw [operandTooLong_eq, decide_eq_true h]
  rfl

/-- All that such a request can return: a value or an error, never an Event. -/
theorem operandReply_cases (bs : List Byte) (f : List Byte → Except ErrorKind Value) :
    (operandReply bs f = .error .illegalRequest ∧ Config.operandMax < bs.length) ∨
      (∃ v, operandReply bs f = .ok v ∧ f bs = .ok v) ∨ ∃ k, operandReply bs f = .error k ∧ f bs = .error k := by
  by_cases h : Config.operandMax < bs.length
  · exact .inl ⟨operandReply_of_gt h, h⟩
  · rw [operandReply_of_le (by omega)]
    cases f bs with
    | ok v => exact .inr (.inl ⟨v, rfl, rfl⟩)
    | error k => exact .inr (.inr ⟨k, rfl, rfl⟩)

end Sys2Proof.Machine
end

