-- ==== Sys2Proof/Laws/Rle.lean ====
section
/-! SUPPORT. The RLE codec: which tag a byte is, the runs of the decompressor one by one, and what the two loops of the
compressor count. -/

namespace Sys2Proof.Machine

/-- A byte below 128 is a literal tag. -/
theorem tag_of_lt {b : Byte} (h : b.toNat < 128) : Tag.ofByte b = .lit (b.toNat % 128) := by
  have hx : ∀ x : Fin 256, x.val < 128 → Tag.ofByte (BitVec.ofFin x) = .lit (x.val % 128) := by decide +kernel
  exact hx b.toFin h

/-- A byte from 128 on is a repeat tag. -/
theorem tag_of_ge {b : Byte} (h : 128 ≤ b.toNat) : Tag.ofByte b = .rep (b.toNat % 128) := by
  have hx : ∀ x : Fin 256, 128 ≤ x.val → Tag.ofByte (BitVec.ofFin x) = .rep (x.val % 128) := by decide +kernel
  exact hx b.toFin h

/-- All that a step of the line decoder can do when it succeeds: open a run, write a literal byte, or write a repeat. -/
theorem rleStep_ok {mode mode' : RleMode} {cnt cnt' : Byte} {after : Nat} {b : Byte} {out : RleOut}
    (h : rleStep mode cnt after b = .ok (mode', cnt', out)) :
    (mode = .tag ∧ out = .nothing ∧
      ((∃ c, Tag.ofByte b = .lit c ∧ c + 1 ≤ after ∧ mode' = .lit ∧ cnt' = BitVec.ofNat 8 (c + 1)) ∨
        ∃ c, Tag.ofByte b = .rep c ∧ 1 ≤ after ∧ mode' = .rep ∧ cnt' = BitVec.ofNat 8 (c + 2))) ∨
    (mode = .lit ∧ out = .one b ∧ cnt' = cnt - 1#8 ∧ mode' = if cnt - 1#8 = 0#8 then .tag else .lit) ∨
    (mode = .rep ∧ out = .copies b cnt.toNat ∧ cnt' = 0#8 ∧ mode' = .tag) := by
  cases mode with
  | tag =>
    simp only [rleStep] at h
    split at h
    · next c hc =>
      split_ifs at h with ha
      cases h
      exact .inl ⟨rfl, rfl, .inl ⟨c, hc, by omega, rfl, rfl⟩⟩
    · next c hc =>
      split_ifs at h with ha
      cases h
      exact .inl ⟨rfl, rfl, .inr ⟨c, hc, by omega, rfl, rfl⟩⟩
  | lit => cases h; exact .inr (.inl ⟨rfl, rfl, rfl, rfl⟩)
  | rep => cases h; exact .inr (.inr ⟨rfl, rfl, rfl, rfl⟩)

/-- The line decoder raises no error but MalformedRLEStream. -/
theorem rleStep_error {mode : RleMode} {cnt : Byte} {after : Nat} {b : Byte} {k : ErrorKind}
    (h : rleStep mode cnt after b = .error k) : mode = .tag ∧ k = .malformedRLEStream := by
  cases mode with
  | tag =>
    simp only [rleStep] at h
    split at h <;> split_ifs at h <;> cases h <;> exact ⟨rfl, rfl⟩
  | lit => cases h
  | rep => cases h

/-! ### The decompressor -/

theorem outputSeq_of_le {out vs : List Byte} (h : out.length + vs.length ≤ Config.outMax) :
    outputSeq out vs = some (out ++ vs) := by
  unfold outputSeq
  rw [overflows_eq, decide_eq_false (by omega)]
  rfl

theorem outputSeq_of_gt {out vs : List Byte} (h : Config.outMax < out.length + vs.length) :
    outputSeq out vs = none := by
  unfold outputSeq
  rw [overflows_eq, decide_eq_true h]
  rfl

/-- A literal tag that the budget holds opens its run. -/
theorem rleRun_tag_lit {b : Byte} {c : Nat} {w out : List Byte} {cnt : Byte} {rem : Nat}
    (hb : Tag.ofByte b = .lit c) (hr : c + 1 ≤ rem - 1) :
    rleRun (b :: w) .tag cnt rem out = rleRun w .lit (BitVec.ofNat 8 (c + 1)) (rem - 1) out := by
  simp [rleRun, rleStep, hb, outputEmit, Nat.not_lt.mpr hr]

/-- A repeat tag that the budget holds opens its run. -/
theorem rleRun_tag_rep {b : Byte} {c : Nat} {w out : List Byte} {cnt : Byte} {rem : Nat}
    (hb : Tag.ofByte b = .rep c) (hr : 1 ≤ rem - 1) :
    rleRun (b :: w) .tag cnt rem out = rleRun w .rep (BitVec.ofNat 8 (c + 2)) (rem - 1) out := by
  have h : ¬ (rem - 1 < 1) := by omega
  simp only [rleRun, rleStep, hb, outputEmit, h, if_false]

/-- The bytes of a literal run are copied, and the run ends with the last of them. -/
theorem rleRun_lit : ∀ (vs w out : List Byte) (rem : Nat), 1 ≤ vs.length → vs.length ≤ 128 →
    out.length + vs.length ≤ Config.outMax →
    rleRun (vs ++ w) .lit (BitVec.ofNat 8 vs.length) rem out = rleRun w .tag 0#8 (rem - vs.length) (out ++ vs)
  | [], _, _, _, h, _, _ => absurd h (by simp)
  | [v], w, out, rem, _, _, ho => by
    simp only [List.length_singleton] at *
    rw [List.singleton_append, rleRun]
    simp [rleStep, outputEmit, outputSeq_of_le (vs := [v]) (by simpa using ho)]
  | v :: v' :: vs, w, out, rem, _, h, ho => by
    have ih := rleRun_lit (v' :: vs) w (out ++ [v]) (rem - 1) (by simp) (by simp at h ⊢; omega)
      (by simp at ho ⊢; omega)
    rw [List.cons_append, rleRun]
    have e1 : BitVec.ofNat 8 (v :: v' :: vs).length - 1#8 = BitVec.ofNat 8 (v' :: vs).length := by
      apply BitVec.eq_of_toNat_eq
      simp at h ⊢
      omega
    have e2 : ¬ BitVec.ofNat 8 (v' :: vs).length = 0#8 := by
      intro h0
      have := congrArg BitVec.toNat h0
      simp at h this
      omega
    simp only [rleStep, outputEmit, outputSeq_of_le (vs := [v]) (out := out) (by simp at ho ⊢; omega), e1, e2,
      if_false]
    rw [ih]
    simp [Nat.sub_sub, Nat.add_comm]

/-- The value of a repeat run is written as often as the run says. -/
theorem rleRun_rep {v : Byte} {n : Nat} {w out : List Byte} {rem : Nat} (hn : n < 256)
    (ho : out.length + n ≤ Config.outMax) :
    rleRun (v :: w) .rep (BitVec.ofNat 8 n) rem out =
      rleRun w .tag 0#8 (rem - 1) (out ++ List.replicate n v) := by
  simp [rleRun, rleStep, outputEmit, Nat.mod_eq_of_lt hn,
    outputSeq_of_le (vs := List.replicate n v) (out := out) (by simpa using ho)]

/-! ### The compressor's two counts -/

/-- The first `equalBytes v cap l` bytes are copies of `v`, and there are at most `cap`. -/
theorem equalBytes_spec (v : Byte) : ∀ (cap : Nat) (l : List Byte),
    equalBytes v cap l ≤ cap ∧ equalBytes v cap l ≤ l.length ∧
      l = List.replicate (equalBytes v cap l) v ++ l.drop (equalBytes v cap l)
  | 0, l => by cases l <;> simp [equalBytes]
  | cap + 1, [] => by simp [equalBytes]
  | cap + 1, x :: xs => by
    unfold equalBytes
    split_ifs with h
    · subst h
      obtain ⟨h1, h2, h3⟩ := equalBytes_spec x cap xs
      refine ⟨by omega, by simp; omega, ?_⟩
      rw [List.replicate_succ, List.cons_append, List.drop_succ_cons, ← h3]
    · simp

/-- A literal run takes at most `cap` bytes, and no more than there are. -/
theorem literalBytes_spec : ∀ (cap : Nat) (l : List Byte), literalBytes cap l ≤ cap ∧ literalBytes cap l ≤ l.length
  | 0, _ => by simp [literalBytes]
  | _ + 1, [] => by simp [literalBytes]
  | _ + 1, [_] => by simp [literalBytes]
  | cap + 1, x :: y :: xs => by
    unfold literalBytes
    have := literalBytes_spec cap (y :: xs)
    split_ifs
    · simp
    · simp at *
      omega

/-- Where no pair begins, a literal run takes at least one byte. -/
theorem literalBytes_pos {x : Byte} {xs : List Byte} (h : equalBytes x 128 xs = 0) :
    1 ≤ literalBytes 128 (x :: xs) := by
  cases xs with
  | nil => simp [literalBytes]
  | cons y ys =>
    unfold equalBytes at h
    split_ifs at h with hy
    unfold literalBytes
    rw [if_neg (Ne.symm hy)]
    omega

end Sys2Proof.Machine
end

