-- ==== Sys2Proof/Laws/Decoder.lean ====
section
/-! SUPPORT. What one byte can do to a decoder, what a sequence of bytes does, and what the requests that feed a decoder
answer with. -/

namespace Sys2Proof.Machine

/-! ### One byte -/

/-- The five command bytes are those that the recogniser takes. -/
theorem mem_commands (b : Byte) :
    b ∈ [0x01#8, 0x02#8, 0x04#8, 0x08#8, 0x0F#8] ↔ (Command.ofByte? b).isSome := by
  simp only [List.mem_cons, List.not_mem_nil, or_false]
  unfold Command.ofByte?
  split_ifs <;> simp_all

/-- The decoder after a payload byte has been taken that appended `vs` and left the run state `mode`, `cnt`. -/
abbrev Decoder.afterPayload (d : Decoder) (b : Byte) (vs : List Byte) (mode : RleMode) (cnt : Byte) : Decoder :=
  Decoder.countDown { d.sum b with
    pb := d.pb.writeSeq d.olen vs, olen := d.olen + vs.length, rleMode := mode, rleCnt := cnt }

/-- All that a payload byte can do: abort the packet with BufferOverflow or MalformedRLEStream, or be summed and
counted, append bytes within the capacity, and move the run state as the line decoder says. -/
theorem feed_payload {d d' : Decoder} {b : Byte} {e : Event} (hs : d.state = .payload)
    (h : d.feed b = .ok (d', e)) :
    (d' = Decoder.idle ∧ (e = .error .bufferOverflow ∨ e = .error .malformedRLEStream)) ∨
      ∃ vs mode cnt, e = .needMore ∧ d' = d.afterPayload b vs mode cnt ∧
        (vs = [] ∨ d.olen + vs.length ≤ Config.outMax) ∧
        ((d.comp = false ∧ vs = [b] ∧ mode = d.rleMode ∧ cnt = d.rleCnt) ∨
          (d.comp = true ∧ ∃ out, rleStep d.rleMode d.rleCnt (d.rem - 1#16).toNat b = .ok (mode, cnt, out) ∧
            vs = (match out with
              | .nothing => []
              | .one v => [v]
              | .copies v n => List.replicate n v))) := by
  unfold Decoder.feed at h
  simp only [hs] at h
  cases hc : d.comp with
  | false =>
    simp only [hc, Decoder.takeRaw, Bool.false_eq_true, if_false] at h
    split at h
    · cases h
      exact .inl ⟨rfl, .inl rfl⟩
    · next hy =>
      cases h
      obtain ⟨ho, rfl⟩ := appendSeq_eq_some _ hy
      exact .inr ⟨[b], d.rleMode, d.rleCnt, rfl, rfl, .inr ho, .inl ⟨rfl, rfl, rfl, rfl⟩⟩
  | true =>
    simp only [hc, Decoder.takeCompressed, if_true] at h
    split at h
    · next k hk =>
      cases h
      unfold Decoder.rleStep at hk
      split at hk
      · next hs =>
        cases hk
        exact .inl ⟨rfl, .inr (by rw [(rleStep_error hs).2])⟩
      · split at hk
        · cases hk
          exact .inl ⟨rfl, .inl rfl⟩
        · cases hk
    · next y hy =>
      cases h
      unfold Decoder.rleStep at hy
      split at hy
      · cases hy
      · next mode cnt out hstep =>
        split at hy
        · cases hy
        · next d1 hd1 =>
          cases hy
          refine .inr ⟨_, mode, cnt, rfl, ?_, ?_, .inr ⟨rfl, out, hstep, rfl⟩⟩
          · cases out with
            | nothing => cases hd1; rfl
            | one v => obtain ⟨-, rfl⟩ := appendSeq_eq_some _ hd1; rfl
            | copies v n => obtain ⟨-, rfl⟩ := appendSeq_eq_some _ hd1; rfl
          · cases out with
            | nothing => exact .inl rfl
            | one v => obtain ⟨ho, -⟩ := appendSeq_eq_some _ hd1; exact .inr ho
            | copies v n => obtain ⟨ho, -⟩ := appendSeq_eq_some _ hd1; exact .inr ho

/-- An uncompressed payload byte within the capacity. -/
theorem feed_raw {d : Decoder} {b : Byte} (hs : d.state = .payload) (hc : d.comp = false)
    (ho : d.olen + 1 ≤ Config.outMax) : d.feed b = .ok (d.afterPayload b [b] d.rleMode d.rleCnt, .needMore) := by
  simp only [Decoder.feed, hs, hc, Bool.false_eq_true, if_false, Decoder.takeRaw, Decoder.append]
  rw [appendSeq_of_le _ (by simpa using ho)]
  rfl

/-- A compressed payload byte that the line decoder takes, within the capacity. -/
theorem feed_compressed {d : Decoder} {b : Byte} {mode : RleMode} {cnt : Byte} {out : RleOut} {d1 : Decoder}
    (hs : d.state = .payload) (hc : d.comp = true)
    (hr : rleStep d.rleMode d.rleCnt (d.rem - 1#16).toNat b = .ok (mode, cnt, out)) (he : (d.sum b).emit out = some d1) :
    d.feed b = .ok (Decoder.countDown { d1 with rleMode := mode, rleCnt := cnt }, .needMore) := by
  simp only [Decoder.feed, hs, hc, if_true, Decoder.takeCompressed, Decoder.rleStep, sum_rleMode, sum_rleCnt, sum_rem,
    hr, he]

/-- All that a byte in ChecksumHigh can do when it does not stop: emit the packet and load the idle values. -/
theorem feed_checksumHigh {d d' : Decoder} {b : Byte} {e : Event} (hs : d.state = .checksumHigh)
    (h : d.feed b = .ok (d', e)) :
    d' = Decoder.idle ∧ ∃ c, Command.ofByte? d.cmd = some c ∧
      e = .packet
        { command := c, compressed := d.comp, payload := d.pb.readSeq 0 d.olen
          checksumValid := checksumValid (setHigh d.rxcs b) d.acc, lengthWarning := lengthWarning c d.olen } := by
  simp only [Decoder.feed, hs, Decoder.takeChecksumHigh] at h
  split at h
  · cases h
  · next c hc =>
    cases h
    exact ⟨rfl, c, hc, rfl⟩

/-- Only the emission of a packet can stop a FEED, and only when the command latch holds no command. -/
theorem feed_error {d : Decoder} {b : Byte} {f : Fault} (h : d.feed b = .error f) :
    d.state = .checksumHigh ∧ Command.ofByte? d.cmd = none ∧ f = .illegalCommandLatch := by
  unfold Decoder.feed at h
  cases hs : d.state
  case checksumHigh =>
    simp only [hs, Decoder.takeChecksumHigh] at h
    split at h
    · next hc =>
      cases h
      exact ⟨rfl, hc, rfl⟩
    · cases h
  all_goals (simp only [hs] at h; cases h)

/-- The idle decoder meets the invariant. -/
theorem idle_inv : Decoder.idle.Inv :=
  ⟨fun _ => rfl, fun h => by simp [Decoder.idle, DecState.upToCommand] at h, fun _ => rfl,
    ⟨fun h => (nomatch h), fun h => (nomatch h)⟩,
    ⟨fun _ => rfl, fun h => (nomatch h), fun h => (nomatch h), fun h => absurd rfl h⟩, rfl, Nat.zero_le _,
    fun _ h => (nomatch h)⟩

/-- In a decoder that meets the invariant every index below `DEC.olen` reads as a byte that has been written. -/
theorem read_written {d : Decoder} (h : d.bufferSound) {a : Nat} (ha : a < d.olen) : (a, d.pb.read a) ∈ d.pb :=
  read_mem (by rw [h.1]; simpa using ha)

/-! ### A sequence of bytes -/

theorem feedAll_cons {d d' : Decoder} {b : Byte} {bs : List Byte} {es : List Event}
    (h : d.feedAll (b :: bs) = .ok (d', es)) :
    ∃ d1 e es', d.feed b = .ok (d1, e) ∧ d1.feedAll bs = .ok (d', es') ∧ es = e :: es' := by
  unfold Decoder.feedAll at h
  split at h
  · cases h
  · next d1 e h1 =>
    split at h
    · cases h
    · next es' h2 =>
      cases h
      exact ⟨d1, e, es', h1, h2, rfl⟩

theorem feedAll_append : ∀ (bs cs : List Byte) (d : Decoder), d.feedAll (bs ++ cs) =
    (match d.feedAll bs with
      | .error f => .error f
      | .ok (d', es) =>
        match d'.feedAll cs with
        | .error f => .error f
        | .ok (d'', fs) => .ok (d'', es ++ fs))
  | [], cs, d => by
    simp only [List.nil_append, Decoder.feedAll]
    cases d.feedAll cs <;> rfl
  | b :: bs, cs, d => by
    simp only [List.cons_append, Decoder.feedAll]
    cases d.feed b with
    | error f => rfl
    | ok p =>
      simp only [feedAll_append bs cs p.1]
      cases p.1.feedAll bs with
      | error f => rfl
      | ok q =>
        simp only
        cases q.1.feedAll cs <;> rfl

theorem feedAll_length : ∀ {bs : List Byte} {d d' : Decoder} {es : List Event},
    d.feedAll bs = .ok (d', es) → es.length = bs.length
  | [], _, _, _, h => by cases h; rfl
  | b :: bs, _, _, _, h => by
    obtain ⟨d1, e, es', -, h2, rfl⟩ := feedAll_cons h
    simp [feedAll_length h2]

/-! ### The requests -/

theorem exec_feed_of {s : State} {b : Byte} {d : Decoder} {e : Event} (h : (s.dec s.link).feed b = .ok (d, e)) :
    exec (.feed b) s = .next (s.returnFrom d (.event e)) := by
  simp only [exec, execFeed, State.feedByte, h]

/-- All that feeding one byte can do when it does not stop. -/
theorem feedByte_next {s t : State} {b : Byte} (h : s.feedByte b = .next t) :
    ∃ d e, (s.dec s.link).feed b = .ok (d, e) ∧ t = s.returnFrom d (.event e) := by
  unfold State.feedByte at h
  split at h
  · cases h
  · next d e hd =>
    cases h
    exact ⟨d, e, hd, rfl⟩

/-- All that FEEDN can do when it does not stop: refuse the operand, or feed all of it. -/
theorem execFeedn_next {s t : State} (h : execFeedn s = .next t) :
    (Config.operandMax < s.operand.length ∧ t = s.answer (.dec s.link) (.error .illegalRequest)) ∨
      (s.operand.length ≤ Config.operandMax ∧ ∃ d es, (s.dec s.link).feedAll s.operand = .ok (d, es) ∧
        t = s.returnFrom d (.ok (.events es))) := by
  unfold execFeedn at h
  rw [operandTooLong_eq] at h
  by_cases hl : Config.operandMax < s.operand.length
  · rw [decide_eq_true hl] at h
    cases h
    exact .inl ⟨hl, rfl⟩
  · rw [decide_eq_false hl] at h
    simp only [Bool.false_eq_true, if_false] at h
    split at h
    · cases h
    · next d es hd =>
      cases h
      exact .inr ⟨by omega, d, es, hd, rfl⟩

theorem execFeedn_of {s : State} {d : Decoder} {es : List Event} (hl : s.operand.length ≤ Config.operandMax)
    (h : (s.dec s.link).feedAll s.operand = .ok (d, es)) :
    execFeedn s = .next (s.returnFrom d (.ok (.events es))) := by
  unfold execFeedn
  rw [operandTooLong_eq, decide_eq_false (by omega)]
  simp [h]

/-- All that a request of the shared port, or the sending of the device ID, can do: write `CSU.acc` if it is CSCLR or
CSADD, and return a result on its own unit's port that is no Event. -/
theorem exec_shared {i : Instr} {s t : State} (hp : i.place = .port .shared ∨ i = .deviceId)
    (h : exec i s = .next t) :
    ∃ v r, t = (s.setCsuAcc v).answer (Instr.unit s.link i) r ∧ (∀ j, Instr.unit s.link i ≠ .dec j) ∧
      (∀ e, r ≠ .event e) ∧ ((i ≠ .csclr ∧ ∀ b, i ≠ .csadd b) → v = s.csuAcc) := by
  have ho : ∀ (bs : List Byte) (f : List Byte → Except ErrorKind Value) (e : Event), operandReply bs f ≠ .event e := by
    intro bs f e he
    rcases operandReply_cases bs f with ⟨h, -⟩ | ⟨v, h, -⟩ | ⟨k, h, -⟩ <;> rw [h] at he <;> cases he
  cases i
  case csclr => cases h; exact ⟨_, _, rfl, fun j => by simp [Instr.unit], by simp, fun hn => absurd rfl hn.1⟩
  case csadd b => cases h; exact ⟨_, _, rfl, fun j => by simp [Instr.unit], by simp, fun hn => absurd rfl (hn.2 b)⟩
  case cssum | rled | rlec | enc =>
    cases h
    exact ⟨s.csuAcc, _, rfl, fun j => by simp [Instr.unit], ho _ _, fun _ => rfl⟩
  case cscmp | stpack | stunpack | trail | deviceId =>
    cases h
    exact ⟨s.csuAcc, _, rfl, fun j => by simp [Instr.unit], by simp, fun _ => rfl⟩
  all_goals
    rcases hp with hp | hp
    · exact absurd hp (by simp [Instr.place])
    · cases hp

end Sys2Proof.Machine
end

