-- ==== Sys2Proof/Laws/PerInstr.lean ====
section
/-! SUPPORT. Facts proved once per constructor of Instr. The family `Sys2Proof.Laws.DecodesBack`: a well-formed
instruction is read back from its own code word, at its own place. -/

namespace Sys2Proof.Laws.DecodesBack

/-- Decoding the code word of a well-formed instruction, at the instruction's place, gives the instruction. -/
def Statement (i : Instr) : Prop := i.wf = true → decode i.place (encode i) = .ok i

/-- A request whose word a row of the table takes is read back, if the row builds it from the word. -/
theorem of_row {r : RequestRow} {i : Instr} {w : Word} (hr : r ∈ requestRows) (he : encode i = .request w)
    (hp : i.place = .port r.port) (ht : w &&& r.mask = r.pattern) (hb : r.build w = i) : Statement i := by
  intro _
  rw [he, hp]
  show decodeRequest r.port w = .ok i
  rw [decodeRequest_of_row hr (by simpa [RequestRow.takes] using ht), hb]

theorem drst : Statement .drst :=
  of_row (r := ⟨.decoder, 0x00000000, 0xFFFFFFFF, fun _ => .drst⟩) (by simp [requestRows]) rfl rfl (by decide) rfl

theorem feed (b : Byte) : Statement (.feed b) :=
  of_row (r := ⟨.decoder, 0x10000000, 0xFFFFFF00, fun w => .feed (immByte w)⟩) (by simp [requestRows]) rfl rfl
    (pattern_or_operand (by decide) (byte_and_mask b)) (by simp only [immByte_or_setWidth 0x10000000#32 b (by decide)])

theorem feedn : Statement .feedn :=
  of_row (r := ⟨.decoder, 0x20000000, 0xFFFFFFFF, fun _ => .feedn⟩) (by simp [requestRows]) rfl rfl (by decide) rfl

theorem csclr : Statement .csclr :=
  of_row (r := ⟨.shared, 0x30000000, 0xFFFFFFFF, fun _ => .csclr⟩) (by simp [requestRows]) rfl rfl (by decide) rfl

theorem csadd (b : Byte) : Statement (.csadd b) :=
  of_row (r := ⟨.shared, 0x40000000, 0xFFFFFF00, fun w => .csadd (immByte w)⟩) (by simp [requestRows]) rfl rfl
    (pattern_or_operand (by decide) (byte_and_mask b)) (by simp only [immByte_or_setWidth 0x40000000#32 b (by decide)])

theorem cssum : Statement .cssum :=
  of_row (r := ⟨.shared, 0x50000000, 0xFFFFFFFF, fun _ => .cssum⟩) (by simp [requestRows]) rfl rfl (by decide) rfl

theorem cscmp (v : Half) : Statement (.cscmp v) :=
  of_row (r := ⟨.shared, 0x60000000, 0xFFFF0000, fun w => .cscmp (immHalf w)⟩) (by simp [requestRows]) rfl rfl
    (pattern_or_operand (by decide) (half_and_mask v)) (by simp only [immHalf_or_setWidth 0x60000000#32 v (by decide)])

theorem rled : Statement .rled :=
  of_row (r := ⟨.shared, 0x70000000, 0xFFFFFFFF, fun _ => .rled⟩) (by simp [requestRows]) rfl rfl (by decide) rfl

theorem rlec : Statement .rlec :=
  of_row (r := ⟨.shared, 0x80000000, 0xFFFFFFFF, fun _ => .rlec⟩) (by simp [requestRows]) rfl rfl (by decide) rfl

theorem enc (f : Bool) (c : Byte) : Statement (.enc f c) := by
  have hx : (c.setWidth 32 : Word) &&& 0xFEFFFF00#32 = 0#32 := by
    have hx' : ∀ x : Fin 256, (BitVec.ofFin x : Byte).setWidth 32 &&& 0xFEFFFF00#32 = 0#32 := by decide +kernel
    exact hx' c.toFin
  refine of_row (r := ⟨.shared, 0x90000000, 0xFEFFFF00, fun w => .enc (flagF w) (immByte w)⟩) (by simp [requestRows])
    rfl rfl ?_ ?_
  · show (0x90000000#32 ||| (if f = true then 0x01000000#32 else 0#32) ||| c.setWidth 32) &&& 0xFEFFFF00#32 = 0x90000000#32
    rw [BitVec.and_or_distrib_right, hx, BitVec.or_zero]
    cases f <;> decide
  · have hi : immByte (0x90000000#32 ||| if f = true then 0x01000000#32 else 0#32) = 0#8 := by cases f <;> decide
    have hf : flagF (0x90000000#32 ||| (if f = true then 0x01000000#32 else 0#32) ||| c.setWidth 32) = f := by
      cases f <;> simp [flagF]
    simp only [hf, immByte_or_setWidth _ c hi]

theorem stpack : Statement .stpack :=
  of_row (r := ⟨.shared, 0xA0000000, 0xFFFFFFFF, fun _ => .stpack⟩) (by simp [requestRows]) rfl rfl (by decide) rfl

theorem stunpack (b : Byte) : Statement (.stunpack b) :=
  of_row (r := ⟨.shared, 0xB0000000, 0xFFFFFF00, fun w => .stunpack (immByte w)⟩) (by simp [requestRows]) rfl rfl
    (pattern_or_operand (by decide) (byte_and_mask b)) (by simp only [immByte_or_setWidth 0xB0000000#32 b (by decide)])

theorem trail : Statement .trail :=
  of_row (r := ⟨.shared, 0xC0000000, 0xFFFFFFFF, fun _ => .trail⟩) (by simp [requestRows]) rfl rfl (by decide) rfl

theorem sync0 : Statement .sync0 := fun _ => rfl

theorem sync1 : Statement .sync1 := fun _ => rfl

theorem cmdInit : Statement .cmdInit := fun _ => rfl

theorem cmdPrint : Statement .cmdPrint := fun _ => rfl

theorem cmdData : Statement .cmdData := fun _ => rfl

theorem cmdBreak : Statement .cmdBreak := fun _ => rfl

theorem cmdInquiry : Statement .cmdInquiry := fun _ => rfl

theorem compRaw : Statement .compRaw := fun _ => rfl

theorem compRle : Statement .compRle := fun _ => rfl

theorem deviceId : Statement .deviceId := fun _ => rfl

theorem rleLit (c : Nat) : Statement (.rleLit c) := by
  intro h
  show decodeWire .rleTag (Tag.lit c).toByte = .ok (.rleLit c)
  rw [decodeWire, tag_ofByte_toByte (t := .lit c) h]

theorem rleRep (c : Nat) : Statement (.rleRep c) := by
  intro h
  show decodeWire .rleTag (Tag.rep c).toByte = .ok (.rleRep c)
  rw [decodeWire, tag_ofByte_toByte (t := .rep c) h]

end Sys2Proof.Laws.DecodesBack
end

