-- ==== Sys2Proof/Laws/Runs.lean ====
section
/-! SUPPORT. Streams of runs: what RLED does with one run, with a sequence of runs and with a tag that asks for too much;
that every stream is one of these; and the compressor, one run at a time. -/

namespace Sys2Proof.Machine

@[simp] theorem Run.wf_lit {bs : List Byte} : (Run.lit bs).wf = true ↔ 1 ≤ bs.length ∧ bs.length ≤ 128 := by
  simp [Run.wf]
@[simp] theorem Run.wf_rep {n : Nat} {v : Byte} : (Run.rep n v).wf = true ↔ 2 ≤ n ∧ n ≤ 129 := by simp [Run.wf]

@[simp] theorem Runs.wire_nil : Runs.wire [] = [] := rfl
@[simp] theorem Runs.wire_cons (r : Run) (rs : List Run) : Runs.wire (r :: rs) = r.wire ++ Runs.wire rs := rfl
@[simp] theorem Runs.out_nil : Runs.out [] = [] := rfl
@[simp] theorem Runs.out_cons (r : Run) (rs : List Run) : Runs.out (r :: rs) = r.out ++ Runs.out rs := rfl
@[simp] theorem Runs.wf_nil : Runs.wf [] := by simp [Runs.wf]
theorem Runs.wf_cons {r : Run} {rs : List Run} : Runs.wf (r :: rs) ↔ r.wf = true ∧ Runs.wf rs := by simp [Runs.wf]

/-! ### The decompressor -/

/-- The tag byte of a literal run of `n` bytes. -/
theorem ofByte_litTag {n : Nat} (h1 : 1 ≤ n) (h2 : n ≤ 128) : Tag.ofByte (BitVec.ofNat 8 (n - 1)) = .lit (n - 1) := by
  rw [tag_of_lt (by simp; omega)]
  congr 1
  simp; omega

/-- The tag byte of a repeat run of `n` copies. -/
theorem ofByte_repTag {n : Nat} (h1 : 2 ≤ n) (h2 : n ≤ 129) :
    Tag.ofByte (BitVec.ofNat 8 (128 + (n - 2))) = .rep (n - 2) := by
  rw [tag_of_ge (by simp; omega)]
  congr 1
  simp; omega

/-- A literal run that does not fit in what is left of `OUT_MAX` ends in BufferOverflow. -/
theorem rleRun_lit_gt : ∀ (vs w out : List Byte) (rem : Nat), vs.length ≤ 128 →
    out.length ≤ Config.outMax → Config.outMax < out.length + vs.length →
    rleRun (vs ++ w) .lit (BitVec.ofNat 8 vs.length) rem out = .error .bufferOverflow
  | [], _, _, _, _, h1, h2 => absurd h1 (by simpa using h2)
  | v :: vs, w, out, rem, h, h1, h2 => by
    simp only [List.length_cons] at h h2
    rw [List.cons_append, rleRun]
    by_cases ho : out.length + 1 ≤ Config.outMax
    · have e1 : BitVec.ofNat 8 (v :: vs).length - 1#8 = BitVec.ofNat 8 vs.length := by
        apply BitVec.eq_of_toNat_eq
        simp
        omega
      have e2 : ¬ BitVec.ofNat 8 vs.length = 0#8 := by
        intro h0
        have := congrArg BitVec.toNat h0
        simp at this
        omega
      simp only [rleStep, outputEmit, outputSeq_of_le (vs := [v]) (out := out) (by simpa using ho), e1, e2, if_false]
      exact rleRun_lit_gt vs w (out ++ [v]) (rem - 1) (by omega) (by simpa using ho) (by simp; omega)
    · simp only [rleStep, outputEmit, outputSeq_of_gt (vs := [v]) (out := out) (by simp; omega)]

/-- One run that fits: its bytes are written, and its wire bytes counted. -/
theorem rleRun_run {r : Run} {w out : List Byte} {rem : Nat} (hr : r.wf = true) (hm : r.wire.length ≤ rem)
    (ho : out.length + r.out.length ≤ Config.outMax) :
    rleRun (r.wire ++ w) .tag 0#8 rem out = rleRun w .tag 0#8 (rem - r.wire.length) (out ++ r.out) := by
  cases r with
  | lit bs =>
    obtain ⟨h1, h2⟩ := Run.wf_lit.mp hr
    simp only [Run.wire, Run.out, List.length_cons, List.cons_append] at *
    rw [rleRun_tag_lit (ofByte_litTag h1 h2) (by omega), show bs.length - 1 + 1 = bs.length by omega,
      rleRun_lit bs w out (rem - 1) h1 h2 ho, show rem - 1 - bs.length = rem - (bs.length + 1) by omega]
  | rep n v =>
    obtain ⟨h1, h2⟩ := Run.wf_rep.mp hr
    simp only [Run.wire, Run.out, List.length_cons, List.length_nil, List.length_replicate, List.cons_append,
      List.nil_append] at *
    rw [rleRun_tag_rep (ofByte_repTag h1 h2) (by omega), show n - 2 + 2 = n by omega, rleRun_rep (by omega) ho,
      show rem - 1 - 1 = rem - (0 + 1 + 1) by omega]

/-- One run that does not fit. -/
theorem rleRun_run_gt {r : Run} {w out : List Byte} {rem : Nat} (hr : r.wf = true) (hm : r.wire.length ≤ rem)
    (hl : out.length ≤ Config.outMax) (ho : Config.outMax < out.length + r.out.length) :
    rleRun (r.wire ++ w) .tag 0#8 rem out = .error .bufferOverflow := by
  cases r with
  | lit bs =>
    obtain ⟨h1, h2⟩ := Run.wf_lit.mp hr
    simp only [Run.wire, Run.out, List.length_cons, List.cons_append] at *
    rw [rleRun_tag_lit (ofByte_litTag h1 h2) (by omega), show bs.length - 1 + 1 = bs.length by omega]
    exact rleRun_lit_gt bs w out (rem - 1) h2 hl ho
  | rep n v =>
    obtain ⟨h1, h2⟩ := Run.wf_rep.mp hr
    simp only [Run.wire, Run.out, List.length_cons, List.length_nil, List.length_replicate, List.cons_append,
      List.nil_append] at *
    rw [rleRun_tag_rep (ofByte_repTag h1 h2) (by omega), show n - 2 + 2 = n by omega, rleRun]
    simp [rleStep, outputEmit, Nat.mod_eq_of_lt (show n < 256 by omega),
      outputSeq_of_gt (vs := List.replicate n v) (out := out) (by simpa using ho)]

/-- A sequence of runs in front of a stream: written if it fits in `OUT_MAX`, BufferOverflow if not. -/
theorem rleRun_runs : ∀ (rs : List Run) (w out : List Byte) (rem : Nat), Runs.wf rs → (Runs.wire rs).length ≤ rem →
    out.length ≤ Config.outMax →
    rleRun (Runs.wire rs ++ w) .tag 0#8 rem out =
      if out.length + (Runs.out rs).length ≤ Config.outMax then
        rleRun w .tag 0#8 (rem - (Runs.wire rs).length) (out ++ Runs.out rs)
      else .error .bufferOverflow
  | [], w, out, rem, _, _, ho => by simp [ho]
  | r :: rs, w, out, rem, hw, hm, ho => by
    obtain ⟨h1, h2⟩ := Runs.wf_cons.mp hw
    simp only [Runs.wire_cons, Runs.out_cons, List.length_append, List.append_assoc] at *
    by_cases hf : out.length + r.out.length ≤ Config.outMax
    · rw [rleRun_run h1 (by omega) hf, rleRun_runs rs w (out ++ r.out) _ h2 (by omega) (by simpa using hf)]
      simp only [List.length_append, Nat.sub_sub, List.append_assoc, Nat.add_assoc]
    · rw [rleRun_run_gt h1 (by omega) ho (by omega), if_neg (by omega)]

/-- A tag that the wire bytes after it do not serve. -/
abbrev tagStarved (t : Byte) (rest : List Byte) : Prop :=
  (t.toNat < 128 ∧ rest.length < t.toNat + 1) ∨ (128 ≤ t.toNat ∧ rest = [])

/-- Every stream is a sequence of runs, or one followed by a tag that asks for more bytes than are left. -/
theorem exists_runs : ∀ (n : Nat) (w : List Byte), w.length ≤ n → ∃ rs, Runs.wf rs ∧
    (w = Runs.wire rs ∨ ∃ t rest, w = Runs.wire rs ++ t :: rest ∧ tagStarved t rest)
  | _, [], _ => ⟨[], Runs.wf_nil, .inl rfl⟩
  | 0, _ :: _, h => absurd h (by simp)
  | n + 1, t :: rest, h => by
    simp only [List.length_cons] at h
    by_cases hs : tagStarved t rest
    · exact ⟨[], Runs.wf_nil, .inr ⟨t, rest, rfl, hs⟩⟩
    · have key : ∃ (r : Run) (w : List Byte), r.wf = true ∧ t :: rest = r.wire ++ w ∧ w.length ≤ n := by
        by_cases ht : t.toNat < 128
        · refine ⟨.lit (rest.take (t.toNat + 1)), rest.drop (t.toNat + 1), ?_, ?_, by simp; omega⟩
          · simp; omega
          · simp [Run.wire, Nat.min_eq_left (show t.toNat + 1 ≤ rest.length by omega)]
        · cases rest with
          | nil => exact absurd (.inr ⟨by omega, rfl⟩) hs
          | cons v w =>
            refine ⟨.rep (t.toNat - 128 + 2) v, w, ?_, ?_, by simp at h; omega⟩
            · have := t.isLt
              simp; omega
            · simp [Run.wire, show 128 + (t.toNat - 128) = t.toNat by omega]
      obtain ⟨r, w, hr, he, hl⟩ := key
      obtain ⟨rs, h1, h2⟩ := exists_runs n w hl
      refine ⟨r :: rs, Runs.wf_cons.mpr ⟨hr, h1⟩, ?_⟩
      rw [he, Runs.wire_cons]
      obtain rfl | ⟨t', rest', rfl, hs'⟩ := h2
      · exact .inl rfl
      · exact .inr ⟨t', rest', by simp, hs'⟩

/-- What a starved tag answers. -/
theorem rleRun_starved {t : Byte} {rest out : List Byte} {rem : Nat} (h : tagStarved t rest) (hr : rem = rest.length + 1) :
    rleRun (t :: rest) .tag 0#8 rem out = .error .malformedRLEStream := by
  subst hr
  rw [rleRun]
  rcases h with ⟨h1, h2⟩ | ⟨h1, rfl⟩
  · have : rest.length < t.toNat % 128 + 1 := by omega
    simp [rleStep, tag_of_lt h1, this]
  · simp [rleStep, tag_of_ge h1]

/-- RLED on a sequence of runs. -/
theorem rleDecompress_runs {rs : List Run} (h : Runs.wf rs) : rleDecompress (Runs.wire rs) =
    if (Runs.out rs).length ≤ Config.outMax then .ok (Runs.out rs) else .error .bufferOverflow := by
  have := rleRun_runs rs [] [] (Runs.wire rs).length h le_rfl (by simp)
  simp only [List.append_nil, List.length_nil, Nat.zero_add, List.nil_append] at this
  exact this

/-- RLED on a sequence of runs that a starved tag follows. -/
theorem rleDecompress_starved {rs : List Run} {t : Byte} {rest : List Byte} (h : Runs.wf rs) (hs : tagStarved t rest) :
    rleDecompress (Runs.wire rs ++ t :: rest) =
      if (Runs.out rs).length ≤ Config.outMax then .error .malformedRLEStream else .error .bufferOverflow := by
  have := rleRun_runs rs (t :: rest) [] (Runs.wire rs ++ t :: rest).length h (by simp) (by simp)
  simp only [List.length_nil, Nat.zero_add, List.nil_append] at this
  refine Eq.trans this ?_
  split_ifs
  · exact rleRun_starved hs (by simp)
  · rfl

/-! ### The compressor -/

/-- Fuel beyond the length changes nothing. -/
theorem compressRuns_fuel : ∀ (fuel : Nat) (p : List Byte), p.length ≤ fuel → compressRuns fuel p = rleCompress p := by
  have key : ∀ (f g : Nat) (p : List Byte), p.length ≤ f → p.length ≤ g → compressRuns f p = compressRuns g p := by
    intro f
    induction f with
    | zero =>
      intro g p hf _
      have : p = [] := List.length_eq_zero_iff.mp (by omega)
      subst this
      cases g <;> rfl
    | succ f ih =>
      intro g p hf hg
      cases p with
      | nil => cases g <;> rfl
      | cons x xs =>
        cases g with
        | zero => simp at hg
        | succ g =>
          simp only [List.length_cons] at hf hg
          simp only [compressRuns]
          split_ifs with h
          · rw [ih g _ (by simp; omega) (by simp; omega)]
          · have := literalBytes_pos (x := x) (xs := xs) (by omega)
            rw [ih g _ (by simp; omega) (by simp; omega)]
  exact fun fuel p h => key fuel _ p h le_rfl

/-- The compressor, one run at a time: all it can do with a first byte (R161). -/
theorem rleCompress_cons (x : Byte) (xs : List Byte) : rleCompress (x :: xs) =
    if 1 ≤ equalBytes x 128 xs then
      (Tag.rep (equalBytes x 128 xs - 1)).toByte :: x :: rleCompress (xs.drop (equalBytes x 128 xs))
    else
      (Tag.lit (literalBytes 128 (x :: xs) - 1)).toByte ::
        ((x :: xs).take (literalBytes 128 (x :: xs)) ++ rleCompress ((x :: xs).drop (literalBytes 128 (x :: xs)))) := by
  rw [rleCompress, List.length_cons, compressRuns]
  by_cases h : 1 ≤ equalBytes x 128 xs
  · simp only [show 2 ≤ equalBytes x 128 xs + 1 by omega, if_true, h, List.drop_succ_cons]
    rw [compressRuns_fuel _ _ (by simp)]
    rfl
  · have := literalBytes_pos (x := x) (xs := xs) (by omega)
    simp only [show ¬ 2 ≤ equalBytes x 128 xs + 1 by omega, if_false, h]
    rw [compressRuns_fuel _ _ (by simp; omega)]

/-- How far the loop for equal bytes runs. -/
theorem equalBytes_replicate (v : Byte) : ∀ (cap n : Nat) (q : List Byte), n ≤ cap → (n = cap ∨ q[0]? ≠ some v) →
    equalBytes v cap (List.replicate n v ++ q) = n
  | 0, n, q, h, _ => by
    obtain rfl : n = 0 := by omega
    simp [equalBytes]
  | cap + 1, 0, [], _, _ => rfl
  | cap + 1, 0, x :: q, _, h => by
    have : x ≠ v := by simpa using h
    simp [equalBytes, this]
  | cap + 1, n + 1, q, h, hq => by
    rw [List.replicate_succ, List.cons_append, equalBytes, if_pos rfl,
      equalBytes_replicate v cap n q (by omega) (hq.imp (by omega) id)]

/-- How far the loop for a literal run goes. -/
theorem literalBytes_eq : ∀ (cap : Nat) (bs q : List Byte), bs.length ≤ cap →
    (∀ i < bs.length, (bs ++ q)[i]? ≠ (bs ++ q)[i + 1]?) → (bs.length = cap ∨ q = [] ∨ q[0]? = q[1]?) →
    literalBytes cap (bs ++ q) = bs.length
  | 0, bs, q, h, _, _ => by
    obtain rfl : bs = [] := List.length_eq_zero_iff.mp (by omega)
    simp [literalBytes]
  | cap + 1, [], [], _, _, _ => rfl
  | cap + 1, [], [x], _, _, hq => by simp at hq
  | cap + 1, [], x :: y :: q, _, _, hq => by
    have : x = y := by simpa using hq
    simp [literalBytes, this]
  | cap + 1, [b], [], _, _, _ => rfl
  | cap + 1, [b], x :: q, h, hi, hq => by
    have h0 := hi 0 (by simp)
    have hx : b ≠ x := by simpa using h0
    have := literalBytes_eq cap [] (x :: q) (by simp) (by simp) (hq.imp (by simp; omega) id)
    rw [List.nil_append] at this
    simp [literalBytes, hx, this]
  | cap + 1, b :: b' :: bs, q, h, hi, hq => by
    have h0 := hi 0 (by simp)
    have hx : b ≠ b' := by simpa using h0
    have := literalBytes_eq cap (b' :: bs) q (by simpa using h)
      (fun i hl => by have := hi (i + 1) (by simpa using hl); simpa using this) (hq.imp (by simp) id)
    simp only [List.cons_append] at this ⊢
    rw [literalBytes, if_neg hx, this]
    rfl

/-- The byte of a literal tag as a number. -/
theorem tag_lit_toByte (c : Nat) (h : c < 128) : (Tag.lit c).toByte = BitVec.ofNat 8 c := by
  revert c; decide

/-- The byte of a repeat tag as a number. -/
theorem tag_rep_toByte (c : Nat) (h : c < 128) : (Tag.rep c).toByte = BitVec.ofNat 8 (128 + c) := by
  revert c; decide

/-- What the compressor writes is a sequence of runs of its operand. -/
theorem exists_compressed_runs : ∀ (n : Nat) (p : List Byte), p.length ≤ n →
    ∃ rs : List Run, Runs.wf rs ∧ Runs.wire rs = rleCompress p ∧ Runs.out rs = p
  | _, [], _ => ⟨[], Runs.wf_nil, rfl, rfl⟩
  | 0, _ :: _, h => absurd h (by simp)
  | n + 1, x :: xs, h => by
    simp only [List.length_cons] at h
    obtain ⟨e1, e2, e3⟩ := equalBytes_spec x 128 xs
    rw [rleCompress_cons]
    split_ifs with hr
    · generalize equalBytes x 128 xs = k at *
      obtain ⟨rs, r1, r2, r3⟩ := exists_compressed_runs n (xs.drop k) (by simp; omega)
      refine ⟨.rep (k + 1) x :: rs, Runs.wf_cons.mpr ⟨Run.wf_rep.mpr ⟨by omega, by omega⟩, r1⟩, ?_, ?_⟩
      · rw [Runs.wire_cons, r2, tag_rep_toByte _ (by omega)]
        rfl
      · rw [Runs.out_cons, r3]
        conv_rhs => rw [e3]
        rfl
    · have hl := literalBytes_pos (show equalBytes x 128 xs = 0 by omega)
      obtain ⟨l1, l2⟩ := literalBytes_spec 128 (x :: xs)
      generalize literalBytes 128 (x :: xs) = k at *
      simp only [List.length_cons] at l2
      have hk : ((x :: xs).take k).length = k := by simp; omega
      obtain ⟨rs, r1, r2, r3⟩ := exists_compressed_runs n ((x :: xs).drop k) (by simp; omega)
      refine ⟨.lit ((x :: xs).take k) :: rs, Runs.wf_cons.mpr ⟨Run.wf_lit.mpr ⟨by omega, by omega⟩, r1⟩, ?_, ?_⟩
      · rw [Runs.wire_cons, r2, Run.wire, hk, tag_lit_toByte _ (by omega)]
        rfl
      · rw [Runs.out_cons, r3, Run.out, List.take_append_drop]

/-- The wire length of runs: one byte more for each literal run, two bytes for each repeat run (R164). -/
theorem runs_length : ∀ (rs : List Run), Runs.wf rs →
    (Runs.wire rs).length + (rs.map fun r => match r with
        | .lit _ => 0
        | .rep n _ => n - 2).sum =
      (Runs.out rs).length + rs.countP fun r => match r with
        | .lit _ => true
        | .rep _ _ => false
  | [], _ => rfl
  | r :: rs, h => by
    obtain ⟨h1, h2⟩ := Runs.wf_cons.mp h
    have ih := runs_length rs h2
    cases r with
    | lit bs => simp [Run.wire, Run.out] at *; omega
    | rep n v => simp [Run.wire, Run.out] at *; omega

end Sys2Proof.Machine
end

