-- ==== Sys2Proof/Laws/Step.lean ====
section
/-! SUPPORT. What a step does, by the head of the host's list. -/

namespace Sys2Proof.Machine

theorem step_request {s : State} {r : Request} {rest : List HostInput} {i : Instr}
    (hi : s.inputs = .request r :: rest) (hp : r.port.present = true)
    (hd : decodeRequest r.port.kind r.word = .ok i) : step s = exec i ((s.withInputs rest).attach r) := by
  unfold step
  rw [hi]
  simp only [hp, if_true, hd]

theorem step_refused {s : State} {r : Request} {rest : List HostInput} {k : Rejected}
    (hi : s.inputs = .request r :: rest) (hp : r.port.present = true)
    (hd : decodeRequest r.port.kind r.word = .error k) :
    step s = .next ((s.withInputs rest).answer r.port.refusalTo (.error .illegalRequest)) := by
  unfold step
  rw [hi]
  simp only [hp, if_true, hd]
  rfl

/-- All that a step can do when it does not stop: nothing, the reset input, an instruction, or the refusal of a word. -/
theorem step_next {s t : State} (h : step s = .next t) :
    (s.inputs = [] ∧ t = s) ∨
    (∃ rest, s.inputs = .reset :: rest ∧ t = (s.withInputs rest).assertReset) ∨
    (∃ r rest i, s.inputs = .request r :: rest ∧ r.port.present = true ∧
      decodeRequest r.port.kind r.word = .ok i ∧ exec i ((s.withInputs rest).attach r) = .next t) ∨
    (∃ r rest, s.inputs = .request r :: rest ∧ r.port.present = true ∧
      decodeRequest r.port.kind r.word = .error .illegalRequest ∧
      t = (s.withInputs rest).answer r.port.refusalTo (.error .illegalRequest)) := by
  unfold step at h
  split at h
  · next hi =>
    cases h
    exact .inl ⟨hi, rfl⟩
  · next rest hi =>
    cases h
    exact .inr (.inl ⟨rest, hi, rfl⟩)
  · next r rest hi =>
    split_ifs at h with hp
    · split at h
      · next i hd => exact .inr (.inr (.inl ⟨r, rest, i, hi, hp, hd, h⟩))
      · next k hd =>
        cases h
        have hk : k = .illegalRequest := by
          unfold decodeRequest at hd
          split at hd <;> cases hd
          rfl
        subst hk
        exact .inr (.inr (.inr ⟨r, rest, hi, hp, hd, rfl⟩))

end Sys2Proof.Machine
end

