-- ==== Sys2Proof/Tests/Slice0.lean ====
section
/-! SUPPORT. Tests with expected results taken from the spec's encodings and test vectors (spec/95_test_vectors.md, named by
their ids), and for every statement with hypotheses a witness that meets them. -/

open Sys2Proof Sys2Proof.Machine

namespace Sys2Proof.Tests

/-! ### Helpers -/

/-- The next state of an outcome. -/
def next? : Host.Outcome State Fault Refusal → Option State
  | .next t => some t
  | .fault _ => none
  | .refused _ => none

/-- The machine right after reset, but for link 0's decoder. -/
def withDec (d : Decoder) : State := { State.reset with links := [(0, { dec := d, reply := none })] }

/-- The decoder that the idle one is after some bytes. -/
def fed (bs : List Byte) : Decoder :=
  match Decoder.idle.feedAll bs with
  | .ok (d, _) => d
  | .error _ => Decoder.idle

/-- A request on the port of link 0, alone on the host's list. -/
def onLink0 (w : Word) (bs : List Byte) : State :=
  { State.reset with inputs := [.request { port := .decoder 0, word := w, operand := bs, status := Status.clear }] }

/-- A request on the shared port, alone on the host's list. -/
def onShared (w : Word) (bs : List Byte) : State :=
  { State.reset with inputs := [.request { port := .shared, word := w, operand := bs, status := Status.clear }] }

/-- The machine right after reset with something on the operand ports. -/
def withPorts (bs : List Byte) (st : Status) : State := { State.reset with operand := bs, status := st }

/-- What a FEEDN of some bytes answers on link 0 right after reset: the kind of every event, as a result word (R85), and
the last event. -/
def feednReply (bs : List Byte) : Option (List Byte × Option Event) :=
  match (next? (step (onLink0 0x20000000 bs))).bind (fun t => t.replyOf (.dec 0)) with
  | some (.ok (.events es)) => some (es.map (fun e => (Reply.event e).word), es.getLast?)
  | _ => none

/-- What an instruction answers on a unit's port. -/
def replyAfter (i : Instr) (u : UnitName) (s : State) : Option Reply := (next? (exec i s)).bind (fun t => t.replyOf u)

/-! ### Well-formedness: a count field that needs more than seven bits is refused (R77) -/

theorem test_wf_rleLit : (Instr.rleLit 128).wf = false := by decide
theorem test_wf_rleRep : (Instr.rleRep 128).wf = false := by decide
theorem test_wf_tag : (Tag.lit 127).wf = true ∧ (Tag.rep 128).wf = false := by decide
theorem test_wf_bounds : (Instr.rleLit 127).wf = true ∧ (Instr.rleRep 0).wf = true := by decide

/-! ### Decoding: words written out from R83 and R84, bytes from R72, R73, R74, R77 and R80 -/

theorem test_decode_drst : decodeRequest .decoder 0b0000_0000_0000_0000_0000_0000_0000_0000#32 = .ok .drst := by decide
theorem test_decode_feed :
    decodeRequest .decoder 0b0001_0000_0000_0000_0000_0000_1010_0101#32 = .ok (.feed 0xA5#8) := by decide
theorem test_decode_feedn : decodeRequest .decoder 0b0010_0000_0000_0000_0000_0000_0000_0000#32 = .ok .feedn := by decide
theorem test_decode_csclr : decodeRequest .shared 0b0011_0000_0000_0000_0000_0000_0000_0000#32 = .ok .csclr := by decide
theorem test_decode_csadd :
    decodeRequest .shared 0b0100_0000_0000_0000_0000_0000_1111_0001#32 = .ok (.csadd 0xF1#8) := by decide
theorem test_decode_cssum : decodeRequest .shared 0b0101_0000_0000_0000_0000_0000_0000_0000#32 = .ok .cssum := by decide
theorem test_decode_cscmp :
    decodeRequest .shared 0b0110_0000_0000_0000_1000_0001_0100_0111#32 = .ok (.cscmp 0x8147#16) := by decide
theorem test_decode_rled : decodeRequest .shared 0b0111_0000_0000_0000_0000_0000_0000_0000#32 = .ok .rled := by decide
theorem test_decode_rlec : decodeRequest .shared 0b1000_0000_0000_0000_0000_0000_0000_0000#32 = .ok .rlec := by decide
theorem test_decode_enc_flag :
    decodeRequest .shared 0b1001_0001_0000_0000_0000_0000_0000_0100#32 = .ok (.enc true 0x04#8) := by decide
theorem test_decode_enc :
    decodeRequest .shared 0b1001_0000_0000_0000_0000_0000_0000_1111#32 = .ok (.enc false 0x0F#8) := by decide
theorem test_decode_stpack : decodeRequest .shared 0b1010_0000_0000_0000_0000_0000_0000_0000#32 = .ok .stpack := by decide
theorem test_decode_stunpack :
    decodeRequest .shared 0b1011_0000_0000_0000_0000_0000_0010_0001#32 = .ok (.stunpack 0x21#8) := by decide
theorem test_decode_trail : decodeRequest .shared 0b1100_0000_0000_0000_0000_0000_0000_0000#32 = .ok .trail := by decide
theorem test_decode_sync0 : decodeWire .waitSync0 0b1000_1000#8 = .ok .sync0 := by decide
theorem test_decode_sync1 : decodeWire .waitSync1 0b0011_0011#8 = .ok .sync1 := by decide
theorem test_decode_cmdInit : decodeWire .command 0b0000_0001#8 = .ok .cmdInit := by decide
theorem test_decode_cmdPrint : decodeWire .command 0b0000_0010#8 = .ok .cmdPrint := by decide
theorem test_decode_cmdData : decodeWire .command 0b0000_0100#8 = .ok .cmdData := by decide
theorem test_decode_cmdBreak : decodeWire .command 0b0000_1000#8 = .ok .cmdBreak := by decide
theorem test_decode_cmdInquiry : decodeWire .command 0b0000_1111#8 = .ok .cmdInquiry := by decide
theorem test_decode_compRaw : decodeWire .compression 0b0000_0000#8 = .ok .compRaw := by decide
theorem test_decode_compRle : decodeWire .compression 0b0000_0001#8 = .ok .compRle := by decide
theorem test_decode_rleLit : decodeWire .rleTag 0b0100_0001#8 = .ok (.rleLit 65) := by decide
theorem test_decode_rleRep : decodeWire .rleTag 0b1000_0010#8 = .ok (.rleRep 2) := by decide
theorem test_decode_deviceId : decodeWire .response 0b1000_0001#8 = .ok .deviceId := by decide

/-- VQ2, VQ3, VQ4, VQ6, VQ7: words that no row takes on their port. -/
theorem test_decode_illegal :
    decodeRequest .decoder 0x10000188#32 = .error .illegalRequest ∧
    decodeRequest .shared 0xD0000000#32 = .error .illegalRequest ∧
    decodeRequest .decoder 0x01000000#32 = .error .illegalRequest ∧
    decodeRequest .shared 0x61230047#32 = .error .illegalRequest ∧
    decodeRequest .shared 0x10000088#32 = .error .illegalRequest := by decide

/-- R86, R87: a byte that is no command, and one that is no flag. -/
theorem test_decode_illegal_wire :
    decodeWire .command 0x03#8 = .error .unrecognizedCommand ∧
    decodeWire .compression 0x02#8 = .error .unrecognizedCompressionFlag := by decide

theorem test_tableWord :
    decodeTableWord 32 0x10000088 = some (.feed 0x88#8) ∧ decodeTableWord 32 0xC0000000 = some .trail ∧
    decodeTableWord 32 0xD0000000 = none ∧ decodeTableWord 8 0x88 = some .sync0 ∧
    decodeTableWord 8 0xC2 = some (.rleRep 66) ∧ decodeTableWord 16 0 = none := by decide

theorem test_encode : encode (.enc true 0x04#8) = .request 0x91000004#32 ∧ encode (.rleRep 2) = .wire 0x82#8 := by decide

/-! ### FEED, FEEDN, DRST and the wire codes that reach a decoder -/

/-- P1, request 2: FEED 0x88 after reset leads to WaitSync1. -/
theorem test_feed_sync : (next? (step (onLink0 0x10000088 []))).map (fun t => (t.dec 0, t.replyOf (.dec 0))) =
    some ({ Decoder.idle with state := .waitSync1 }, some (.event .needMore)) := by decide
/-- VD4: the byte 03 in Command. -/
theorem test_feed_unrecognized : replyAfter (.feed 0x03#8) (.dec 0) (withDec (fed [0x88#8, 0x33#8])) =
    some (.event (.error .unrecognizedCommand)) := by decide
/-- P3: a malformed packet, recovery, and a wrong checksum. -/
theorem test_feedn_recovery : feednReply [0x88#8, 0x33#8, 0x04#8, 0x01#8, 0x02#8, 0x00#8, 0x05#8, 0x11#8, 0x88#8, 0x33#8, 0x0F#8,
      0x00#8, 0x00#8, 0x00#8, 0x0F#8, 0x00#8, 0x88#8, 0x33#8, 0x0F#8, 0x00#8, 0x00#8, 0x00#8, 0x10#8, 0x00#8] =
    some (List.replicate 6 0x00#8 ++ [0x32#8] ++ List.replicate 8 0x00#8 ++ [0x01#8] ++ List.replicate 7 0x00#8 ++ [0x01#8],
      some (.packet ⟨.inquiry, false, [], false, false⟩)) := by decide +kernel
/-- VD17: a compressed packet. -/
theorem test_feedn_compressed : feednReply [0x88#8, 0x33#8, 0x04#8, 0x01#8, 0x06#8, 0x00#8, 0x82#8, 0xAA#8, 0x02#8, 0x01#8,
      0x02#8, 0x03#8, 0x3F#8, 0x01#8] =
    some (List.replicate 13 0x00#8 ++ [0x01#8],
      some (.packet ⟨.data, true, [0xAA#8, 0xAA#8, 0xAA#8, 0xAA#8, 0x01#8, 0x02#8, 0x03#8], true, false⟩)) := by decide +kernel
/-- P5, request 2, after VD23. -/
theorem test_drst : (next? (exec .drst (withDec (fed [0x88#8, 0x33#8, 0x04#8, 0x00#8, 0x05#8, 0x00#8, 0x01#8, 0x02#8])))).map
    (fun t => (t.dec 0, t.replyOf (.dec 0))) = some (Decoder.idle, some (.ok .unit)) := by decide +kernel
/-- VD23: the decoder after a truncated packet. -/
theorem test_truncated : fed [0x88#8, 0x33#8, 0x04#8, 0x00#8, 0x05#8, 0x00#8, 0x01#8, 0x02#8] =
    { Decoder.idle with
        state := .payload, cmd := 0x04#8, len := 5#16, rem := 3#16, acc := 0x000C#16, olen := 2
        pb := [(0, 0x01#8), (1, 0x02#8)] } := by decide +kernel
/-- VD9, VD10 and VD11: the two flags of a packet. -/
theorem test_flags :
    feednReply [0x88#8, 0x33#8, 0x02#8, 0x00#8, 0x00#8, 0x00#8, 0x02#8, 0x00#8] =
      some (List.replicate 7 0x00#8 ++ [0x01#8], some (.packet ⟨.print, false, [], true, true⟩)) ∧
    feednReply [0x88#8, 0x33#8, 0x0F#8, 0x00#8, 0x01#8, 0x00#8, 0xAA#8, 0xBA#8, 0x00#8] =
      some (List.replicate 8 0x00#8 ++ [0x01#8], some (.packet ⟨.inquiry, false, [0xAA#8], true, true⟩)) ∧
    feednReply [0x88#8, 0x33#8, 0x0F#8, 0x00#8, 0x00#8, 0x00#8, 0x10#8, 0x00#8] =
      some (List.replicate 7 0x00#8 ++ [0x01#8], some (.packet ⟨.inquiry, false, [], false, false⟩)) := by decide +kernel
/-- R102, R103: SYNC0 and SYNC1 at their places, and SYNC1 where a command is due (R104). -/
theorem test_sync0 : (next? (exec .sync0 State.reset)).map (fun t => (t.dec 0).state) = some .waitSync1 := by decide
theorem test_sync1 : (next? (exec .sync1 (withDec (fed [0x88#8])))).map (fun t => (t.dec 0).state) = some .command ∧
    replyAfter .sync1 (.dec 0) (withDec (fed [0x88#8, 0x33#8])) = some (.event (.error .unrecognizedCommand)) := by decide
/-- R104, R26: the command is latched and summed. -/
theorem test_commands :
    [Instr.cmdInit, .cmdPrint, .cmdData, .cmdBreak, .cmdInquiry].map (fun i =>
      (next? (exec i (withDec (fed [0x88#8, 0x33#8])))).map (fun t => ((t.dec 0).state, (t.dec 0).cmd, (t.dec 0).acc))) =
    [some (.compression, 0x01#8, 0x0001#16), some (.compression, 0x02#8, 0x0002#16), some (.compression, 0x04#8, 0x0004#16),
      some (.compression, 0x08#8, 0x0008#16), some (.compression, 0x0F#8, 0x000F#16)] := by decide
/-- R106. -/
theorem test_flagsBytes :
    [Instr.compRaw, .compRle].map (fun i => (next? (exec i (withDec (fed [0x88#8, 0x33#8, 0x04#8])))).map
      (fun t => ((t.dec 0).state, (t.dec 0).comp, (t.dec 0).acc))) =
    [some (.lenLow, false, 0x0004#16), some (.lenLow, true, 0x0005#16)] := by decide
/-- R141 with four bytes of budget: literal runs of 1 and of 3 fit, one of 4 does not; a repeat run fits. -/
theorem test_tags :
    [Instr.rleLit 0, .rleLit 2, .rleLit 3, .rleRep 127].map (fun i =>
      (next? (exec i (withDec (fed [0x88#8, 0x33#8, 0x04#8, 0x01#8, 0x04#8, 0x00#8])))).map
        (fun t => ((t.dec 0).rleMode, (t.dec 0).rleCnt, (t.dec 0).rem, t.replyOf (.dec 0)))) =
    [some (.lit, 1#8, 3#16, some (.event .needMore)), some (.lit, 3#8, 3#16, some (.event .needMore)),
      some (.tag, 0#8, 0#16, some (.event (.error .malformedRLEStream))),
      some (.rep, 129#8, 3#16, some (.event .needMore))] := by decide +kernel

/-- The header bytes in the comments of `decoderAt` lead to its decoders. -/
theorem test_decoderAt :
    decoderAt .waitSync1 = fed [0x88#8] ∧ decoderAt .command = fed [0x88#8, 0x33#8] ∧
    decoderAt .compression = fed [0x88#8, 0x33#8, 0x04#8] ∧
    decoderAt .rleTag = fed [0x88#8, 0x33#8, 0x04#8, 0x01#8, 0xFF#8, 0xFF#8] := by decide +kernel

/-- A word placed is the word the next step runs. -/
theorem test_withFetchWord_request : step (State.reset.withFetchWord 32 0x10000088) = exec (.feed 0x88#8) State.reset := rfl
theorem test_withFetchWord_wire :
    next? (step (State.reset.withFetchWord 8 0x33)) = next? (exec .sync1 (withDec (fed [0x88#8]))) := by decide +kernel

/-! ### The checksum unit -/

/-- VK6. -/
theorem test_csadd : (next? (exec (.csadd 0xFF#8) { State.reset with csuAcc := 0xFF80#16 })).map
    (fun t => (t.csuAcc, t.replyOf .csu)) = some (0x007F#16, some (.ok (.half 0x007F#16))) := by decide
theorem test_csclr : (next? (exec .csclr { State.reset with csuAcc := 0xFF80#16 })).map
    (fun t => (t.csuAcc, t.replyOf .csu)) = some (0x0000#16, some (.ok .unit)) := by decide
/-- VK2 and VK8. -/
theorem test_cssum : (next? (step (onShared 0x50000000 [0x02#8, 0x00#8, 0x04#8, 0x00#8, 0x01#8, 0x00#8, 0x00#8, 0x40#8]))).map
    (fun t => t.replyOf .csu) = some (some (.ok (.half 0x0047#16))) := by decide +kernel
/-- VK7, and P4, requests 10 and 11. -/
theorem test_cscmp : [0x0147#16, 0x0047#16, 0x4700#16].map (fun v =>
      replyAfter (.cscmp v) .csu { State.reset with csuAcc := 0x0047#16 }) =
    [some (.ok (.bit 0#1)), some (.ok (.bit 1#1)), some (.ok (.bit 0#1))] := by decide
/-- VK4: the sum wraps. -/
theorem test_csum_wrap : csum16 (List.replicate 258 0xFF#8) = 0x00FE#16 := by decide +kernel

/-! ### The RLE codec -/

/-- VR6 and VR11. -/
theorem test_rled : replyAfter .rled .rle (withPorts [0x00#8, 0x41#8, 0x81#8, 0x42#8] Status.clear) =
      some (.ok (.bytes [0x41#8, 0x42#8, 0x42#8, 0x42#8])) ∧
    replyAfter .rled .rle (withPorts [0x00#8, 0x85#8] Status.clear) = some (.ok (.bytes [0x85#8])) := by decide +kernel
/-- VR7 to VR10. -/
theorem test_rled_malformed :
    [[0x01#8, 0x10#8], [0x7F#8], [0x80#8], [0x02#8, 0x01#8, 0x02#8]].map (fun w => replyAfter .rled .rle (withPorts w Status.clear)) =
    List.replicate 4 (some (.error .malformedRLEStream)) := by decide +kernel
/-- VC6, VC7 and VC13. -/
theorem test_rlec :
    [[0x01#8, 0x01#8, 0x02#8], [0xAA#8, 0xAA#8, 0xAA#8, 0xAA#8, 0x01#8, 0x02#8, 0x03#8], [0x00#8, 0x00#8, 0x00#8, 0x01#8, 0x01#8, 0x02#8]].map
      (fun p => replyAfter .rlec .rle (withPorts p Status.clear)) =
    [some (.ok (.bytes [0x80#8, 0x01#8, 0x00#8, 0x02#8])), some (.ok (.bytes [0x82#8, 0xAA#8, 0x02#8, 0x01#8, 0x02#8, 0x03#8])),
      some (.ok (.bytes [0x81#8, 0x00#8, 0x80#8, 0x01#8, 0x00#8, 0x02#8]))] := by decide +kernel
/-- VC14. -/
theorem test_rlec_long : rleCompress (List.replicate 640 0x00#8) =
    [0xFF#8, 0x00#8, 0xFF#8, 0x00#8, 0xFF#8, 0x00#8, 0xFF#8, 0x00#8, 0xFA#8, 0x00#8] := by decide +kernel

/-! ### The encoder, the status codec and the trailer -/

/-- VE2 and VE3. -/
theorem test_enc_raw :
    [[0x01#8, 0x00#8, 0x00#8, 0x40#8], [0x01#8, 0x13#8, 0xE4#8, 0x40#8]].map (fun p => replyAfter (.enc false 0x02#8) .enc (withPorts p Status.clear)) =
    [some (.ok (.bytes [0x88#8, 0x33#8, 0x02#8, 0x00#8, 0x04#8, 0x00#8, 0x01#8, 0x00#8, 0x00#8, 0x40#8, 0x47#8, 0x00#8])),
      some (.ok (.bytes [0x88#8, 0x33#8, 0x02#8, 0x00#8, 0x04#8, 0x00#8, 0x01#8, 0x13#8, 0xE4#8, 0x40#8, 0x3E#8, 0x01#8]))] := by
  decide +kernel
/-- VE4 and VE7. -/
theorem test_enc :
    replyAfter (.enc true 0x04#8) .enc (withPorts [0xAA#8, 0xAA#8, 0xAA#8, 0xAA#8, 0x01#8, 0x02#8, 0x03#8] Status.clear) =
      some (.ok (.bytes [0x88#8, 0x33#8, 0x04#8, 0x01#8, 0x06#8, 0x00#8, 0x82#8, 0xAA#8, 0x02#8, 0x01#8, 0x02#8, 0x03#8, 0x3F#8, 0x01#8])) ∧
    replyAfter (.enc false 0x03#8) .enc (withPorts [] Status.clear) = some (.error .unrecognizedCommand) := by decide +kernel
/-- VT4, VT5 and VT6. -/
theorem test_stpack :
    [{ Status.clear with lowBattery := true }, { Status.clear with printerBusy := true, unprocessedData := true },
      { Status.clear with otherError := true, paperJam := true, packetError := true }].map (fun st => replyAfter .stpack .stat (withPorts [] st)) =
    [some (.ok (.byte 0x80#8)), some (.ok (.byte 0x0A#8)), some (.ok (.byte 0x70#8))] := by decide
/-- VT7 and VT8. -/
theorem test_stunpack :
    replyAfter (.stunpack 0x21#8) .stat State.reset = some (.ok (.status { Status.clear with paperJam := true, checksumError := true })) ∧
    replyAfter (.stunpack 0x04#8) .stat State.reset = some (.ok (.status { Status.clear with printBufferFull := true })) := by decide
/-- VT10, and the device ID that leaves with it. -/
theorem test_trail : replyAfter .trail .resp (withPorts [] { Status.clear with printerBusy := true }) =
    some (.ok (.bytes [0x81#8, 0x02#8])) := by decide
theorem test_deviceId : replyAfter .deviceId .resp (withPorts [] { Status.clear with printerBusy := true }) =
    some (.ok (.bytes [0x81#8, 0x02#8])) := by decide
/-- R81, over the payload of VE3. -/
theorem test_printFields : PrintFields.ofPayload [0x01#8, 0x13#8, 0xE4#8, 0x40#8] =
    some ⟨0x01#8, 1#4, 3#4, 0xE4#8, 0x40#8⟩ := by decide

/-! ### The step -/

/-- R260: the reset input while a packet is in the decoder. -/
theorem test_reset_input : (next? (step { withDec (fed [0x88#8, 0x33#8, 0x04#8]) with csuAcc := 7#16, inputs := [.reset] })).map
    (fun t => (t.dec 0, t.csuAcc, t.links, t.inputs)) = some (Decoder.idle, 0#16, [], []) := by decide
/-- VQ2: the refused word changes the result port only. -/
theorem test_refused : (next? (step (onLink0 0x10000188 []))).map (fun t => (t.dec 0, t.replyOf (.dec 0))) =
    some (Decoder.idle, some (.error .illegalRequest)) := by decide

/-! ### Witnesses: for each statement with hypotheses, a state and operands that meet them -/

/-- DecodeOfEncode, at both ends of a count field. -/
theorem wit_DecodeOfEncode : (Instr.rleLit 0).wf = true ∧ (Instr.rleRep 127).wf = true ∧ (Instr.enc true 0xFF#8).wf = true := by decide
/-- EncodeOfDecode. -/
theorem wit_EncodeOfDecode : decode (.wire .rleTag) (.wire 0xFF#8) = .ok (.rleRep 127) ∧
    decode (.port .shared) (.request 0x6000FFFF#32) = .ok (.cscmp 0xFFFF#16) := by decide
theorem wit_port_present : (Port.decoder 0).present = true ∧ Port.shared.present = true := by decide
/-- RequestsFollowTheTable, first clause: the row of FEED takes the word, and is the decoder port's. -/
theorem wit_RequestsFollowTheTable_taken :
    ((requestRows[1]?).map (fun row => (row.takes 0x100000FF#32, row.port == (Port.decoder 0).kind))) = some (true, true) ∧
    (onLink0 0x100000FF []).inputs = [.request ⟨.decoder 0, 0x100000FF#32, [], Status.clear⟩] ∧
    (Port.decoder 0).present = true := by decide
/-- RequestsFollowTheTable, second clause: FEED's word on the shared port. -/
theorem wit_RequestsFollowTheTable_refused :
    (∀ row ∈ requestRows, row.takes 0x100000FF#32 = true → row.port ≠ Port.shared.kind) ∧ Port.shared.present = true := by decide
/-- RequestsFollowTheTable, third clause. -/
theorem wit_RequestsFollowTheTable_unique : ∃ row ∈ requestRows, row.takes 0x60000000#32 = true := by decide
/-- StepRunsDecodedInstruction. -/
theorem wit_StepRunsDecodedInstruction : (Port.decoder 0).present = true ∧
    decodeRequest (Port.decoder 0).kind 0x20000000#32 = .ok .feedn ∧
    (onLink0 0x20000000 [0x88#8]).inputs = [.request ⟨.decoder 0, 0x20000000#32, [0x88#8], Status.clear⟩] := by decide
/-- WireCodesRunInTheirCarriers. -/
theorem wit_WireCodesRunInTheirCarriers : WirePlace.rleTag ≠ .response ∧ decodeWire .rleTag 0x80#8 = .ok (.rleRep 0) := by decide
/-- IllegalWordsChangeNothing: one word for each alternative, at the edge of the field. -/
theorem wit_IllegalWordsChangeNothing :
    13 ≤ (0xD0000000#32 >>> 28).toNat ∧ (0x02000000#32 >>> 25) &&& 0x7#32 ≠ 0#32 ∧
    (0x60010000#32 >>> 16) &&& 0xFF#32 ≠ 0#32 ∧
    ((0x01000000#32 >>> 28).toNat ≠ 9 ∧ (0x01000000#32).getLsbD 24 = true) ∧
    ((0x90000100#32 >>> 28).toNat ∈ [1, 4, 9, 11] ∧ (0x90000100#32 >>> 8) &&& 0xFF#32 ≠ 0#32) ∧
    ((0x00000001#32 >>> 28).toNat ∉ [1, 4, 6, 9, 11] ∧ 0x00000001#32 &&& 0xFFFF#32 ≠ 0#32) ∧
    (Port.decoder 0).present = true := by decide
/-- IllegalRequestCauses, first clause. -/
theorem wit_IllegalRequestCauses :
    (∀ row ∈ requestRows, row.port = Port.shared.kind → 0xD0000000#32 &&& row.mask ≠ row.pattern) ∧
    Port.shared.present = true := by decide
/-- An operand that is too long by one byte: IllegalRequestCauses, FeednIsFeeds, ChecksumUnitRequests, RledDecompresses,
RlecCompresses and EncBuildsThePacket in their refusing cases. -/
theorem wit_operandTooLong : Config.operandMax < (withPorts (List.replicate (Config.operandMax + 1) 0#8) Status.clear).operand.length := by
  simp [withPorts]
/-- ResetLoadsIdleEverywhere. -/
theorem wit_ResetLoadsIdleEverywhere : ({ State.reset with inputs := [.reset] } : State).inputs = .reset :: [] := rfl
/-- StepsThatRunNoInstruction, both clauses. -/
theorem wit_StepsThatRunNoInstruction : State.reset.inputs = [] ∧ Config.nLinks ≤ Config.nLinks := ⟨rfl, Nat.le_refl _⟩
/-- FeedInWaitSync, FeedInCommand, FeedInCompression and FeedInLengthBytes: one state for each. -/
theorem wit_FeedInHeader :
    ((withDec (fed [])).dec 0).state = .waitSync0 ∧ ((withDec (fed [0x88#8])).dec 0).state = .waitSync1 ∧
    ((withDec (fed [0x88#8, 0x33#8])).dec 0).state = .command ∧
    ((withDec (fed [0x88#8, 0x33#8, 0x04#8])).dec 0).state = .compression ∧
    ((withDec (fed [0x88#8, 0x33#8, 0x04#8, 0x00#8])).dec 0).state = .lenLow ∧
    ((withDec (fed [0x88#8, 0x33#8, 0x04#8, 0x00#8, 0xFF#8])).dec 0).state = .lenHigh := by decide
/-- FeedInRawPayload, with its invariant, at the last byte of the payload. -/
theorem wit_FeedInRawPayload :
    let d := (withDec (fed [0x88#8, 0x33#8, 0x04#8, 0x00#8, 0x01#8, 0x00#8])).dec 0
    d.state = .payload ∧ d.comp = false ∧ d.rem = 1#16 ∧ d.Inv := by decide +kernel
/-- FeedOfTagByte and TagCodesOpenRuns, where the run of one byte just fits. -/
theorem wit_FeedOfTagByte :
    let d := (withDec (fed [0x88#8, 0x33#8, 0x04#8, 0x01#8, 0x02#8, 0x00#8])).dec 0
    d.state = .payload ∧ d.comp = true ∧ d.rleMode = .tag ∧ 0 + 1 ≤ (d.rem - 1#16).toNat ∧ 1 ≤ (d.rem - 1#16).toNat := by decide +kernel
/-- FeedOfLiteralByte, at the last byte of a run. -/
theorem wit_FeedOfLiteralByte :
    let d := (withDec (fed [0x88#8, 0x33#8, 0x04#8, 0x01#8, 0x02#8, 0x00#8, 0x00#8])).dec 0
    d.state = .payload ∧ d.comp = true ∧ d.rleMode = .lit ∧ d.rleCnt = 1#8 := by decide +kernel
/-- FeedOfRepeatValue, with the longest run. -/
theorem wit_FeedOfRepeatValue :
    let d := (withDec (fed [0x88#8, 0x33#8, 0x04#8, 0x01#8, 0x02#8, 0x00#8, 0xFF#8])).dec 0
    d.state = .payload ∧ d.comp = true ∧ d.rleMode = .rep ∧ d.rleCnt = 129#8 := by decide +kernel
/-- FeedInChecksumLow. -/
theorem wit_FeedInChecksumLow :
    ((withDec (fed [0x88#8, 0x33#8, 0x04#8, 0x00#8, 0x00#8, 0x00#8])).dec 0).state = .checksumLow := by decide +kernel
/-- FeedInChecksumHigh: a packet with one payload byte. -/
theorem wit_FeedInChecksumHigh :
    let d := (withDec (fed [0x88#8, 0x33#8, 0x04#8, 0x00#8, 0x01#8, 0x00#8, 0x41#8, 0x46#8])).dec 0
    d.state = .checksumHigh ∧ Command.data.toByte = d.cmd ∧ d.pb.readSeq 0 d.olen = [0x41#8] := by decide +kernel
/-- The same with a payload of no byte, and its invariant. -/
theorem wit_FeedInChecksumHigh_inv :
    let d := (withDec (fed [0x88#8, 0x33#8, 0x04#8, 0x00#8, 0x00#8, 0x00#8, 0x04#8])).dec 0
    d.state = .checksumHigh ∧ d.Inv := by decide +kernel
/-- The invariant that FeedInRawPayload, FeedInChecksumHigh, EveryInstructionCompletes and FeednIsFeeds assume. -/
theorem wit_decoder_inv : (State.reset.dec State.reset.link).Inv := idle_inv
/-- HeaderCodesAdvanceThePacket: the same states as wit_FeedInHeader, and its list of commands has members. -/
theorem wit_HeaderCodes : (Instr.cmdBreak, 0x08#8) ∈ [(Instr.cmdInit, 0x01#8), (.cmdPrint, 0x02#8), (.cmdData, 0x04#8), (.cmdBreak, 0x08#8),
    (.cmdInquiry, 0x0F#8)] := by decide
/-- FeednIsFeeds: the FEED requests of one byte. -/
theorem wit_FeednIsFeeds : (match feeds State.reset [0x88#8] with
    | .next (u, es) => some ((u.dec 0).state, es)
    | .fault _ => none
    | .refused _ => none) = some (.waitSync1, [.needMore]) := by decide
/-- FeednInTwoParts: the first part and the second part complete. -/
theorem wit_FeednInTwoParts :
    ((next? (exec .feedn (withPorts [0x88#8] Status.clear))).bind (fun t => (next? (exec .feedn { t with operand := [0x33#8] })).map
      (fun u => (t.replyOf (.dec 0), u.replyOf (.dec 0), (u.dec 0).state)))) =
    some (some (.ok (.events [.needMore])), some (.ok (.events [.needMore])), .command) ∧
    ([0x88#8] ++ [0x33#8]).length ≤ Config.operandMax := by
  have h := operandMax_ge
  exact ⟨by decide +kernel, Nat.le_trans (by decide) h⟩
/-- OneEventPerByte, both of its clauses: a Packet, and an Error. -/
theorem wit_OneEventPerByte :
    replyAfter (.feed 0x00#8) (.dec 0) (withDec (fed [0x88#8, 0x33#8, 0x0F#8, 0x00#8, 0x00#8, 0x00#8, 0x0F#8])) =
      some (.event (.packet ⟨.inquiry, false, [], true, false⟩)) ∧
    replyAfter (.feed 0x02#8) (.dec 0) (withDec (fed [0x88#8, 0x33#8, 0x01#8])) =
      some (.event (.error .unrecognizedCompressionFlag)) := by decide +kernel
/-- DecoderRequestsChangeOneLink. -/
theorem wit_DecoderRequests : Instr.drst.place ≠ .port .shared ∧ Instr.drst ≠ .deviceId ∧
    (next? (exec .drst State.reset)).isSome = true := by decide
/-- FeedWritesOnlyTheEndOfTheBuffer: the value byte of a repeat run. -/
theorem wit_FeedWritesOnlyTheEndOfTheBuffer :
    ((next? (exec (.feed 0xAA#8) (withDec (fed [0x88#8, 0x33#8, 0x04#8, 0x01#8, 0x02#8, 0x00#8, 0x80#8])))).map
      (fun t => ((t.dec 0).olen, (t.dec 0).pb))) = some (2, [(0, 0xAA#8), (1, 0xAA#8)]) := by decide +kernel
/-- AppendWritesAndIsReadBack: an empty buffer, and a full one. -/
theorem wit_AppendWritesAndIsReadBack : Decoder.idle.olen ≤ Config.outMax ∧
    ({ Decoder.idle with olen := Config.outMax } : Decoder).olen = Config.outMax ∧ Decoder.idle.olen ≠ Config.outMax ∧
    Config.outMax < ({ Decoder.idle with olen := Config.outMax } : Decoder).olen + 2 ∧
    Decoder.idle.olen + 129 ≤ Config.outMax := by
  have h := outMax_ge
  have h0 : Decoder.idle.olen = 0 := rfl
  exact ⟨by omega, rfl, by omega, by simp, by omega⟩
/-- ChecksumUnitRequests, at the wrap. -/
theorem wit_ChecksumUnitRequests : (0x0000#16).toNat = ((0xFFFF#16).toNat + (0x01#8).toNat) % 65536 := by decide
/-- WhatTheSumSees: two orders, two bytes, and two changes that cancel at their bounds. -/
theorem wit_WhatTheSumSees : [0x01#8, 0x02#8].Perm [0x02#8, 0x01#8] ∧ (0x00#8 : Byte) ≠ 0x01#8 ∧ (0xFE#8 : Byte) ≠ 0xFF#8 ∧
    (0x01#8 : Byte) ≠ 0x00#8 := by decide
/-- DecoderSumIsCsum16 and NoResyncInsideAPacket: one byte of payload, from Command on. -/
theorem wit_DecoderSumIsCsum16 :
    (withDec (fed [0x88#8, 0x33#8])).dec 0 = { Decoder.idle with state := .command } ∧
    [0x41#8].length = (0x01#8).toNat + 256 * (0x00#8).toNat ∧
    (match feeds (withDec (fed [0x88#8, 0x33#8])) ([0x04#8, 0x00#8, 0x01#8, 0x00#8] ++ [0x41#8]) with
      | .next (u, es) => some ((u.dec 0).state, es)
      | .fault _ => none
      | .refused _ => none) = some (.checksumLow, List.replicate 5 .needMore) := by decide +kernel
theorem wit_NoResyncInsideAPacket :
    (match feeds (withDec (fed [0x88#8, 0x33#8])) ([0x04#8, 0x00#8, 0x02#8, 0x00#8] ++ [0x88#8, 0x33#8] ++ [0x00#8, 0x00#8]) with
      | .next (_, es) => some es
      | .fault _ => none
      | .refused _ => none) =
    some (List.replicate 7 .needMore ++ [.packet ⟨.data, false, [0x88#8, 0x33#8], false, false⟩]) := by decide +kernel
/-- The invariant of a decoder in Command. -/
theorem wit_command_inv : ({ Decoder.idle with state := .command } : Decoder).Inv := by decide +kernel
/-- SharedRequestsFrame. -/
theorem wit_SharedRequestsFrame : Instr.stpack.place = .port .shared ∧ (next? (exec .stpack State.reset)).isSome = true ∧
    (next? (exec .deviceId State.reset)).isSome = true := by decide
/-- RledDecompresses, second clause: runs that the compressor would not write (R165), and the longest ones. -/
theorem wit_RledDecompresses_runs :
    Runs.wf [.lit [0x05#8, 0x05#8], .lit [0x05#8], .rep 129 0x05#8, .rep 2 0x05#8] ∧
    Runs.wire [.lit [0x05#8, 0x05#8], .lit [0x05#8], .rep 129 0x05#8, .rep 2 0x05#8] =
      [0x01#8, 0x05#8, 0x05#8, 0x00#8, 0x05#8, 0xFF#8, 0x05#8, 0x80#8, 0x05#8] ∧
    Runs.out [.lit [0x05#8, 0x05#8], .lit [0x05#8], .rep 129 0x05#8, .rep 2 0x05#8] = List.replicate 134 0x05#8 ∧
    (List.replicate 134 0x05#8).length ≤ Config.outMax := by
  have h := outMax_ge
  exact ⟨by decide +kernel, by decide +kernel, by decide +kernel, by simp; omega⟩
/-- RledDecompresses, third clause: a literal tag that is one byte short and a repeat tag with no value, after a run. -/
theorem wit_RledDecompresses_malformed :
    Runs.wf [.lit [0x41#8]] ∧ (Runs.out [.lit [0x41#8]]).length ≤ Config.outMax ∧
    [0x00#8, 0x41#8, 0x01#8, 0x10#8] = Runs.wire [.lit [0x41#8]] ++ 0x01#8 :: [0x10#8] ∧
    ((0x01#8).toNat < 128 ∧ [0x10#8].length < (0x01#8).toNat + 1) ∧
    [0x00#8, 0x41#8, 0x80#8] = Runs.wire [.lit [0x41#8]] ++ 0x80#8 :: [] ∧ 128 ≤ (0x80#8).toNat := by
  have h := outMax_ge
  exact ⟨by decide, by rw [show (Runs.out [.lit [0x41#8]]).length = 1 from rfl]; omega, rfl, by decide, rfl, by decide⟩
/-- RledDecompresses, fourth clause: there is a stream that gives an error. -/
theorem wit_RledDecompresses_error : rleDecompress [0x80#8] = .error .malformedRLEStream := rfl
/-- RlecCompresses, second clause: the shortest run in front of another byte, and the longest in front of the same. -/
theorem wit_RlecCompresses_repeat : (2 ≤ 2 ∧ 2 ≤ 129 ∧ [0x02#8][0]? ≠ some 0x01#8) ∧
    (2 ≤ 129 ∧ 129 ≤ 129 ∧ [0x01#8][0]? = some 0x01#8) := by decide
/-- RlecCompresses, third clause: one byte before a pair, one byte at the end, and 128 bytes before one that differs. -/
theorem wit_RlecCompresses_literal :
    ((∀ i < [0x01#8].length, ([0x01#8] ++ [0x02#8, 0x02#8])[i]? ≠ ([0x01#8] ++ [0x02#8, 0x02#8])[i + 1]?) ∧
      [0x02#8, 0x02#8][0]? = [0x02#8, 0x02#8][1]?) ∧
    (∀ i < [0x01#8].length, ([0x01#8] ++ [])[i]? ≠ ([0x01#8] ++ [])[i + 1]?) ∧
    ((List.range 128).map (BitVec.ofNat 8)).length = 128 ∧
    (∀ i < 128, ((List.range 128).map (BitVec.ofNat 8) ++ [0x80#8])[i]? ≠
      ((List.range 128).map (BitVec.ofNat 8) ++ [0x80#8])[i + 1]?) := by decide +kernel
/-- CompressedSize: the runs of R162's [1, 2, 2, 3], two literal runs and one repeat run of 2. -/
theorem wit_CompressedSize :
    Runs.wf [.lit [1#8], .rep 2 2#8, .lit [3#8]] ∧ Runs.out [.lit [1#8], .rep 2 2#8, .lit [3#8]] = [1#8, 2#8, 2#8, 3#8] ∧
    Runs.wire [.lit [1#8], .rep 2 2#8, .lit [3#8]] = rleCompress [1#8, 2#8, 2#8, 3#8] ∧
    (rleCompress [1#8, 2#8, 2#8, 3#8]).length + (2 - 2) = 4 + 2 := by decide +kernel
/-- RledCornerCases. -/
theorem wit_RledCornerCases : (List.replicate 128 0x41#8).length = 128 := by simp
/-- ExpansionBound, where it is met with equality. -/
theorem wit_ExpansionBound : (rleDecompress [0xFF#8, 0x00#8]).toOption.map List.length = some (2 / 2 * 129) := by
  decide +kernel
/-- RlecCornerCases: 128 and 129 bytes that all differ (VC11, VC12). -/
theorem wit_RlecCornerCases : ((List.range 128).map (BitVec.ofNat 8)).Nodup ∧ ((List.range 128).map (BitVec.ofNat 8)).length = 128 ∧
    ((List.range 128).map (BitVec.ofNat 8) ++ [0x80#8]).Nodup := by decide +kernel
/-- RleRoundTrip: P2, requests 1 and 4. -/
theorem wit_RleRoundTrip :
    replyAfter .rlec .rle (withPorts [0x05#8, 0x05#8] Status.clear) = some (.ok (.bytes [0x80#8, 0x05#8])) ∧
    (withPorts [0x05#8, 0x05#8] Status.clear).operand.length ≤ Config.outMax ∧ [0x80#8, 0x05#8].length ≤ Config.operandMax := by
  refine ⟨by decide +kernel, ?_, ?_⟩
  · have := outMax_ge
    simp [withPorts]; omega
  · have := operandMax_ge
    simp; omega
/-- EncBuildsThePacket: every hypothesis but the last two defines its variable; VE6 meets all of them. -/
theorem wit_EncBuildsThePacket : (if true then rleCompress [] else []) = ([] : List Byte) ∧
    csum16 ([0x04#8, 0x01#8, 0x00#8, 0x00#8] ++ []) = 0x0005#16 := by decide
/-- EveryPacketDecodes: VD22, and a compressed payload of two bytes. -/
theorem wit_EveryPacketDecodes : State.reset.dec State.reset.link = Decoder.idle ∧ (2#16).toNat = [0x80#8, 0xAA#8].length ∧
    (rleDecompress [0x80#8, 0xAA#8]).toOption = some [0xAA#8, 0xAA#8] := by decide +kernel
/-- LoopbackLaw: VE1. -/
theorem wit_LoopbackLaw :
    replyAfter (.enc false 0x0F#8) .enc State.reset =
      some (.ok (.bytes [0x88#8, 0x33#8, 0x0F#8, 0x00#8, 0x00#8, 0x00#8, 0x0F#8, 0x00#8])) ∧
    Command.ofByte? 0x0F#8 = some .inquiry ∧ State.reset.operand.length ≤ Config.outMax ∧ 8 ≤ Config.operandMax ∧
    (State.reset.dec State.reset.link).Inv ∧ (State.reset.dec State.reset.link).state = .waitSync0 := by
  have h := operandMax_ge
  exact ⟨by decide +kernel, rfl, Nat.zero_le _, by omega, idle_inv, rfl⟩
/-- TrailingBytesAreNoise. -/
theorem wit_TrailingBytesAreNoise :
    let s := withPorts [0x00#8, 0x33#8] Status.clear
    (s.dec s.link).state = .waitSync0 ∧ 0x88#8 ∉ s.operand ∧ s.operand.length ≤ Config.operandMax := by
  have h := operandMax_ge
  exact ⟨rfl, by decide, Nat.le_trans (by decide) h⟩
/-- ResultWordLayout: a FEED and a TRAIL that complete. -/
theorem wit_ResultWordLayout : (next? (exec (.feed 0#8) State.reset)).isSome = true ∧ (next? (exec .trail State.reset)).isSome = true := by decide
/-- The words of R85 with the codes of R230: a FEED that aborts, a value, and a refusal. -/
theorem test_resultWord : (Reply.event (.error .malformedRLEStream)).word = 0x32#8 ∧ (Reply.ok .unit).word = 0x03#8 ∧
    (Reply.error .illegalRequest).word = 0x82#8 := by decide
/-- NoMismatchOrTruncationErrors, StepKeepsTheInvariant and DecoderInvariantsAfterEveryRequest: a state with a request that
meets the invariant and shows no reply, and its step. -/
theorem wit_invariants : (onLink0 0x10000088 []).Inv ∧ (onLink0 0x10000088 []).RepliesLegal ∧
    (next? (step (onLink0 0x10000088 []))).isSome = true ∧ 0 < Config.nLinks := by
  refine ⟨by decide, fun u r h => ?_, by decide, nLinks_pos⟩
  cases u <;> cases h
/-- DecoderInvariantsAfterEveryRequest, one state for each of its clauses. -/
theorem wit_DecoderInvariants :
    (fed [0x88#8, 0x33#8, 0x04#8, 0x00#8, 0x01#8, 0x00#8]).state = .payload ∧
    (fed [0x88#8, 0x33#8, 0x04#8, 0x00#8, 0x00#8, 0x00#8, 0x04#8]).state = .checksumHigh ∧
    (fed [0x88#8, 0x33#8, 0x04#8, 0x01#8, 0x02#8, 0x00#8, 0x00#8]).rleMode = .lit ∧
    (fed [0x88#8, 0x33#8, 0x04#8, 0x01#8, 0x02#8, 0x00#8, 0x80#8]).rleMode = .rep := by decide +kernel
/-- RunsFromResetNeverStop, second clause: reset, a request of each port. wit_invariants meets the first. -/
theorem wit_RunsFromResetNeverStop : ∀ x ∈ [HostInput.reset, .request ⟨.decoder 0, 0x20000000#32, [0x88#8], Status.clear⟩,
    .request ⟨.shared, 0xD0000000#32, [], Status.clear⟩], x.present = true := by decide
/-- LogicalPayloadIsBounded. -/
theorem wit_LogicalPayloadIsBounded : State.reset.dec State.reset.link = Decoder.idle ∧
    (match feeds State.reset [0x88#8] with
      | .next (_, es) => some es
      | .fault _ => none
      | .refused _ => none) = some [.needMore] := by decide
/-- RequestsDependOnTheirUnitOnly, first clause: FEED in two states that share the decoder and nothing else. -/
theorem wit_RequestsDependOnTheirUnitOnly_decoder : (Instr.feed 0x88#8).place ≠ .port .shared ∧ Instr.feed 0x88#8 ≠ .deviceId ∧
    (Instr.feed 0x88#8 = .feedn → State.reset.operand = (withPorts [0x01#8] Status.clear).operand) ∧
    State.reset.dec State.reset.link = (withPorts [0x01#8] Status.clear).dec (withPorts [0x01#8] Status.clear).link ∧
    (next? (exec (.feed 0x88#8) State.reset)).isSome = true := by
  exact ⟨by decide, by decide, nofun, rfl, by decide⟩
/-- RequestsDependOnTheirUnitOnly, second clause: RLED and DEVICE_ID in two states that differ in `CSU.acc`. -/
theorem wit_RequestsDependOnTheirUnitOnly_shared :
    let s' : State := { State.reset with csuAcc := 7#16 }
    Instr.rled.place = .port .shared ∧ State.reset.csuAcc ≠ s'.csuAcc ∧ State.reset.operand = s'.operand ∧
    State.reset.status = s'.status ∧
    (((∃ b, Instr.rled = .csadd b) ∨ ∃ v, Instr.rled = .cscmp v) → State.reset.csuAcc = s'.csuAcc) ∧
    (((∃ b, Instr.deviceId = .csadd b) ∨ ∃ v, Instr.deviceId = .cscmp v) → State.reset.csuAcc = s'.csuAcc) := by
  exact ⟨rfl, by decide, rfl, rfl, by rintro (⟨_, ⟨⟩⟩ | ⟨_, ⟨⟩⟩), by rintro (⟨_, ⟨⟩⟩ | ⟨_, ⟨⟩⟩)⟩
/-- RequestsOnDifferentPortsCommute: FEED on link 0 and CSCLR on the shared port. -/
theorem wit_RequestsOnDifferentPortsCommute : Port.decoder 0 ≠ .shared ∧
    ((next? (step { State.reset with inputs := [.request ⟨.decoder 0, 0x10000088#32, [], Status.clear⟩,
      .request ⟨.shared, 0x30000000#32, [], Status.clear⟩] })).bind (fun t => next? (step t))).isSome = true := by decide

end Sys2Proof.Tests
end

section
/-! PROOFS. The wire codes: the code word and the place of what a byte decodes to, and the FEED it runs as (O6). -/

namespace Sys2Proof.Machine

/-- The wire code of a command is well-formed, is met in Command, and has the command's byte as its code word. -/
theorem commandInstr_encoding (c : Command) :
    c.instr.wf = true ∧ c.instr.place = .wire .command ∧ encode c.instr = .wire c.toByte := by
  cases c <;> exact ⟨rfl, rfl, rfl⟩

/-- Whatever a byte decodes to at a wire place is a well-formed instruction of that place, with the byte as its code
word. -/
theorem decodeWire_encoding {p : WirePlace} {b : Byte} {i : Instr} (h : decodeWire p b = .ok i) :
    i.wf = true ∧ i.place = .wire p ∧ encode i = .wire b := by
  cases p <;> simp only [decodeWire] at h
  case waitSync0 | waitSync1 | response =>
    split_ifs at h with hb
    cases h
    exact ⟨rfl, rfl, congrArg CodeWord.wire hb.symm⟩
  case command =>
    split at h
    · next c hc =>
      cases h
      rw [← toByte_of_ofByte hc]
      exact commandInstr_encoding c
    · cases h
  case compression =>
    split at h
    case h_1 hf | h_2 hf => cases h; exact ⟨rfl, rfl, congrArg CodeWord.wire (compByte_of_ofByte hf)⟩
    case h_3 => cases h
  case rleTag =>
    have hw := tag_ofByte_wf b
    have hb := tag_toByte_ofByte b
    split at h
    all_goals
      next ht =>
      cases h
      rw [ht] at hw hb
      exact ⟨hw, rfl, congrArg CodeWord.wire hb⟩

/-- A wire code other than the device ID runs as the FEED of its byte. -/
theorem exec_of_encode_wire {i : Instr} {b : Byte} (he : encode i = .wire b) (hi : i ≠ .deviceId) (s : State) :
    exec i s = exec (.feed b) s := by
  cases i
  case deviceId => exact absurd rfl hi
  case sync0 | sync1 | cmdInit | cmdPrint | cmdData | cmdBreak | cmdInquiry | compRaw | compRle | rleLit | rleRep =>
    cases he; rfl
  all_goals cases he

end Sys2Proof.Machine

open Sys2Proof Sys2Proof.Machine

/-- Settles O6: the byte is the code word of what it decodes to, and only the response direction decodes to the
device ID. -/
theorem wireCodesRunInTheirCarriers : Obligations.WireCodesRunInTheirCarriers := by
  unfold Obligations.WireCodesRunInTheirCarriers
  refine ⟨fun s p b c hp h => ?_, fun s => rfl⟩
  obtain ⟨-, hplace, henc⟩ := decodeWire_encoding h
  refine exec_of_encode_wire henc ?_ s
  rintro rfl
  cases hplace
  exact hp rfl

end

section
/-! PROOFS. The logical payload is bounded (O58): the bytes written and the most that the rest of the wire budget can
still yield never add up to more than R62 allows. -/

namespace Sys2Proof.Machine

/-! ### What the rest of a compressed payload can yield -/

/-- The largest logical payload (R62): 32767 runs of two wire bytes, 129 logical bytes each. -/
def maxLogical : Nat := 32767 * 129

theorem maxLogical_eq : maxLogical = 4226943 := rfl

/-- The most that `rem` wire bytes can still write (R146) in the run state `mode` with count `n`: the run that is open,
and 129 bytes for every two wire bytes after it. -/
def runYield (mode : RleMode) (n rem : Nat) : Nat :=
  match mode with
  | .tag => rem / 2 * 129
  | .lit => n + (rem - n) / 2 * 129
  | .rep => n + (rem - 1) / 2 * 129

/-- An open literal run has a byte left, and the budget holds all of it (R33 (c)). -/
def litFits (mode : RleMode) (n rem : Nat) : Prop :=
  match mode with
  | .tag => True
  | .lit => 1 ≤ n ∧ n ≤ rem
  | .rep => True

/-- How many bytes a step of the line decoder writes. -/
def RleOut.size : RleOut → Nat
  | .nothing => 0
  | .one _ => 1
  | .copies _ n => n

/-- What a step of the line decoder writes is taken from what the budget could yield. -/
theorem rleStep_yield {mode mode' : RleMode} {cnt cnt' : Byte} {rem : Nat} {b : Byte} {out : RleOut}
    (hf : litFits mode cnt.toNat rem) (h : rleStep mode cnt (rem - 1) b = .ok (mode', cnt', out)) :
    out.size + runYield mode' cnt'.toNat (rem - 1) ≤ runYield mode cnt.toNat rem ∧
      litFits mode' cnt'.toNat (rem - 1) := by
  rcases rleStep_ok h with ⟨rfl, rfl, ⟨c, hc, hle, rfl, rfl⟩ | ⟨c, hc, hle, rfl, rfl⟩⟩ | ⟨rfl, rfl, rfl, rfl⟩ |
    ⟨rfl, rfl, rfl, rfl⟩
  · have hwf : c < 128 := by simpa [hc, Tag.wf] using tag_ofByte_wf b
    have hn : (BitVec.ofNat 8 (c + 1)).toNat = c + 1 := Nat.mod_eq_of_lt (by omega)
    simp only [litFits, runYield, RleOut.size, hn]
    omega
  · have hwf : c < 128 := by simpa [hc, Tag.wf] using tag_ofByte_wf b
    have hn : (BitVec.ofNat 8 (c + 2)).toNat = c + 2 := Nat.mod_eq_of_lt (by omega)
    simp only [litFits, runYield, RleOut.size, hn, and_true]
    omega
  · obtain ⟨hpos, hle⟩ := hf
    have hn := byte_sub_one hpos
    by_cases hz : cnt - 1#8 = 0#8
    · have := byte_eq_zero.mp hz
      simp only [hz, if_true, litFits, runYield, RleOut.size, and_true]
      omega
    · have := byte_eq_zero.not.mp hz
      simp only [hz, if_false, litFits, runYield, RleOut.size, hn]
      omega
  · simp [litFits, runYield, RleOut.size]

/-! ### The invariant -/

/-- The most that the rest of the payload can still write, by the compression flag (R62, R109). -/
def Decoder.yieldLeft (d : Decoder) : Nat :=
  if d.comp then runYield d.rleMode d.rleCnt.toNat d.rem.toNat else d.rem.toNat

/-- The logical payload stays within R62: nothing is written before Payload, and in Payload what is written and what can
still be written fit together. -/
def Decoder.WithinReach (d : Decoder) : Prop :=
  (d.state.beforePayload = true → d.olen = 0) ∧
  (d.state = .payload → 1 ≤ d.rem.toNat ∧ (d.comp = true → litFits d.rleMode d.rleCnt.toNat d.rem.toNat)) ∧
  d.olen + (if d.state = .payload then d.yieldLeft else 0) ≤ maxLogical

theorem idle_withinReach : Decoder.idle.WithinReach := ⟨fun _ => rfl, fun h => (nomatch h), Nat.zero_le _⟩

theorem ne_payload_of_beforePayload {t : DecState} (h : t.beforePayload = true) : t ≠ .payload := by
  rintro rfl
  cases h

theorem past_payload_of_inChecksum {t : DecState} (h : t.inChecksum = true) : t ≠ .payload ∧ t.beforePayload = false := by
  cases t
  case checksumLow | checksumHigh => exact ⟨nofun, rfl⟩
  all_goals cases h

section
variable {d : Decoder}

/-- In a raw payload every byte that remains writes one (R109). -/
theorem Decoder.WithinReach.raw (hd : d.WithinReach) (hs : d.state = .payload) (hc : d.comp = false) :
    1 ≤ d.rem.toNat ∧ d.olen + d.rem.toNat ≤ maxLogical := by
  obtain ⟨-, hpay, hsum⟩ := hd
  exact ⟨(hpay hs).1, by simpa [hs, hc, Decoder.yieldLeft] using hsum⟩

/-- In a compressed payload what remains writes what the open run and the runs after it can yield (R146). -/
theorem Decoder.WithinReach.compressed (hd : d.WithinReach) (hs : d.state = .payload) (hc : d.comp = true) :
    1 ≤ d.rem.toNat ∧ litFits d.rleMode d.rleCnt.toNat d.rem.toNat ∧
      d.olen + runYield d.rleMode d.rleCnt.toNat d.rem.toNat ≤ maxLogical := by
  obtain ⟨-, hpay, hsum⟩ := hd
  exact ⟨(hpay hs).1, (hpay hs).2 hc, by simpa [hs, hc, Decoder.yieldLeft] using hsum⟩

/-- A decoder that has not reached Payload and has written nothing is within reach. -/
theorem withinReach_of_beforePayload (hs : d.state.beforePayload = true) (ho : d.olen = 0) :
    d.WithinReach := by
  have hp := ne_payload_of_beforePayload hs
  exact ⟨fun _ => ho, fun h => absurd h hp, by simp [hp, ho]⟩

/-- After Payload only the bytes that have been written count. -/
theorem withinReach_of_inChecksum (hs : d.state.inChecksum = true) (ho : d.olen ≤ maxLogical) :
    d.WithinReach := by
  obtain ⟨hp, hb⟩ := past_payload_of_inChecksum hs
  exact ⟨fun h => absurd h (by simp [hb]), fun h => absurd h hp, by simpa [hp] using ho⟩

/-- The whole of a wire payload can yield no more than R62 allows. -/
theorem withinReach_of_payloadStart (hs : d.state = .payload) (hr : d.rem ≠ 0#16) (hm : d.rleMode = .tag)
    (ho : d.olen = 0) : d.WithinReach := by
  have hpos := half_eq_zero.not.mp hr
  have hlt := d.rem.isLt
  have hy : d.yieldLeft ≤ maxLogical := by
    unfold Decoder.yieldLeft maxLogical
    rw [hm]
    split_ifs
    · simp only [runYield]
      omega
    · omega
  exact ⟨fun _ => ho, fun _ => ⟨by omega, fun _ => by rw [hm]; trivial⟩, by simpa [hs, ho] using hy⟩

/-- Counting a payload byte down keeps a decoder within reach, if what the smaller budget can yield fits. -/
theorem countDown_withinReach (hs : d.state = .payload)
    (hf : d.comp = true → litFits d.rleMode d.rleCnt.toNat (d.rem - 1#16).toNat)
    (hsum : d.olen + { d with rem := d.rem - 1#16 }.yieldLeft ≤ maxLogical) : d.countDown.WithinReach := by
  by_cases hz : d.rem - 1#16 = 0#16
  · exact withinReach_of_inChecksum (by simp [Decoder.countDown, hz, DecState.inChecksum])
      (Nat.le_trans (Nat.le_add_right _ _) hsum)
  · have hpos := half_eq_zero.not.mp hz
    have hst : d.countDown.state = .payload := by simp [Decoder.countDown, hz, hs]
    refine ⟨fun h => ?_, fun _ => ⟨Nat.pos_of_ne_zero hpos, hf⟩, ?_⟩
    · simp [hst, DecState.beforePayload] at h
    · rw [if_pos hst]
      exact hsum

end

/-- Within reach, a payload byte leaves the decoder within reach: what it writes is taken from what the budget could
yield. -/
theorem feed_payload_withinReach {d d' : Decoder} {b : Byte} {e : Event} (hs : d.state = .payload) (hd : d.WithinReach)
    (h : d.feed b = .ok (d', e)) : d'.WithinReach := by
  rcases feed_payload hs h with ⟨rfl, -⟩ | ⟨vs, mode, cnt, -, rfl, -, ⟨hc, rfl, rfl, rfl⟩ | ⟨hc, out, hstep, hvs⟩⟩
  · exact idle_withinReach
  · obtain ⟨hpos, hsum⟩ := hd.raw hs hc
    refine countDown_withinReach hs (fun hc' => absurd hc' (by simp [hc])) ?_
    simp only [Decoder.yieldLeft, sum_comp, sum_rem, hc, Bool.false_eq_true, if_false, half_sub_one hpos,
      List.length_singleton]
    omega
  · obtain ⟨hpos, hfit, hsum⟩ := hd.compressed hs hc
    have hlen : vs.length = out.size := by
      rw [hvs]
      cases out <;> simp [RleOut.size]
    rw [half_sub_one hpos] at hstep
    obtain ⟨hyield, hfit'⟩ := rleStep_yield hfit hstep
    refine countDown_withinReach hs (fun _ => by simpa [half_sub_one hpos] using hfit') ?_
    simp only [Decoder.yieldLeft, sum_comp, sum_rem, hc, if_true, half_sub_one hpos, hlen]
    omega

/-- Every byte leaves a decoder within reach that was within reach. -/
theorem feed_withinReach {d d' : Decoder} {b : Byte} {e : Event} (hd : d.WithinReach) (h : d.feed b = .ok (d', e)) :
    d'.WithinReach := by
  have hbefore : d.state.beforePayload = true → d.olen = 0 := hd.1
  have hwritten : d.olen ≤ maxLogical := Nat.le_trans (Nat.le_add_right _ _) hd.2.2
  cases hs : d.state <;> simp only [hs, Decoder.feed, DecState.beforePayload, true_imp_iff] at h hbefore
  case payload => exact feed_payload_withinReach hs hd (by simpa only [Decoder.feed, hs] using h)
  case checksumHigh =>
    obtain ⟨rfl, -⟩ := feed_checksumHigh hs (by simpa only [Decoder.feed, hs] using h)
    exact idle_withinReach
  case checksumLow =>
    cases h
    exact withinReach_of_inChecksum rfl hwritten
  case waitSync0 =>
    cases h
    split_ifs
    · exact withinReach_of_beforePayload rfl hbefore
    · exact hd
  case waitSync1 =>
    cases h
    split_ifs
    all_goals exact withinReach_of_beforePayload rfl hbefore
  case command | compression =>
    simp only [Decoder.takeCommand, Decoder.takeCompression] at h
    split at h
    all_goals cases h
    · exact idle_withinReach
    · exact withinReach_of_beforePayload rfl hbefore
  case lenLow =>
    cases h
    exact withinReach_of_beforePayload rfl hbefore
  case lenHigh =>
    cases h
    by_cases hx : setHigh d.len b = 0#16
    · exact withinReach_of_inChecksum (by simp [hx, DecState.inChecksum]) hwritten
    · exact withinReach_of_payloadStart (by simp [hx]) hx rfl hbefore

/-! ### BufferOverflow -/

/-- An append is refused only when it would go beyond `OUT_MAX`. -/
theorem appendSeq_eq_none {d : Decoder} {vs : List Byte} (h : d.appendSeq vs = none) :
    Config.outMax < d.olen + vs.length := by
  by_contra hle
  rw [appendSeq_of_le d (Nat.le_of_not_lt hle)] at h
  cases h

theorem emit_eq_none {d : Decoder} {out : RleOut} (h : d.emit out = none) : Config.outMax < d.olen + out.size := by
  cases out with
  | nothing => cases h
  | one v => exact appendSeq_eq_none h
  | copies v n => simpa [RleOut.size] using appendSeq_eq_none h

/-- RleStep in a decoder raises BufferOverflow only when what the line decoder writes would go beyond `OUT_MAX`. -/
theorem decoderRleStep_bufferOverflow {d : Decoder} {b : Byte} (h : d.rleStep b = .error .bufferOverflow) :
    ∃ mode cnt out, rleStep d.rleMode d.rleCnt (d.rem - 1#16).toNat b = .ok (mode, cnt, out) ∧
      Config.outMax < d.olen + out.size := by
  unfold Decoder.rleStep at h
  split at h
  · next k hk =>
    cases h
    cases (rleStep_error hk).2
  · next mode cnt out hstep =>
    split at h
    · next hnone => exact ⟨mode, cnt, out, hstep, emit_eq_none hnone⟩
    · cases h

/-- BufferOverflow is raised only for a payload byte that would write beyond `OUT_MAX`. -/
theorem feed_bufferOverflow {d d' : Decoder} {b : Byte} (h : d.feed b = .ok (d', .error .bufferOverflow)) :
    d.state = .payload ∧
      ((d.comp = false ∧ Config.outMax < d.olen + 1) ∨
        (d.comp = true ∧ ∃ mode cnt out, rleStep d.rleMode d.rleCnt (d.rem - 1#16).toNat b = .ok (mode, cnt, out) ∧
          Config.outMax < d.olen + out.size)) := by
  cases hs : d.state <;> simp only [hs, Decoder.feed] at h
  case payload =>
    refine ⟨rfl, ?_⟩
    cases hc : d.comp <;> simp only [hc, if_true, Bool.false_eq_true, if_false] at h
    case false =>
      unfold Decoder.takeRaw at h
      split at h
      · next hnone => exact .inl ⟨rfl, appendSeq_eq_none hnone⟩
      · cases h
    case true =>
      unfold Decoder.takeCompressed at h
      split at h
      · next k hk =>
        cases h
        exact .inr ⟨rfl, decoderRleStep_bufferOverflow (d := d.sum b) hk⟩
      · cases h
  case command | compression | checksumHigh =>
    simp only [Decoder.takeCommand, Decoder.takeCompression, Decoder.takeChecksumHigh] at h
    split at h <;> cases h
  case waitSync0 | waitSync1 | lenLow | lenHigh | checksumLow => cases h

/-- Within reach, and with a buffer that holds the largest payload, no byte raises BufferOverflow (R234). -/
theorem feed_ne_bufferOverflow {d d' : Decoder} {b : Byte} {e : Event} (hd : d.WithinReach)
    (hmax : maxLogical ≤ Config.outMax) (h : d.feed b = .ok (d', e)) : e ≠ .error .bufferOverflow := by
  rintro rfl
  obtain ⟨hs, ⟨hc, hgt⟩ | ⟨hc, mode, cnt, out, hstep, hgt⟩⟩ := feed_bufferOverflow h
  · obtain ⟨hpos, hsum⟩ := hd.raw hs hc
    omega
  · obtain ⟨hpos, hfit, hsum⟩ := hd.compressed hs hc
    rw [half_sub_one hpos] at hstep
    obtain ⟨hyield, -⟩ := rleStep_yield hfit hstep
    omega

/-! ### Sequences of bytes -/

/-- A sequence of bytes keeps a decoder within reach, so none of its bytes overflows a buffer that holds the largest
payload. -/
theorem feedAll_withinReach : ∀ {bs : List Byte} {d d' : Decoder} {es : List Event}, d.WithinReach →
    d.feedAll bs = .ok (d', es) →
    d'.WithinReach ∧ (maxLogical ≤ Config.outMax → Event.error .bufferOverflow ∉ es)
  | [], _, _, _, hd, h => by
    cases h
    exact ⟨hd, fun _ => List.not_mem_nil⟩
  | b :: bs, _, _, _, hd, h => by
    obtain ⟨d1, e, es', h1, h2, rfl⟩ := feedAll_cons h
    obtain ⟨hd', hes⟩ := feedAll_withinReach (feed_withinReach hd h1) h2
    exact ⟨hd', fun hmax => List.not_mem_cons_of_ne_of_not_mem (feed_ne_bufferOverflow hd hmax h1).symm (hes hmax)⟩

/-- The FEED requests of a byte sequence do to the selected link's decoder what feeding it the sequence does, and list
the same events (R93). -/
theorem feeds_next : ∀ {bs : List Byte} {s u : State} {es : List Event}, feeds s bs = .next (u, es) →
    u.link = s.link ∧ (s.dec s.link).feedAll bs = .ok (u.dec s.link, es)
  | [], _, _, _, h => by
    cases h
    exact ⟨rfl, rfl⟩
  | b :: bs, s, u, es, h => by
    unfold feeds at h
    split at h
    · cases h
    · cases h
    · next t ht =>
      obtain ⟨d, e, hd, rfl⟩ := feedByte_next ht
      split at h
      · cases h
      · cases h
      · next u' es' hu =>
        obtain ⟨hl, hall⟩ := feeds_next hu
        simp only [returnFrom_link, dec_returnFrom_same] at hl hall
        simp only [replyOf_returnFrom_same] at h
        cases h
        exact ⟨hl, by simp only [Decoder.feedAll, hd, hall]⟩

end Sys2Proof.Machine

open Sys2Proof Sys2Proof.Machine

/-- Settles O58: by induction over the bytes, an idle decoder stays within the reach of R62, where no append overflows. -/
theorem logicalPayloadIsBounded : Obligations.LogicalPayloadIsBounded := by
  unfold Obligations.LogicalPayloadIsBounded
  intro s u bs es hidle hfeeds
  obtain ⟨-, hall⟩ := feeds_next hfeeds
  rw [hidle] at hall
  obtain ⟨⟨-, -, hsum⟩, hover⟩ := feedAll_withinReach idle_withinReach hall
  rw [maxLogical_eq] at hsum hover
  exact ⟨by omega, hover⟩

end

section
/-! PROOFS. Every byte keeps the invariant of a decoder: what the invariant says before Payload, in it and after it, and
that the line decoder keeps the bounds of an open run. -/

namespace Sys2Proof.Machine

/-! ### The bounds of an open run -/

/-- The count of an open run fits its kind and the budget (R29, R33 (c), (d)). -/
def runFits (mode : RleMode) (n rem : Nat) : Prop :=
  match mode with
  | .tag => n = 0
  | .lit => 1 ≤ n ∧ n ≤ 128 ∧ n ≤ rem
  | .rep => 2 ≤ n ∧ n ≤ 129 ∧ 1 ≤ rem

/-- The run part of the invariant: the bounds of the count, and that a run is open in a compressed payload only. -/
theorem runSound_iff {d : Decoder} : d.runSound ↔
    runFits d.rleMode d.rleCnt.toNat d.rem.toNat ∧ (d.rleMode ≠ .tag → d.state = .payload ∧ d.comp = true) := by
  unfold Decoder.runSound
  cases d.rleMode <;> simp [runFits, byte_eq_zero]

/-- No run is open when the budget is used up. -/
theorem runFits_zero {mode : RleMode} {n : Nat} (h : runFits mode n 0) : mode = .tag ∧ n = 0 := by
  cases mode <;> simp only [runFits] at h
  case tag => exact ⟨rfl, h⟩
  all_goals omega

/-- A step of the line decoder keeps the bounds of the run, with the budget one byte smaller. -/
theorem rleStep_runFits {mode mode' : RleMode} {cnt cnt' : Byte} {rem : Nat} {b : Byte} {out : RleOut}
    (hf : runFits mode cnt.toNat rem) (h : rleStep mode cnt (rem - 1) b = .ok (mode', cnt', out)) :
    runFits mode' cnt'.toNat (rem - 1) := by
  rcases rleStep_ok h with ⟨rfl, -, ⟨c, hc, hle, rfl, rfl⟩ | ⟨c, hc, hle, rfl, rfl⟩⟩ | ⟨rfl, -, rfl, rfl⟩ |
    ⟨-, -, rfl, rfl⟩
  · have hwf : c < 128 := by simpa [hc, Tag.wf] using tag_ofByte_wf b
    have hn : (BitVec.ofNat 8 (c + 1)).toNat = c + 1 := Nat.mod_eq_of_lt (by omega)
    simp only [runFits, hn]
    omega
  · have hwf : c < 128 := by simpa [hc, Tag.wf] using tag_ofByte_wf b
    have hn : (BitVec.ofNat 8 (c + 2)).toNat = c + 2 := Nat.mod_eq_of_lt (by omega)
    simp only [runFits, hn]
    omega
  · obtain ⟨hpos, hcap, hle⟩ := hf
    have hn := byte_sub_one hpos
    split_ifs with hz
    · exact byte_eq_zero.mp hz
    · have := byte_eq_zero.not.mp hz
      simp only [runFits, hn] at this ⊢
      omega
  · rfl

/-! ### The invariant, by the part of the packet -/

/-- What the invariant asks of a decoder from Compression on, whatever has been taken: a command is latched, and the
buffer holds exactly the bytes written (R22, R30, R31). -/
def Decoder.contentSound (d : Decoder) : Prop :=
  (Command.ofByte? d.cmd).isSome ∧ d.pb.map Prod.fst = List.range d.olen ∧ d.olen ≤ Config.outMax

section
variable {d : Decoder}

theorem Decoder.Inv.buffer (h : d.Inv) : d.pb.map Prod.fst = List.range d.olen ∧ d.olen ≤ Config.outMax := by
  obtain ⟨-, -, -, -, -, hpb, hmax, -⟩ := h
  exact ⟨hpb, hmax⟩

theorem Decoder.Inv.contentSound (h : d.Inv) (hs : d.state.upToCommand = false) : d.contentSound := by
  have hbuf := h.buffer
  obtain ⟨-, hcmd, -⟩ := h
  exact ⟨hcmd (by simp [hs]), hbuf⟩

theorem Decoder.Inv.eq_idle (h : d.Inv) (hs : d.state.upToCommand = true) :
    d = { Decoder.idle with state := d.state } := by
  obtain ⟨hidle, -⟩ := h
  exact hidle hs

theorem Decoder.Inv.olen_eq_zero (h : d.Inv) (hs : d.state.beforePayload = true) : d.olen = 0 := by
  obtain ⟨-, -, hunwritten, -⟩ := h
  exact hunwritten hs

theorem Decoder.Inv.rem_eq_zero (h : d.Inv) (hs : d.state.inChecksum = true) : d.rem = 0#16 := by
  obtain ⟨-, -, -, ⟨-, hbudget⟩, -⟩ := h
  exact (hbudget hs).1

/-- Outside a payload no run is open. -/
theorem Decoder.Inv.noRun (h : d.Inv) (hs : d.state ≠ .payload) : d.rleMode = .tag ∧ d.rleCnt = 0#8 := by
  obtain ⟨-, -, -, -, ⟨htag, -, -, hopen⟩, -⟩ := h
  have hm : d.rleMode = .tag := by
    by_contra hne
    exact hs (hopen hne).1
  exact ⟨hm, htag hm⟩

/-- Until the command byte is taken, only `DEC.state` differs from the idle values. -/
theorem inv_of_upToCommand {t : DecState} (hs : t.upToCommand = true) : { Decoder.idle with state := t }.Inv := by
  cases t
  case waitSync0 | waitSync1 | command =>
    exact ⟨fun _ => rfl, fun h => absurd h (by decide), fun _ => rfl, ⟨nofun, nofun⟩,
      ⟨fun _ => rfl, nofun, nofun, fun h => absurd rfl h⟩, rfl, Nat.zero_le _, fun _ => nofun⟩
  all_goals cases hs

/-- Between the command byte and Payload nothing is written and no run is open. -/
theorem inv_of_header (hs : d.state.beforePayload = true) (hu : d.state.upToCommand = false) (hc : d.contentSound)
    (ho : d.olen = 0) (hm : d.rleMode = .tag) (hn : d.rleCnt = 0#8) : d.Inv := by
  obtain ⟨hcmd, hpb, hmax⟩ := hc
  have hp := ne_payload_of_beforePayload hs
  refine ⟨fun h => ?_, fun _ => hcmd, fun _ => ho, ⟨fun h => absurd h hp, fun h => ?_⟩,
    runSound_iff.mpr ⟨by simp [runFits, hm, hn], fun h => absurd hm h⟩, hpb, hmax, fun _ h => absurd h hp⟩
  · simp [hu] at h
  · simp [(past_payload_of_inChecksum h).2] at hs

/-- In Payload the budget and the run are within their bounds. -/
theorem inv_of_payload (hs : d.state = .payload) (hc : d.contentSound) (hlow : 1 ≤ d.rem.toNat)
    (hhigh : d.rem.toNat ≤ d.len.toNat) (hrun : d.runSound)
    (hraw : d.comp = false → d.olen = d.len.toNat - d.rem.toNat) : d.Inv := by
  obtain ⟨hcmd, hpb, hmax⟩ := hc
  refine ⟨fun h => ?_, fun _ => hcmd, fun h => absurd hs (ne_payload_of_beforePayload h),
    ⟨fun _ => ⟨hlow, hhigh⟩, fun h => absurd hs (past_payload_of_inChecksum h).1⟩, hrun, hpb, hmax, fun h _ => hraw h⟩
  simp [hs, DecState.upToCommand] at h

/-- After Payload the budget is used up and no run is open. -/
theorem inv_of_inChecksum (hs : d.state.inChecksum = true) (hc : d.contentSound) (hr : d.rem = 0#16)
    (hm : d.rleMode = .tag) (hn : d.rleCnt = 0#8) : d.Inv := by
  obtain ⟨hcmd, hpb, hmax⟩ := hc
  obtain ⟨hp, hb⟩ := past_payload_of_inChecksum hs
  refine ⟨fun h => ?_, fun _ => hcmd, fun h => absurd h (by simp [hb]), ⟨fun h => absurd h hp, fun _ => ⟨hr, hm⟩⟩,
    runSound_iff.mpr ⟨by simp [runFits, hm, hn], fun h => absurd hm h⟩, hpb, hmax, fun _ h => absurd h hp⟩
  cases ht : d.state <;> simp [ht, DecState.upToCommand, DecState.inChecksum] at h hs

/-- Counting a payload byte down gives the invariant, if the run and the raw payload fit the smaller budget. -/
theorem countDown_inv (hs : d.state = .payload) (hc : d.contentSound) (hlow : 1 ≤ d.rem.toNat)
    (hhigh : d.rem.toNat ≤ d.len.toNat) (hrun : runFits d.rleMode d.rleCnt.toNat (d.rem.toNat - 1))
    (hopen : d.rleMode ≠ .tag → d.comp = true)
    (hraw : d.comp = false → d.olen = d.len.toNat - (d.rem.toNat - 1)) : d.countDown.Inv := by
  have hrem := half_sub_one hlow
  by_cases hz : d.rem - 1#16 = 0#16
  · rw [half_eq_zero, hrem] at hz
    rw [hz] at hrun
    obtain ⟨hm, hn⟩ := runFits_zero hrun
    have hr : d.rem - 1#16 = 0#16 := half_eq_zero.mpr (hrem.trans hz)
    exact inv_of_inChecksum (by simp [Decoder.countDown, hr, DecState.inChecksum]) hc hr hm (byte_eq_zero.mpr hn)
  · have hst : d.countDown.state = .payload := by simp [Decoder.countDown, hz, hs]
    have hpos := half_eq_zero.not.mp hz
    have hr : d.countDown.rem.toNat = d.rem.toNat - 1 := hrem
    refine inv_of_payload hst hc (by omega) ?_ (runSound_iff.mpr ⟨?_, fun h => ⟨hst, hopen h⟩⟩) (fun h => ?_)
    · exact hr.trans_le (Nat.le_trans (Nat.sub_le _ _) hhigh)
    · rw [hr]
      exact hrun
    · rw [hr]
      exact hraw h

end

/-! ### One byte -/

/-- A payload byte keeps the invariant. -/
theorem feed_payload_inv {d d' : Decoder} {b : Byte} {e : Event} (hs : d.state = .payload) (hd : d.Inv)
    (h : d.feed b = .ok (d', e)) : d'.Inv := by
  obtain ⟨hcmd, hpb, hmax⟩ := hd.contentSound (by simp [hs, DecState.upToCommand])
  obtain ⟨-, -, -, ⟨hbudget, -⟩, hrun, -, -, hraw⟩ := hd
  obtain ⟨hlow, hhigh⟩ := hbudget hs
  obtain ⟨hfits, hopen⟩ := runSound_iff.mp hrun
  rcases feed_payload hs h with ⟨rfl, -⟩ | ⟨vs, mode, cnt, -, rfl, hcap, hcase⟩
  · exact idle_inv
  · have hcontent : { d.sum b with
        pb := d.pb.writeSeq d.olen vs, olen := d.olen + vs.length, rleMode := mode, rleCnt := cnt }.contentSound := by
      refine ⟨hcmd, map_fst_writeSeq vs d.pb d.olen hpb, ?_⟩
      rcases hcap with rfl | hcap
      · exact hmax
      · exact hcap
    rcases hcase with ⟨hc, rfl, rfl, rfl⟩ | ⟨hc, out, hstep, -⟩
    · have hm : d.rleMode = .tag := by
        by_contra hne
        simp [(hopen hne).2] at hc
      refine countDown_inv hs hcontent hlow hhigh ?_ (fun hne => absurd hm hne) (fun _ => ?_)
      · simpa [hm, runFits] using hfits
      · have := hraw hc hs
        simp only [sum_len, sum_rem, List.length_singleton]
        omega
    · rw [half_sub_one hlow] at hstep
      exact countDown_inv hs hcontent hlow hhigh (rleStep_runFits hfits hstep) (fun _ => hc)
        (fun hc' => absurd hc (by simpa using hc'))

/-- A byte that completes keeps the invariant of the decoder it is fed to. -/
theorem feed_inv {d d' : Decoder} {b : Byte} {e : Event} (hd : d.Inv) (h : d.feed b = .ok (d', e)) : d'.Inv := by
  have hidle := hd.eq_idle
  have hcontent := hd.contentSound
  have hunwritten := hd.olen_eq_zero
  have hrun := hd.noRun
  cases hs : d.state
  case payload => exact feed_payload_inv hs hd h
  case checksumHigh =>
    obtain ⟨rfl, -⟩ := feed_checksumHigh hs h
    exact idle_inv
  all_goals simp only [hs, Decoder.feed] at h hidle hcontent hunwritten hrun
  case waitSync0 =>
    cases h
    split_ifs
    · rw [hidle rfl]
      exact inv_of_upToCommand rfl
    · exact hd
  case waitSync1 =>
    cases h
    rw [hidle rfl]
    split_ifs
    all_goals exact inv_of_upToCommand rfl
  case command =>
    simp only [Decoder.takeCommand] at h
    split at h
    · cases h
      exact idle_inv
    · next c hc =>
      cases h
      exact inv_of_header rfl rfl ⟨by simp [hc], hd.buffer⟩ (hunwritten rfl) (hrun nofun).1 (hrun nofun).2
  case compression =>
    simp only [Decoder.takeCompression] at h
    split at h
    all_goals cases h
    · exact idle_inv
    · exact inv_of_header rfl rfl (hcontent rfl) (hunwritten rfl) (hrun nofun).1 (hrun nofun).2
  case lenLow =>
    cases h
    exact inv_of_header rfl rfl (hcontent rfl) (hunwritten rfl) (hrun nofun).1 (hrun nofun).2
  case lenHigh =>
    cases h
    have ho : d.olen = 0 := hunwritten rfl
    by_cases hx : setHigh d.len b = 0#16
    · exact inv_of_inChecksum (by simp [hx, DecState.inChecksum]) (hcontent rfl) hx rfl rfl
    · have hpos := half_eq_zero.not.mp hx
      exact inv_of_payload (by simp [hx]) (hcontent rfl) (Nat.pos_of_ne_zero hpos) (Nat.le_refl _)
        (runSound_iff.mpr ⟨rfl, fun h => absurd rfl h⟩) (fun _ => ho.trans (Nat.sub_self _).symm)
  case checksumLow =>
    have hbudget := hd.rem_eq_zero (by rw [hs]; rfl)
    cases h
    exact inv_of_inChecksum rfl (hcontent rfl) hbudget (hrun nofun).1 (hrun nofun).2

/-- Under the invariant every byte completes: the command latch holds a command when the packet is emitted. -/
theorem feed_completes {d : Decoder} (hd : d.Inv) (b : Byte) : ∃ d' e, d.feed b = .ok (d', e) := by
  cases h : d.feed b with
  | ok p => exact ⟨p.1, p.2, rfl⟩
  | error f =>
    obtain ⟨hs, hnone, -⟩ := feed_error h
    obtain ⟨hcmd, -⟩ := hd.contentSound (by simp [hs, DecState.upToCommand])
    simp [hnone] at hcmd

/-! ### A sequence of bytes -/

theorem feedAll_inv : ∀ {bs : List Byte} {d d' : Decoder} {es : List Event}, d.Inv → d.feedAll bs = .ok (d', es) → d'.Inv
  | [], _, _, _, hd, h => by
    cases h
    exact hd
  | _ :: _, _, _, _, hd, h => by
    obtain ⟨d1, e, es', h1, h2, rfl⟩ := feedAll_cons h
    exact feedAll_inv (feed_inv hd h1) h2

theorem feedAll_completes : ∀ (bs : List Byte) {d : Decoder}, d.Inv → ∃ d' es, d.feedAll bs = .ok (d', es)
  | [], d, _ => ⟨d, [], rfl⟩
  | b :: bs, d, hd => by
    obtain ⟨d1, e, h1⟩ := feed_completes hd b
    obtain ⟨d2, es, h2⟩ := feedAll_completes bs (feed_inv hd h1)
    exact ⟨d2, e :: es, by simp only [Decoder.feedAll, h1, h2]⟩

end Sys2Proof.Machine
end

section
/-! PROOFS. What an instruction does: a byte fed to the selected link's decoder, FEEDN, DRST, or a request of the units
without a decoder. So every instruction completes (O23), and the shared requests leave the links alone (O36). -/

namespace Sys2Proof.Machine

/-- Every instruction is DRST, FEEDN, the FEED of one byte (FEED itself and the wire codes), or a request of the shared
port or the sending of the device ID. -/
theorem exec_kinds (i : Instr) : i = .drst ∨ i = .feedn ∨ (∃ b, ∀ s, exec i s = s.feedByte b) ∨
    (i.place = .port .shared ∨ i = .deviceId) := by
  cases i
  case drst => exact .inl rfl
  case feedn => exact .inr (.inl rfl)
  case feed b => exact .inr (.inr (.inl ⟨b, fun _ => rfl⟩))
  case sync0 | sync1 | cmdInit | cmdPrint | cmdData | cmdBreak | cmdInquiry | compRaw | compRle | rleLit | rleRep =>
    exact .inr (.inr (.inl ⟨_, exec_of_encode_wire rfl nofun⟩))
  case deviceId => exact .inr (.inr (.inr (.inr rfl)))
  all_goals exact .inr (.inr (.inr (.inl rfl)))

theorem exec_shared_completes {i : Instr} (hi : i.place = .port .shared ∨ i = .deviceId) (s : State) :
    ∃ t, exec i s = .next t := by
  cases i
  case drst | feed | feedn | sync0 | sync1 | cmdInit | cmdPrint | cmdData | cmdBreak | cmdInquiry | compRaw | compRle |
      rleLit | rleRep =>
    rcases hi with hi | hi
    all_goals cases hi
  all_goals exact ⟨_, rfl⟩

/-- Feeding one byte completes when the selected link's decoder meets the invariant. -/
theorem feedByte_completes {s : State} (hd : (s.dec s.link).Inv) (b : Byte) : ∃ t, s.feedByte b = .next t := by
  obtain ⟨d, e, h⟩ := feed_completes hd b
  exact ⟨_, exec_feed_of h⟩

theorem execFeedn_completes {s : State} (hd : (s.dec s.link).Inv) : ∃ t, execFeedn s = .next t := by
  by_cases hl : Config.operandMax < s.operand.length
  · exact ⟨s.answer (.dec s.link) (.error .illegalRequest), by simp [execFeedn, operandTooLong_eq, hl]⟩
  · obtain ⟨d, es, h⟩ := feedAll_completes s.operand hd
    exact ⟨_, execFeedn_of (Nat.le_of_not_lt hl) h⟩

/-- A result of a unit without a decoder changes no link. -/
theorem answer_links {s : State} {u : UnitName} (hu : ∀ j, u ≠ .dec j) (r : Reply) : (s.answer u r).links = s.links := by
  cases u
  case dec j => exact absurd rfl (hu j)
  all_goals rfl

@[simp] theorem replyOf_setCsuAcc (s : State) (v : Half) (u : UnitName) : (s.setCsuAcc v).replyOf u = s.replyOf u := by
  cases u <;> rfl

end Sys2Proof.Machine

open Sys2Proof Sys2Proof.Machine

/-- Settles O23, by the kinds of instruction: a FEED under the invariant completes, and nothing else can stop. -/
theorem everyInstructionCompletes : Obligations.EveryInstructionCompletes := by
  unfold Obligations.EveryInstructionCompletes
  intro i s hd
  rcases exec_kinds i with rfl | rfl | ⟨b, hb⟩ | hi
  · exact ⟨_, rfl⟩
  · exact execFeedn_completes hd
  · rw [hb s]
    exact feedByte_completes hd b
  · exact exec_shared_completes hi s

/-- Settles O36: such a request writes `CSU.acc` and one result at most. -/
theorem sharedRequestsFrame : Obligations.SharedRequestsFrame := by
  unfold Obligations.SharedRequestsFrame
  intro i s t hi h
  obtain ⟨v, r, rfl, hu, -, hv⟩ := exec_shared hi h
  exact ⟨answer_links hu r, answer_link _ _ _, answer_operand _ _ _, answer_status _ _ _, answer_inputs _ _ _,
    fun hn => (answer_csuAcc _ _ _).trans (hv hn),
    fun w hw => (replyOf_answer_ne _ _ _ hw).trans (replyOf_setCsuAcc s v w)⟩

end

section
/-! PROOFS. Every step keeps the invariant of the core (O55, O56), which holds after reset (O54): each update of the state
that a step is made of keeps it. What the reset input does (O9). -/

namespace Sys2Proof.Machine

/-! ### The reset input -/

theorem risingAbove_idleLinks : ∀ {ls : List (Nat × Link)} {k : Nat}, risingAbove k ls = true →
    risingAbove k (idleLinks ls) = true
  | [], _, _ => rfl
  | (a, l) :: t, k, h => by
    simp only [risingAbove, Bool.and_eq_true, decide_eq_true_eq] at h
    obtain ⟨hka, ht⟩ := h
    have hrest := risingAbove_idleLinks ht
    unfold idleLinks
    split_ifs
    · exact risingAbove_mono (Nat.le_of_lt hka) hrest
    · simp [risingAbove, hka, hrest]

theorem rising_idleLinks : ∀ {ls : List (Nat × Link)}, rising ls = true → rising (idleLinks ls) = true
  | [], _ => rfl
  | (a, l) :: t, h => by
    have hrest := risingAbove_idleLinks (show risingAbove a t = true from h)
    unfold idleLinks
    split_ifs
    · exact rising_of_risingAbove hrest
    · exact hrest

/-- A link that is listed after the reset input was listed before, is idle and shows a result. -/
theorem mem_idleLinks {p : Nat × Link} : ∀ {ls : List (Nat × Link)}, p ∈ idleLinks ls →
    (∃ l, (p.1, l) ∈ ls) ∧ p.2.dec = Decoder.idle ∧ p.2.reply ≠ none
  | [], h => absurd h List.not_mem_nil
  | (a, l) :: t, h => by
    unfold idleLinks at h
    split_ifs at h with hl
    · obtain ⟨⟨m, hm⟩, hp⟩ := mem_idleLinks h
      exact ⟨⟨m, List.mem_cons_of_mem _ hm⟩, hp⟩
    · rcases List.mem_cons.mp h with rfl | h
      · exact ⟨⟨l, List.mem_cons_self⟩, rfl, hl⟩
      · obtain ⟨⟨m, hm⟩, hp⟩ := mem_idleLinks h
        exact ⟨⟨m, List.mem_cons_of_mem _ hm⟩, hp⟩

theorem step_reset {s : State} {rest : List HostInput} (hi : s.inputs = .reset :: rest) :
    step s = .next (s.withInputs rest).assertReset := by
  unfold step
  rw [hi]

/-! ### The updates of the state -/

/-- Every decoder of a machine that meets the invariant meets its own. -/
theorem State.Inv.dec {s : State} (h : s.Inv) (i : Nat) : (s.dec i).Inv := by
  obtain ⟨-, hlinks, -⟩ := h
  unfold State.dec State.getLink
  cases hf : findKey i s.links with
  | none => exact idle_inv
  | some l => exact (hlinks (i, l) (mem_of_findKey hf)).2.2

theorem State.Inv.link_lt {s : State} (h : s.Inv) : s.link < Config.nLinks := by
  obtain ⟨-, -, hlink, -⟩ := h
  exact hlink

section
variable {s : State}

theorem setLink_inv (h : s.Inv) {i : Nat} {l : Link} (hi : i < Config.nLinks) (hl : l.dec.Inv) : (s.setLink i l).Inv := by
  obtain ⟨hrising, hlinks, hlink, hinputs⟩ := h
  refine ⟨rising_setLink s i l hrising, fun p hp => ?_, hlink, hinputs⟩
  rcases mem_setLink s i l hp with ⟨rfl, hfresh⟩ | hp
  · exact ⟨hi, hfresh, hl⟩
  · exact hlinks p hp

theorem returnFrom_inv (h : s.Inv) {d : Decoder} (hd : d.Inv) (r : Reply) : (s.returnFrom d r).Inv :=
  setLink_inv h h.link_lt hd

theorem answer_inv (h : s.Inv) {u : UnitName} (hu : ∀ j, u = .dec j → j < Config.nLinks) (r : Reply) :
    (s.answer u r).Inv := by
  cases u
  case dec j => exact setLink_inv h (hu j rfl) (h.dec j)
  all_goals exact h

theorem withInputs_inv (h : s.Inv) {x : HostInput} {rest : List HostInput} (hi : s.inputs = x :: rest) :
    (s.withInputs rest).Inv := by
  obtain ⟨hrising, hlinks, hlink, hinputs⟩ := h
  exact ⟨hrising, hlinks, hlink, fun y hy => hinputs y (hi ▸ List.mem_cons_of_mem x hy)⟩

theorem attach_inv (h : s.Inv) {r : Request} (hr : r.port.present = true) : (s.attach r).Inv := by
  obtain ⟨hrising, hlinks, hlink, hinputs⟩ := h
  refine ⟨hrising, hlinks, ?_, hinputs⟩
  rw [attach_link]
  cases hp : r.port with
  | shared => exact hlink
  | decoder i =>
    rw [hp] at hr
    exact of_decide_eq_true hr

theorem assertReset_inv (h : s.Inv) : s.assertReset.Inv := by
  obtain ⟨hrising, hlinks, hlink, hinputs⟩ := h
  refine ⟨rising_idleLinks hrising, fun p hp => ?_, hlink, hinputs⟩
  obtain ⟨⟨l, hl⟩, hidle, hreply⟩ := mem_idleLinks hp
  exact ⟨(hlinks _ hl).1, fun hfresh => hreply (by rw [hfresh]; rfl), by rw [hidle]; exact idle_inv⟩

/-- The unit that a port's refusals go to is a link there is, or no decoder. -/
theorem refusalTo_lt {p : Port} (hp : p.present = true) (j : Nat) (hj : p.refusalTo = .dec j) : j < Config.nLinks := by
  cases p with
  | shared => cases hj
  | decoder i =>
    cases hj
    exact of_decide_eq_true hp

end

/-! ### Instructions and steps -/

/-- Every instruction that completes keeps the invariant. -/
theorem exec_inv {i : Instr} {s t : State} (h : s.Inv) (ht : exec i s = .next t) : t.Inv := by
  have hd := h.dec s.link
  rcases exec_kinds i with rfl | rfl | ⟨b, hb⟩ | hi
  · cases ht
    exact returnFrom_inv h idle_inv _
  · rcases execFeedn_next ht with ⟨-, rfl⟩ | ⟨-, d, es, hfeed, rfl⟩
    · refine answer_inv h (fun j hj => ?_) _
      cases hj
      exact h.link_lt
    · exact returnFrom_inv h (feedAll_inv hd hfeed) _
  · rw [hb s] at ht
    obtain ⟨d, e, hfeed, rfl⟩ := feedByte_next ht
    exact returnFrom_inv h (feed_inv hd hfeed) _
  · obtain ⟨v, r, rfl, hu, -⟩ := exec_shared hi ht
    exact answer_inv (s := s.setCsuAcc v) h (fun j hj => absurd hj (hu j)) r

/-- Every step that goes on keeps the invariant. -/
theorem step_inv {s t : State} (h : s.Inv) (ht : step s = .next t) : t.Inv := by
  rcases step_next ht with ⟨-, rfl⟩ | ⟨rest, hi, rfl⟩ | ⟨r, rest, i, hi, hp, -, hexec⟩ | ⟨r, rest, hi, hp, -, rfl⟩
  · exact h
  · exact assertReset_inv (withInputs_inv h hi)
  · exact exec_inv (attach_inv (withInputs_inv h hi) hp) hexec
  · exact answer_inv (withInputs_inv h hi) (refusalTo_lt hp) _

theorem reset_inv : State.reset.Inv :=
  ⟨rfl, fun _ hp => absurd hp List.not_mem_nil, nLinks_pos, fun _ hx => absurd hx List.not_mem_nil⟩

end Sys2Proof.Machine

open Sys2Proof Sys2Proof.Machine

/-- Settles O55: every update that a step is made of keeps the invariant, and every byte that of its decoder. -/
theorem stepKeepsTheInvariant : Obligations.StepKeepsTheInvariant := by
  unfold Obligations.StepKeepsTheInvariant
  intro s t
  exact step_inv

/-- Settles O56: the clauses are parts of the invariant, which every step keeps. -/
theorem decoderInvariantsAfterEveryRequest : Obligations.DecoderInvariantsAfterEveryRequest := by
  unfold Obligations.DecoderInvariantsAfterEveryRequest
  intro s t hs ht i _
  obtain ⟨-, -, -, ⟨hpayload, hchecksum⟩, ⟨-, hlit, hrep, hopen⟩, -, -, hraw⟩ := (step_inv hs ht).dec i
  refine ⟨hpayload, fun h => hchecksum ?_, fun h => (hlit h).2.2, fun h => (hrep h).2.2, hopen, hraw⟩
  simp only [List.mem_cons, List.not_mem_nil, or_false] at h
  rcases h with h | h
  all_goals rw [h]; rfl

/-- Settles O54: nothing is listed, and link 0 exists. -/
theorem resetMeetsTheInvariant : Obligations.ResetMeetsTheInvariant := reset_inv

/-- Settles O9: the reset input idles every link, listed or not. -/
theorem resetLoadsIdleEverywhere : Obligations.ResetLoadsIdleEverywhere := by
  unfold Obligations.ResetLoadsIdleEverywhere
  refine ⟨fun s rest hi => ⟨_, step_reset hi, rfl, fun i => ?_⟩, rfl, fun i => rfl⟩
  rw [dec_assertReset, dec_reset]

end

section
/-! PROOFS. The accumulator of a decoder is csum16 of the header and the wire payload (O35). -/

namespace Sys2Proof.Machine

/-! ### A header byte that does not abort the packet -/

section
variable {d d' : Decoder} {b : Byte}

theorem feed_command_needMore (hs : d.state = .command) (h : d.feed b = .ok (d', .needMore)) :
    d' = { d.sum b with cmd := b, state := .compression } := by
  simp only [Decoder.feed, hs, Decoder.takeCommand] at h
  split at h
  all_goals cases h
  rfl

theorem feed_compression_needMore (hs : d.state = .compression) (h : d.feed b = .ok (d', .needMore)) :
    ∃ f, d' = { d.sum b with comp := f, state := .lenLow } := by
  simp only [Decoder.feed, hs, Decoder.takeCompression] at h
  split at h
  all_goals cases h
  exact ⟨_, rfl⟩

/-- A payload byte that does not abort the packet is summed and counted, and the payload goes on while the budget
lasts. -/
theorem feed_payload_needMore (hs : d.state = .payload) (h : d.feed b = .ok (d', .needMore)) :
    d'.acc = d.acc + b.setWidth 16 ∧ d'.rem = d.rem - 1#16 ∧ (d'.rem ≠ 0#16 → d'.state = .payload) := by
  rcases feed_payload hs h with ⟨-, h | h⟩ | ⟨vs, mode, cnt, -, rfl, -, -⟩
  · cases h
  · cases h
  · exact ⟨rfl, rfl, fun hr => (if_neg hr).trans hs⟩

end

/-! ### The payload and the header -/

/-- A wire payload of the length that remains is summed byte by byte. -/
theorem feedAll_payload_acc : ∀ {w : List Byte} {d d' : Decoder} {es : List Event},
    (d.rem ≠ 0#16 → d.state = .payload) → d.rem.toNat = w.length → d.feedAll w = .ok (d', es) →
    (∀ e ∈ es, e = .needMore) → d'.acc = d.acc + csum16 w
  | [], _, _, _, _, _, h, _ => by
    cases h
    simp
  | b :: w, d, d', _, hs, hr, h, hes => by
    rw [List.length_cons] at hr
    obtain ⟨d1, e, es', h1, h2, rfl⟩ := feedAll_cons h
    obtain ⟨he, hes'⟩ := List.forall_mem_cons.mp hes
    subst he
    have hne : d.rem ≠ 0#16 := by
      rw [ne_eq, half_eq_zero]
      omega
    obtain ⟨hacc, hrem, hstate⟩ := feed_payload_needMore (hs hne) h1
    have hr1 : d1.rem.toNat = w.length := by
      rw [hrem, half_sub_one (by omega)]
      omega
    rw [feedAll_payload_acc hstate hr1 h2 hes', hacc, csum16_cons, BitVec.add_assoc]

/-- The header and a wire payload of the length it announces are summed from Command on. -/
theorem feedAll_packet_acc {d d' : Decoder} {c f lo hi : Byte} {w : List Byte} {es : List Event}
    (hs : d.state = .command) (hw : w.length = lo.toNat + 256 * hi.toNat)
    (h : d.feedAll ([c, f, lo, hi] ++ w) = .ok (d', es)) (hes : ∀ e ∈ es, e = .needMore) :
    d'.acc = d.acc + csum16 ([c, f, lo, hi] ++ w) := by
  obtain ⟨d1, e1, es1, h1, hr1, rfl⟩ := feedAll_cons h
  obtain ⟨d2, e2, es2, h2, hr2, rfl⟩ := feedAll_cons hr1
  obtain ⟨d3, e3, es3, h3, hr3, rfl⟩ := feedAll_cons hr2
  obtain ⟨d4, e4, es4, h4, hr4, rfl⟩ := feedAll_cons hr3
  simp only [List.forall_mem_cons] at hes
  obtain ⟨rfl, rfl, rfl, rfl, hes⟩ := hes
  obtain rfl := feed_command_needMore hs h1
  obtain ⟨g, rfl⟩ := feed_compression_needMore rfl h2
  cases h3
  cases h4
  rw [feedAll_payload_acc (w := w) (fun hx => if_neg hx) ?_ hr4 hes]
  · simp [csum16_cons, BitVec.add_assoc]
  · simp only [setHigh_setLow, toNat_append_byte]
    omega

end Sys2Proof.Machine

open Sys2Proof Sys2Proof.Machine

/-- Settles O35: the accumulator is idle in Command, and every byte from there to the end of the payload is summed. -/
theorem decoderSumIsCsum16 : Obligations.DecoderSumIsCsum16 := by
  unfold Obligations.DecoderSumIsCsum16
  have hcommand : ∀ d : Decoder, d.Inv → d.state = .command → d.acc = 0#16 := by
    intro d hd hs
    rw [hd.eq_idle (by rw [hs]; rfl)]
    rfl
  refine ⟨hcommand, fun s u c f lo hi w es hd hs hw hfeeds _ hes => ?_⟩
  obtain ⟨-, hall⟩ := feeds_next hfeeds
  rw [feedAll_packet_acc hs hw hall hes, hcommand _ hd hs, BitVec.zero_add]

end

section
/-! PROOFS. A request word and the row that takes it (O4, O5); and no step from a state that meets the invariant stops, so
no run from reset does (O57). -/

namespace Sys2Proof.Machine

/-- A word that no row of the port takes is refused (R94). -/
theorem decodeRequest_of_no_row {k : PortKind} {w : Word}
    (h : ∀ row ∈ requestRows, row.takes w = true → row.port ≠ k) : decodeRequest k w = .error .illegalRequest := by
  cases hd : decodeRequest k w with
  | ok i =>
    obtain ⟨row, hrow, htakes, hport, -⟩ := row_of_decodeRequest hd
    exact absurd hport (h row hrow htakes)
  | error e => rw [(decodeRequest_error hd).1]

theorem step_idle {s : State} (hi : s.inputs = []) : step s = .next s := by
  unfold step
  rw [hi]

/-- The port of a request at the head of the host's list exists (R248). -/
theorem State.Inv.port_present {s : State} (h : s.Inv) {r : Request} {rest : List HostInput}
    (hi : s.inputs = .request r :: rest) : r.port.present = true := by
  obtain ⟨-, -, -, hinputs⟩ := h
  exact hinputs (.request r) (hi ▸ List.mem_cons_self)

/-- The decoders meet their invariants and the next request's port exists, so a step goes on. -/
theorem step_completes {s : State} (h : s.Inv) : ∃ t, step s = .next t := by
  cases hi : s.inputs with
  | nil => exact ⟨s, step_idle hi⟩
  | cons x rest =>
    cases x with
    | reset => exact ⟨_, step_reset hi⟩
    | request r =>
      have hp := h.port_present hi
      cases hd : decodeRequest r.port.kind r.word with
      | error k => exact ⟨_, step_refused hi hp hd⟩
      | ok i =>
        rw [step_request hi hp hd]
        exact everyInstructionCompletes i _ ((attach_inv (withInputs_inv h hi) hp).dec _)

/-- A run whose first step goes on is the run from the state after it. -/
theorem run_succ (M : Host.Core) (n : Nat) {s u : M.State} (h : M.step s = .next u) :
    M.run (n + 1) s = M.run n u := by
  simp only [Host.Core.run, h]

/-- A run from a state that meets the invariant never stops: every step goes on and keeps it. -/
theorem run_completes : ∀ (n : Nat) {s : State}, s.Inv → ∃ t, core.run n s = .next t
  | 0, s, _ => ⟨s, rfl⟩
  | n + 1, s, h => by
    obtain ⟨u, hu⟩ := step_completes h
    obtain ⟨t, ht⟩ := run_completes n (step_inv h hu)
    exact ⟨t, (run_succ core n hu).trans ht⟩

/-- Whatever the host puts on its list, on ports that exist, the machine right after reset meets the invariant. -/
theorem reset_withInputs_inv {xs : List HostInput} (h : ∀ x ∈ xs, x.present = true) :
    (State.reset.withInputs xs).Inv := by
  obtain ⟨hrising, hlinks, hlink, -⟩ := reset_inv
  exact ⟨hrising, hlinks, hlink, h⟩

end Sys2Proof.Machine

open Sys2Proof Sys2Proof.Machine

/-- Settles O4: the row that takes a word decodes it on its own port, and no two rows take one word. -/
theorem requestsFollowTheTable : Obligations.RequestsFollowTheTable := by
  unfold Obligations.RequestsFollowTheTable
  refine ⟨fun s r rest hi hp => ⟨fun row hrow htakes hport => ?_, fun hnone => ?_⟩,
    fun w row hrow row' hrow' => row_unique hrow hrow'⟩
  · exact step_request hi hp (hport ▸ decodeRequest_of_row hrow htakes)
  · exact step_refused hi hp (decodeRequest_of_no_row hnone)

/-- Settles O5: taking the request off the list and its attachments on the ports are the four fields written. -/
theorem stepRunsDecodedInstruction : Obligations.StepRunsDecodedInstruction := by
  unfold Obligations.StepRunsDecodedInstruction
  intro s r rest i hi hp hd
  exact step_request hi hp hd

/-- Settles O57: the invariant holds after reset with any list of requests on ports that exist. -/
theorem runsFromResetNeverStop : Obligations.RunsFromResetNeverStop := by
  unfold Obligations.RunsFromResetNeverStop
  exact ⟨fun s hs => step_completes hs, fun xs n hxs => run_completes n (reset_withInputs_inv hxs)⟩

end

section
/-! PROOFS. Writes to the payload buffer: what Append and AppendRep write and what is read back (O30), and what a FEED
writes (O29). -/

namespace Sys2Proof.Machine

/-! ### Copies of one byte -/

/-- Copies written to the buffer are read back at every index that they take. -/
theorem read_writeSeq_replicate (m : Memory) (a : Nat) (v : Byte) {n j : Nat} (h : j < n) :
    (m.writeSeq a (List.replicate n v)).read (a + j) = v := by
  rw [read_writeSeq_inside _ m a j (by simpa using h), List.getElem_replicate]

/-- Copies written to the buffer leave every index outside them alone. -/
theorem read_writeSeq_replicate_outside (m : Memory) (v : Byte) {a n b : Nat} (h : b < a ∨ a + n ≤ b) :
    (m.writeSeq a (List.replicate n v)).read b = m.read b :=
  read_writeSeq_outside _ m a b (by simpa using h)

/-- Copies that fit are appended, counted and read back, and nothing else changes (R52). -/
theorem appendRep_of_le {d : Decoder} (v : Byte) {n : Nat} (h : d.olen + n ≤ Config.outMax) :
    ∃ e, d.appendRep v n = some e ∧ e = { d with olen := d.olen + n, pb := e.pb } ∧
      (∀ j < n, e.pb.read (d.olen + j) = v) ∧ ∀ a, a < d.olen ∨ d.olen + n ≤ a → e.pb.read a = d.pb.read a := by
  refine ⟨{ d with pb := d.pb.writeSeq d.olen (List.replicate n v), olen := d.olen + n }, ?_, rfl,
    fun j hj => read_writeSeq_replicate d.pb d.olen v hj, fun a ha => read_writeSeq_replicate_outside d.pb v ha⟩
  rw [Decoder.appendRep, appendSeq_of_le d (by simpa using h), List.length_replicate]

/-- Copies that do not all fit are not appended (R52). -/
theorem appendRep_of_gt {d : Decoder} (v : Byte) {n : Nat} (h : Config.outMax < d.olen + n) :
    d.appendRep v n = none :=
  appendSeq_of_gt d (by simpa using h)

/-- Append is AppendRep of one copy. -/
theorem append_eq_appendRep (d : Decoder) (v : Byte) : d.append v = d.appendRep v 1 := rfl

/-! ### One byte fed to a decoder -/

/-- How many bytes the next FEED writes to the payload buffer, if it does not abort the packet. -/
def Decoder.writesNext (d : Decoder) : Nat :=
  if d.state ≠ .payload then 0
  else if d.comp = false then 1
  else match d.rleMode with
    | .tag => 0
    | .lit => 1
    | .rep => d.rleCnt.toNat

/-- A payload byte aborts the packet, or writes copies of itself at the end of the buffer. -/
theorem feed_payload_writes {d d' : Decoder} {b : Byte} {e : Event} (hs : d.state = .payload)
    (h : d.feed b = .ok (d', e)) : d' = Decoder.idle ∨
      (d'.olen = d.olen + d.writesNext ∧ d'.pb = d.pb.writeSeq d.olen (List.replicate d.writesNext b)) := by
  rcases feed_payload hs h with ⟨rfl, -⟩ | ⟨vs, mode, cnt, -, rfl, -, hcase⟩
  · exact .inl rfl
  · have hvs : vs = List.replicate d.writesNext b := by
      rcases hcase with ⟨hc, rfl, -, -⟩ | ⟨hc, out, hstep, hvs⟩
      · simp [Decoder.writesNext, hs, hc]
      · rcases rleStep_ok hstep with ⟨hm, rfl, -⟩ | ⟨hm, rfl, -⟩ | ⟨hm, rfl, -⟩
        all_goals simp [Decoder.writesNext, hs, hc, hm, hvs]
    refine .inr ⟨?_, by rw [← hvs]; rfl⟩
    have hlen : vs.length = d.writesNext := by rw [hvs, List.length_replicate]
    exact congrArg (d.olen + ·) hlen

/-- A byte outside a payload leaves the buffer alone, or ends the packet. -/
theorem feed_keeps_buffer {d d' : Decoder} {b : Byte} {e : Event} (hs : d.state ≠ .payload)
    (h : d.feed b = .ok (d', e)) : d' = Decoder.idle ∨ (d'.olen = d.olen ∧ d'.pb = d.pb) := by
  cases hst : d.state
  case payload => exact absurd hst hs
  case checksumHigh => exact .inl (feed_checksumHigh hst h).1
  all_goals simp only [hst, Decoder.feed] at h
  case waitSync0 | waitSync1 =>
    cases h
    right
    split_ifs
    all_goals exact ⟨rfl, rfl⟩
  case command | compression =>
    simp only [Decoder.takeCommand, Decoder.takeCompression] at h
    split at h
    all_goals cases h
    · exact .inl rfl
    · exact .inr ⟨rfl, rfl⟩
  case lenLow | lenHigh | checksumLow =>
    cases h
    exact .inr ⟨rfl, rfl⟩

/-- Every byte leaves the decoder idle, or writes copies of itself at the end of the buffer (R51, R52, R53). -/
theorem feed_writes {d d' : Decoder} {b : Byte} {e : Event} (h : d.feed b = .ok (d', e)) : d' = Decoder.idle ∨
    (d'.olen = d.olen + d.writesNext ∧ d'.pb = d.pb.writeSeq d.olen (List.replicate d.writesNext b)) := by
  by_cases hs : d.state = .payload
  · exact feed_payload_writes hs h
  · have hn : d.writesNext = 0 := if_pos hs
    rw [hn]
    exact feed_keeps_buffer hs h

end Sys2Proof.Machine

open Sys2Proof Sys2Proof.Machine

/-- Settles O30: Append is AppendRep of one copy, and the bound decides both. -/
theorem appendWritesAndIsReadBack : Obligations.AppendWritesAndIsReadBack := by
  unfold Obligations.AppendWritesAndIsReadBack
  intro d v hd
  refine ⟨fun hfull => ?_, fun hroom => ?_, fun n _ _ => ⟨appendRep_of_gt v, appendRep_of_le v⟩⟩
  · rw [append_eq_appendRep]
    exact appendRep_of_gt v (by omega)
  · rw [append_eq_appendRep]
    obtain ⟨e, he, hregs, hread, hframe⟩ := appendRep_of_le (d := d) v (n := 1) (by omega)
    exact ⟨e, he, hregs, hread 0 Nat.one_pos, fun a ha => hframe a (by omega)⟩

/-- Settles O29: the bytes written are copies of the byte fed, from the end of the payload on. -/
theorem feedWritesOnlyTheEndOfTheBuffer : Obligations.FeedWritesOnlyTheEndOfTheBuffer := by
  unfold Obligations.FeedWritesOnlyTheEndOfTheBuffer
  intro s t b n h hn
  obtain rfl : n = (s.dec s.link).writesNext := hn
  obtain ⟨d, e, hfeed, rfl⟩ := feedByte_next h
  rw [dec_returnFrom_same]
  refine (feed_writes hfeed).imp_right fun ⟨holen, hpb⟩ => ⟨holen, fun a ha => ?_, fun j hj => ?_⟩
  · rw [hpb]
    exact read_writeSeq_replicate_outside _ b ha
  · rw [hpb]
    exact read_writeSeq_replicate _ _ b hj

end

section
/-! PROOFS. What a request does to the state: a decoder request writes the selected link and nothing else (O28), and
what it writes there depends on that link's decoder, and for FEEDN on the operand, alone; a request of the units without
a decoder reads no more than its unit does (O59). -/

namespace Sys2Proof.Machine

/-- A result on a link's port keeps its decoder. -/
theorem answer_dec (s : State) (j : Nat) (r : Reply) :
    s.answer (.dec j) r = s.setLink j { dec := s.dec j, reply := some r } := rfl

/-- FEEDN refuses an operand that is too long (R239). -/
theorem execFeedn_of_gt {s : State} (h : Config.operandMax < s.operand.length) :
    execFeedn s = .next (s.answer (.dec s.link) (.error .illegalRequest)) := by
  simp [execFeedn, operandTooLong_eq, h]

/-- All that a decoder request or a wire code of a decoder can do: write one link, the same in every state that agrees
on the selected decoder and, for FEEDN, on the operand. -/
theorem exec_decoder {i : Instr} {s t : State} (hp : i.place ≠ .port .shared) (hd : i ≠ .deviceId)
    (h : exec i s = .next t) : ∃ l, t = s.setLink s.link l ∧
      ∀ s', s.dec s.link = s'.dec s'.link → (i = .feedn → s.operand = s'.operand) →
        exec i s' = .next (s'.setLink s'.link l) := by
  rcases exec_kinds i with rfl | rfl | ⟨b, hb⟩ | hi | hi
  · cases h
    exact ⟨_, rfl, fun _ _ _ => rfl⟩
  · rcases execFeedn_next h with ⟨hl, rfl⟩ | ⟨hl, d, es, hfeed, rfl⟩
    · refine ⟨_, answer_dec s s.link _, fun s' hdec hop => ?_⟩
      rw [hdec, ← answer_dec]
      exact execFeedn_of_gt (hop rfl ▸ hl)
    · refine ⟨_, rfl, fun s' hdec hop => ?_⟩
      rw [hdec, hop rfl] at hfeed
      exact execFeedn_of (hop rfl ▸ hl) hfeed
  · rw [hb s] at h
    obtain ⟨d, e, hfeed, rfl⟩ := feedByte_next h
    refine ⟨_, rfl, fun s' hdec _ => ?_⟩
    rw [hdec] at hfeed
    rw [hb s']
    exact exec_feed_of hfeed
  · exact absurd hi hp
  · exact absurd hi hd

/-- What a request of the shared port, or the sending of the device ID, answers in two states that agree on what it
reads: the same result, and the same `CSU.acc` if it was the same before or is cleared. -/
theorem exec_shared_agree {i : Instr} {s s' : State} (hi : i.place = .port .shared ∨ i = .deviceId)
    (hacc : ((∃ b, i = .csadd b) ∨ ∃ v, i = .cscmp v) → s.csuAcc = s'.csuAcc)
    (hop : (i = .cssum ∨ i = .rled ∨ i = .rlec ∨ ∃ f c, i = .enc f c) → s.operand = s'.operand)
    (hst : (i = .stpack ∨ i = .trail ∨ i = .deviceId) → s.status = s'.status) :
    ∃ (u : UnitName) (v v' : Half) (r : Reply), Instr.unit s.link i = u ∧ Instr.unit s'.link i = u ∧
      exec i s = .next ((s.setCsuAcc v).answer u r) ∧ exec i s' = .next ((s'.setCsuAcc v').answer u r) ∧
      ((i = .csclr ∨ s.csuAcc = s'.csuAcc) → v = v') := by
  cases i
  case csclr => exact ⟨.csu, 0x0000, 0x0000, _, rfl, rfl, rfl, rfl, fun _ => rfl⟩
  case csadd b =>
    have ha := hacc (.inl ⟨b, rfl⟩)
    exact ⟨.csu, _, s'.csuAcc + b.setWidth 16, _, rfl, rfl, rfl, by rw [ha]; rfl, fun _ => by rw [ha]⟩
  case cscmp v =>
    have ha := hacc (.inr ⟨v, rfl⟩)
    exact ⟨.csu, s.csuAcc, s'.csuAcc, _, rfl, rfl, rfl, by rw [ha]; rfl, fun _ => ha⟩
  case cssum | rled | rlec | enc =>
    have ho := hop (by simp)
    exact ⟨_, s.csuAcc, s'.csuAcc, _, rfl, rfl, rfl, by rw [ho]; rfl, fun h => h.resolve_left nofun⟩
  case stpack | trail | deviceId =>
    have hs := hst (by simp)
    exact ⟨_, s.csuAcc, s'.csuAcc, _, rfl, rfl, rfl, by rw [hs]; rfl, fun h => h.resolve_left nofun⟩
  case stunpack b => exact ⟨.stat, s.csuAcc, s'.csuAcc, _, rfl, rfl, rfl, rfl, fun h => h.resolve_left nofun⟩
  all_goals
    rcases hi with hi | hi
    all_goals cases hi

end Sys2Proof.Machine

open Sys2Proof Sys2Proof.Machine

/-- Settles O28: one link is written, and the selection stays. -/
theorem decoderRequestsChangeOneLink : Obligations.DecoderRequestsChangeOneLink := by
  unfold Obligations.DecoderRequestsChangeOneLink
  intro i s t hp hd h
  obtain ⟨l, rfl, -⟩ := exec_decoder hp hd h
  exact ⟨fun j hj => getLink_setLink_ne s s.link l hj, rfl, rfl, rfl, rfl, rfl, rfl⟩

/-- Settles O59: the link that a decoder request writes is the same in both states, and so is the result of a unit
without a decoder. -/
theorem requestsDependOnTheirUnitOnly : Obligations.RequestsDependOnTheirUnitOnly := by
  unfold Obligations.RequestsDependOnTheirUnitOnly
  constructor
  · intro i s t s' hp hd hdec hop h
    obtain ⟨l, rfl, hagree⟩ := exec_decoder hp hd h
    exact ⟨_, hagree s' hdec hop, by simp only [getLink_setLink_same]⟩
  · intro i s s' hi hacc hop hst
    obtain ⟨u, v, v', r, hu, hu', h, h', hv⟩ := exec_shared_agree hi hacc hop hst
    refine ⟨_, _, h, h', ?_, fun hc => ?_⟩
    · rw [hu, hu', replyOf_answer_same, replyOf_answer_same]
    · simpa only [answer_csuAcc, setCsuAcc_csuAcc] using hv hc

end

section
/-! PROOFS. Requests on different ports commute (O60): a request changes only what its own port's requests work on, and
how it changes that depends on nothing else. -/

namespace Sys2Proof.Machine

/-! ### What the requests of a port work on -/

/-- Two states agree on what the requests of a port work on: the link of a decoder port, or `CSU.acc` and the results
behind the shared port (R65). -/
def Port.Agree (p : Port) (s t : State) : Prop :=
  match p with
  | .decoder i => t.getLink i = s.getLink i
  | .shared => t.csuAcc = s.csuAcc ∧ t.results = s.results

theorem Port.Agree.symm {p : Port} {s t : State} (h : p.Agree s t) : p.Agree t s := by
  cases p
  · exact Eq.symm h
  · exact ⟨h.1.symm, h.2.symm⟩

theorem Port.Agree.trans {p : Port} {s t u : State} (h : p.Agree s t) (k : p.Agree t u) : p.Agree s u := by
  cases p
  · exact Eq.trans k h
  · exact ⟨k.1.trans h.1, k.2.trans h.2⟩

/-! ### One request -/

/-- The rows build instructions of the port that they belong to (R83). -/
theorem place_build : ∀ row ∈ requestRows, ∀ w, (row.build w).place = .port row.port := by
  simp [requestRows, Instr.place]

/-- A request word decodes to an instruction of the port it came in on. -/
theorem place_of_decodeRequest {k : PortKind} {w : Word} {i : Instr} (h : decodeRequest k w = .ok i) :
    i.place = .port k := by
  obtain ⟨row, hrow, -, rfl, rfl⟩ := row_of_decodeRequest h
  exact place_build row hrow w

/-- A request's attachments select the link of its port. -/
theorem attach_selects (s : State) (r : Request) : r.port.link.getD (s.attach r).link = (s.attach r).link := by
  rw [attach_link]
  cases r.port.link <;> rfl

/-- A write to one link changes nothing that another port's requests work on. -/
theorem agree_setLink {p : Port} (s : State) {i : Nat} (l : Link) (h : p ≠ .decoder i) : p.Agree s (s.setLink i l) := by
  cases p with
  | shared => exact ⟨rfl, rfl⟩
  | decoder j => exact getLink_setLink_ne s i l fun hj => h (by rw [hj])

/-- A result of a unit without a decoder changes nothing that a decoder port's requests work on. -/
theorem agree_answer {p : Port} {s : State} {u : UnitName} (hu : ∀ j, u ≠ .dec j) (v : Half) (r : Reply)
    (h : p ≠ .shared) : p.Agree s ((s.setCsuAcc v).answer u r) := by
  cases p with
  | shared => exact absurd rfl h
  | decoder j =>
    simp only [Port.Agree, State.getLink, answer_links hu, setCsuAcc_links]

/-- The same result on the same port keeps the results of two states equal. -/
theorem answer_results {s t : State} (h : t.results = s.results) (u : UnitName) (r : Reply) :
    (t.answer u r).results = (s.answer u r).results := by
  cases u <;> simp [State.answer, h]

/-- An instruction of a port, on the selected link if the port is a decoder's, changes only that port's part of the
state, and changes it in the same way in every state that agrees on it. -/
theorem exec_port_local {p : Port} {i : Instr} {s t : State} (hp : i.place = .port p.kind)
    (hl : p.link.getD s.link = s.link) (h : exec i s = .next t) :
    t.inputs = s.inputs ∧ (∀ q, q ≠ p → q.Agree s t) ∧
      ∀ s', p.link.getD s'.link = s'.link → s'.operand = s.operand → s'.status = s.status → p.Agree s s' →
        ∃ t', exec i s' = .next t' ∧ p.Agree t t' := by
  cases p with
  | decoder j =>
    obtain rfl : j = s.link := hl
    have hshared : i.place ≠ .port .shared := by rw [hp]; nofun
    have hdevice : i ≠ .deviceId := by rintro rfl; cases hp
    obtain ⟨l, rfl, hsame⟩ := exec_decoder hshared hdevice h
    refine ⟨rfl, fun q hq => agree_setLink s l hq, fun s' hl' hop _ ha => ?_⟩
    have hlink : s.link = s'.link := hl'
    have hdec : s.dec s.link = s'.dec s'.link := by
      rw [← hlink]
      exact congrArg Link.dec ha.symm
    refine ⟨_, hsame s' hdec fun _ => hop.symm, ?_⟩
    simp only [Port.Agree, ← hlink, getLink_setLink_same]
  | shared =>
    obtain ⟨v, r, rfl, hu, -, -⟩ := exec_shared (.inl hp) h
    refine ⟨answer_inputs _ _ _, fun q hq => agree_answer hu v r hq, fun s' _ hop hst ⟨hacc, hresults⟩ => ?_⟩
    obtain ⟨u, w, w', x, -, -, hs, hs', hw⟩ :=
      exec_shared_agree (.inl hp) (fun _ => hacc.symm) (fun _ => hop.symm) (fun _ => hst.symm)
    rw [Host.Outcome.next.inj (h.symm.trans hs)]
    have hanswer := answer_results (s := s.setCsuAcc w) (t := s'.setCsuAcc w') hresults u x
    refine ⟨_, hs', ?_, hanswer⟩
    simpa only [answer_csuAcc, setCsuAcc_csuAcc] using (hw (.inr hacc.symm)).symm

/-- A refusal replaces one result of the port's part of the state. -/
theorem refusal_local (p : Port) (s : State) (r : Reply) :
    (∀ q, q ≠ p → q.Agree s (s.answer p.refusalTo r)) ∧
      ∀ s', p.Agree s s' → p.Agree (s.answer p.refusalTo r) (s'.answer p.refusalTo r) := by
  cases p with
  | decoder j =>
    refine ⟨fun q hq => agree_setLink s _ hq, fun s' ha => ?_⟩
    have hdec : s'.dec j = s.dec j := congrArg Link.dec ha
    simp only [Port.Agree, Port.refusalTo, answer_dec, getLink_setLink_same, hdec]
  | shared =>
    exact ⟨fun q hq => agree_answer (s := s) (u := .port) nofun s.csuAcc r hq,
      fun s' ha => ⟨ha.1, answer_results ha.2 .port r⟩⟩

/-- All that a step on a request does: it takes the request off the list and changes only the part of the state that its
port works on, in the same way in every state that agrees on that part. -/
theorem step_request_local {s t : State} {r : Request} {rest : List HostInput} (hi : s.inputs = .request r :: rest)
    (h : step s = .next t) :
    t.inputs = rest ∧ (∀ p, p ≠ r.port → p.Agree s t) ∧
      ∀ s' rest', s'.inputs = .request r :: rest' → r.port.Agree s s' →
        ∃ t', step s' = .next t' ∧ r.port.Agree t t' := by
  rcases step_next h with ⟨hn, -⟩ | ⟨_, hn, -⟩ | ⟨_, _, i, hn, hp, hd, hexec⟩ | ⟨_, _, hn, hp, hd, rfl⟩
  all_goals
    rw [hi] at hn
    cases hn
  · obtain ⟨hinputs, hframe, hsame⟩ := exec_port_local (place_of_decodeRequest hd) (attach_selects _ r) hexec
    refine ⟨hinputs, hframe, fun s' rest' hi' ha => ?_⟩
    rw [step_request hi' hp hd]
    exact hsame _ (attach_selects _ r) rfl rfl ha
  · obtain ⟨hframe, hsame⟩ := refusal_local r.port (s.withInputs rest) (.error .illegalRequest)
    exact ⟨answer_inputs _ _ _, hframe, fun s' rest' hi' ha => ⟨_, step_refused hi' hp hd, hsame _ ha⟩⟩

end Sys2Proof.Machine

open Sys2Proof Sys2Proof.Machine

/-- Settles O60: every port's part of the state is changed by its own request alone, and from the same part in either
order. -/
theorem requestsOnDifferentPortsCommute : Obligations.RequestsOnDifferentPortsCommute := by
  unfold Obligations.RequestsOnDifferentPortsCommute
  intro s t1 t2 r q rest hrq h1 h2
  obtain ⟨hi1, hframe1, hlocal1⟩ := step_request_local rfl h1
  obtain ⟨-, hframe2, hlocal2⟩ := step_request_local hi1 h2
  obtain ⟨u1, hu1, hq⟩ := hlocal2 { s with inputs := .request q :: .request r :: rest } _ rfl (hframe1 _ hrq.symm).symm
  obtain ⟨hi1', hframe1', -⟩ := step_request_local rfl hu1
  obtain ⟨u2, hu2, hr⟩ := hlocal1 u1 _ hi1' (hframe1' _ hrq)
  obtain ⟨-, hframe2', -⟩ := step_request_local hi1' hu2
  have hall : ∀ p : Port, p.Agree t2 u2 := by
    intro p
    by_cases hpr : p = r.port
    · subst hpr
      exact (hframe2 _ hrq).symm.trans hr
    · by_cases hpq : p = q.port
      · subst hpq
        exact hq.trans (hframe2' _ hrq.symm)
      · exact ((hframe1 p hpr).trans (hframe2 p hpq)).symm.trans ((hframe1' p hpq).trans (hframe2' p hpr))
  obtain ⟨hacc, hresults⟩ := hall .shared
  exact ⟨u1, u2, hu1, hu2, fun j => hall (.decoder j), hacc, hresults⟩

end

section
/-! PROOFS. Encodings: every instruction is decoded from its code word (O1, O2), and whatever decodes is a code word, since
a row's mask and its operand fields cover the whole of a request word (O3). -/

namespace Sys2Proof

/-- The family of `Sys2Proof.Laws.DecodesBack`, over all instructions. -/
theorem decode_encode (i : Instr) : Laws.DecodesBack.Statement i := by
  cases i
  case drst => exact Laws.DecodesBack.drst
  case feed b => exact Laws.DecodesBack.feed b
  case feedn => exact Laws.DecodesBack.feedn
  case csclr => exact Laws.DecodesBack.csclr
  case csadd b => exact Laws.DecodesBack.csadd b
  case cssum => exact Laws.DecodesBack.cssum
  case cscmp v => exact Laws.DecodesBack.cscmp v
  case rled => exact Laws.DecodesBack.rled
  case rlec => exact Laws.DecodesBack.rlec
  case enc f c => exact Laws.DecodesBack.enc f c
  case stpack => exact Laws.DecodesBack.stpack
  case stunpack b => exact Laws.DecodesBack.stunpack b
  case trail => exact Laws.DecodesBack.trail
  case sync0 => exact Laws.DecodesBack.sync0
  case sync1 => exact Laws.DecodesBack.sync1
  case cmdInit => exact Laws.DecodesBack.cmdInit
  case cmdPrint => exact Laws.DecodesBack.cmdPrint
  case cmdData => exact Laws.DecodesBack.cmdData
  case cmdBreak => exact Laws.DecodesBack.cmdBreak
  case cmdInquiry => exact Laws.DecodesBack.cmdInquiry
  case compRaw => exact Laws.DecodesBack.compRaw
  case compRle => exact Laws.DecodesBack.compRle
  case rleLit c => exact Laws.DecodesBack.rleLit c
  case rleRep c => exact Laws.DecodesBack.rleRep c
  case deviceId => exact Laws.DecodesBack.deviceId

/-! ### The bits of a request word outside its row's mask -/

/-- A word is its bits under a mask and its bits outside it. -/
theorem eq_or_of_and_mask {w m n p x : Word} (hp : w &&& m = p) (hx : w &&& n = x) (hmn : m ||| n = BitVec.allOnes 32) :
    p ||| x = w := by
  rw [← hp, ← hx, ← BitVec.and_or_distrib_left, hmn, BitVec.and_allOnes]

theorem and_byte_mask (w : Word) : w &&& 0xFF#32 = (immByte w).setWidth 32 := by
  apply BitVec.eq_of_toNat_eq
  rw [BitVec.toNat_and]
  exact (Nat.and_two_pow_sub_one_eq_mod _ 8).trans (by simp [immByte]; omega)

theorem and_half_mask (w : Word) : w &&& 0xFFFF#32 = (immHalf w).setWidth 32 := by
  apply BitVec.eq_of_toNat_eq
  rw [BitVec.toNat_and]
  exact (Nat.and_two_pow_sub_one_eq_mod _ 16).trans (by simp [immHalf]; omega)

theorem and_flag_mask (w : Word) : w &&& 0x01000000#32 = if flagF w then 0x01000000#32 else 0#32 :=
  BitVec.and_twoPow w 24

theorem and_enc_mask (w : Word) :
    w &&& 0x010000FF#32 = (if flagF w then 0x01000000#32 else 0#32) ||| (immByte w).setWidth 32 := by
  rw [← and_flag_mask, ← and_byte_mask, ← BitVec.and_or_distrib_left]
  rfl

/-- The code word of what a row builds from a word that it takes is that word (R83, R84). -/
theorem encode_build : ∀ row ∈ requestRows, ∀ w, row.takes w = true → encode (row.build w) = .request w := by
  have hfixed : ∀ {w p : Word}, w &&& 0xFFFFFFFF#32 = p → p = w := fun h => by
    rw [← h]
    exact BitVec.and_allOnes
  have hbyte : ∀ {w p : Word}, w &&& 0xFFFFFF00#32 = p → p ||| (immByte w).setWidth 32 = w := fun h =>
    eq_or_of_and_mask h (and_byte_mask _) (by decide)
  have hhalf : ∀ {w p : Word}, w &&& 0xFFFF0000#32 = p → p ||| (immHalf w).setWidth 32 = w := fun h =>
    eq_or_of_and_mask h (and_half_mask _) (by decide)
  have henc : ∀ {w p : Word}, w &&& 0xFEFFFF00#32 = p →
      p ||| (if flagF w then 0x01000000#32 else 0#32) ||| (immByte w).setWidth 32 = w := fun h => by
    rw [BitVec.or_assoc]
    exact eq_or_of_and_mask h (and_enc_mask _) (by decide)
  simp only [requestRows, List.cons_append, List.nil_append, List.forall_mem_cons, RequestRow.takes, beq_iff_eq, encode,
    CodeWord.request.injEq]
  exact ⟨fun _ => hfixed, fun _ => hbyte, fun _ => hfixed, fun _ => hfixed, fun _ => hbyte, fun _ => hfixed,
    fun _ => hhalf, fun _ => hfixed, fun _ => hfixed, fun _ => henc, fun _ => hfixed, fun _ => hbyte, fun _ => hfixed,
    nofun⟩

/-- No request carries a field that can fail to fit its bits. -/
theorem wf_of_port {i : Instr} {k : PortKind} (h : i.place = .port k) : i.wf = true := by
  cases i
  case rleLit | rleRep => cases h
  all_goals rfl

end Sys2Proof

open Sys2Proof Sys2Proof.Machine

/-- Settles O2: the family of `Sys2Proof.Laws.DecodesBack` has a member for each constructor. -/
theorem decodeOfEncode : Obligations.DecodeOfEncode := by
  unfold Obligations.DecodeOfEncode
  exact decode_encode

/-- Settles O3: a wire byte is the code word of what it decodes to, and a request word that of what its row builds. -/
theorem encodeOfDecode : Obligations.EncodeOfDecode := by
  unfold Obligations.EncodeOfDecode
  intro p c i h
  cases p with
  | port k =>
    cases c with
    | request w =>
      obtain ⟨row, hrow, htakes, rfl, rfl⟩ := row_of_decodeRequest h
      have hplace := place_build row hrow w
      exact ⟨wf_of_port hplace, hplace, encode_build row hrow w htakes⟩
    | wire b => cases h
  | wire q =>
    cases c with
    | request w => cases h
    | wire b => exact decodeWire_encoding h

/-- Settles O1: each word is the code word of its instruction, at the place of the instruction. -/
theorem writtenWordsDecode : Obligations.WrittenWordsDecode :=
  ⟨decode_encode .drst rfl, decode_encode (.feed 0x88#8) rfl, decode_encode .feedn rfl, decode_encode (.csadd 0xFF#8) rfl,
    decode_encode (.cscmp 0x0047#16) rfl, decode_encode .rled rfl, decode_encode (.enc true 0x04#8) rfl,
    decode_encode (.stunpack 0x21#8) rfl, decode_encode .trail rfl, decode_encode .sync0 rfl, decode_encode .sync1 rfl,
    decode_encode .cmdInquiry rfl, decode_encode .compRle rfl, decode_encode (.rleLit 127) rfl,
    decode_encode (.rleRep 0) rfl, decode_encode .deviceId rfl⟩

end

section
/-! PROOFS. Refusals: a word with an illegal field matches no row (O7), and the two causes of IllegalRequest (O8). -/

namespace Sys2Proof

/-- A row whose mask covers a field, and whose pattern is zero there. -/
abbrev RequestRow.fieldZero (row : RequestRow) (k : Nat) (f : Word) : Prop :=
  row.mask >>> k &&& f = f ∧ row.pattern >>> k &&& f = 0#32

/-- A word that such a row takes is zero in the field. -/
theorem field_eq_zero_of_takes {row : RequestRow} {w f : Word} {k : Nat} (ht : row.takes w = true)
    (hf : row.fieldZero k f) : w >>> k &&& f = 0#32 := by
  obtain ⟨hmask, hpattern⟩ := hf
  have hw : w &&& row.mask = row.pattern := by simpa [RequestRow.takes] using ht
  rw [← hw, BitVec.ushiftRight_and_distrib, BitVec.and_assoc, hmask] at hpattern
  exact hpattern

/-- The op codes that the table gives out (R83). -/
theorem row_op_lt : ∀ row ∈ requestRows, (row.pattern >>> 28).toNat < 13 := by decide

/-- The fields that are reserved in every request word (R82). -/
theorem row_reserved_zero : ∀ row ∈ requestRows, row.fieldZero 25 0x7#32 ∧ row.fieldZero 16 0xFF#32 := by decide

/-- Bit 24 is zero in every row but that of ENC (R82, R84). -/
theorem row_flag_zero : ∀ row ∈ requestRows, (row.pattern >>> 28).toNat ≠ 9 → row.fieldZero 24 0x1#32 := by decide

/-- Bits 15:8 are zero in the rows with a byte operand (R84). -/
theorem row_byte_high_zero : ∀ row ∈ requestRows, (row.pattern >>> 28).toNat ∈ [1, 4, 9, 11] →
    row.fieldZero 8 0xFF#32 := by decide

/-- Bits 15:0 are zero in the rows without an operand in the word (R84). -/
theorem row_imm_zero : ∀ row ∈ requestRows, (row.pattern >>> 28).toNat ∉ [1, 4, 6, 9, 11] →
    row.fieldZero 0 0xFFFF#32 := by decide

/-- R89: a reserved op code, or a field that is not zero where it must be. -/
def illegalWord (w : Word) : Prop :=
  13 ≤ (w >>> 28).toNat ∨ (w >>> 25) &&& 0x7#32 ≠ 0#32 ∨ (w >>> 16) &&& 0xFF#32 ≠ 0#32 ∨
    ((w >>> 28).toNat ≠ 9 ∧ w.getLsbD 24 = true) ∨
    ((w >>> 28).toNat ∈ [1, 4, 9, 11] ∧ (w >>> 8) &&& 0xFF#32 ≠ 0#32) ∨
    ((w >>> 28).toNat ∉ [1, 4, 6, 9, 11] ∧ w &&& 0xFFFF#32 ≠ 0#32)

/-- A bit is clear when the one-bit field at its place is zero. -/
theorem getLsbD_of_field_eq_zero {w : Word} {k : Nat} (h : w >>> k &&& 1#32 = 0#32) : w.getLsbD k = false := by
  have h0 := congrArg (BitVec.getLsbD · 0) h
  simpa using h0

/-- No row takes an illegal word. -/
theorem not_illegalWord_of_takes {row : RequestRow} {w : Word} (hr : row ∈ requestRows) (ht : row.takes w = true) :
    ¬ illegalWord w := by
  have hop := op_of_takes hr ht
  obtain ⟨hreserved, hbyte⟩ := row_reserved_zero row hr
  unfold illegalWord
  rw [hop]
  rintro (h | h | h | ⟨h9, h⟩ | ⟨hmem, h⟩ | ⟨hmem, h⟩)
  · exact absurd (row_op_lt row hr) (Nat.not_lt.mpr h)
  · exact h (field_eq_zero_of_takes ht hreserved)
  · exact h (field_eq_zero_of_takes ht hbyte)
  · have hflag := getLsbD_of_field_eq_zero (field_eq_zero_of_takes ht (row_flag_zero row hr h9))
    rw [hflag] at h
    cases h
  · exact h (field_eq_zero_of_takes ht (row_byte_high_zero row hr hmem))
  · exact h (field_eq_zero_of_takes ht (row_imm_zero row hr hmem))

end Sys2Proof

open Sys2Proof Sys2Proof.Machine

/-- Settles O7: an illegal word matches no row, so the step is the refusal, which is one result. -/
theorem illegalWordsChangeNothing : Obligations.IllegalWordsChangeNothing := by
  unfold Obligations.IllegalWordsChangeNothing
  intro s r rest hi hp hw
  have hd : decodeRequest r.port.kind r.word = .error .illegalRequest :=
    decodeRequest_of_no_row fun row hrow htakes => absurd hw (not_illegalWord_of_takes hrow htakes)
  exact ⟨_, step_refused hi hp hd, replyOf_answer_same _ _ _, answer_csuAcc _ _ _, fun j => dec_answer _ _ _ j,
    fun u hu => replyOf_answer_ne _ _ _ hu⟩

/-- Settles O8: no row means a refused word, and a sequence that is too long is refused before the unit sees it. -/
theorem illegalRequestCauses : Obligations.IllegalRequestCauses := by
  unfold Obligations.IllegalRequestCauses
  refine ⟨fun s r rest hi hp hno => step_refused hi hp (decodeRequest_of_no_row fun row hrow htakes hport => ?_),
    fun s hl => ?_, fun s u => ⟨answer_csuAcc _ _ _, fun j => dec_answer _ _ _ j⟩⟩
  · exact hno row hrow hport (by simpa [RequestRow.takes] using htakes)
  · have hreply : ∀ u f, s.answerOperand u f = s.answer u (.error .illegalRequest) := fun u f =>
      congrArg (s.answer u) (operandReply_of_gt hl)
    exact ⟨execFeedn_of_gt hl, congrArg _ (hreply _ _), congrArg _ (hreply _ _), congrArg _ (hreply _ _),
      fun _ _ => congrArg _ (hreply _ _)⟩

end

section
/-! PROOFS. What each byte of a packet does in the state that waits for it: the sync, command and compression codes (O21)
and the tags of a compressed payload (O22). -/

namespace Sys2Proof.Machine

/-! ### The header and the checksum, byte by byte -/

section
variable {d : Decoder} {b : Byte}

theorem feed_sync0 (hs : d.state = .waitSync0 ∨ d.state = .waitSync1) :
    d.feed sync0Byte = .ok ({ d with state := .waitSync1 }, .needMore) := by
  rcases hs with hs | hs
  all_goals simp only [Decoder.feed, hs]
  all_goals rfl

theorem feed_sync1 (hs : d.state = .waitSync1) : d.feed sync1Byte = .ok ({ d with state := .command }, .needMore) := by
  simp only [Decoder.feed, hs]
  rfl

theorem feed_command_of (hs : d.state = .command) (c : Command) :
    d.feed c.toByte = .ok ({ d.sum c.toByte with cmd := c.toByte, state := .compression }, .needMore) := by
  simp only [Decoder.feed, hs, Decoder.takeCommand, command_ofByte_toByte]

theorem feed_compression_of (hs : d.state = .compression) (f : Bool) :
    d.feed (compByte f) = .ok ({ d.sum (compByte f) with comp := f, state := .lenLow }, .needMore) := by
  simp only [Decoder.feed, hs, Decoder.takeCompression, comp_ofByte_compByte]

theorem feed_lenLow (hs : d.state = .lenLow) :
    d.feed b = .ok ({ d.sum b with len := setLow d.len b, state := .lenHigh }, .needMore) := by
  simp only [Decoder.feed, hs]
  rfl

theorem feed_lenHigh (hs : d.state = .lenHigh) :
    d.feed b = .ok ({ d.sum b with
      len := setHigh d.len b, rem := setHigh d.len b, rleMode := .tag, rleCnt := 0
      state := if setHigh d.len b = 0#16 then .checksumLow else .payload }, .needMore) := by
  simp only [Decoder.feed, hs]
  rfl

theorem feed_checksumLow (hs : d.state = .checksumLow) :
    d.feed b = .ok ({ d with rxcs := setLow d.rxcs b, state := .checksumHigh }, .needMore) := by
  simp only [Decoder.feed, hs]
  rfl

theorem feed_checksumHigh_of {c : Command} (hs : d.state = .checksumHigh) (hc : Command.ofByte? d.cmd = some c) :
    d.feed b = .ok (Decoder.idle, .packet
      { command := c, compressed := d.comp, payload := d.pb.readSeq 0 d.olen
        checksumValid := checksumValid (setHigh d.rxcs b) d.acc, lengthWarning := lengthWarning c d.olen }) := by
  simp only [Decoder.feed, hs, Decoder.takeChecksumHigh, hc, loadIdle_eq]

end

/-! ### A tag -/

theorem rleStep_tag_lit {b cnt : Byte} {c after : Nat} (hb : Tag.ofByte b = .lit c) (ha : c + 1 ≤ after) :
    rleStep .tag cnt after b = .ok (.lit, BitVec.ofNat 8 (c + 1), .nothing) := by
  simp only [rleStep, hb, if_neg (Nat.not_lt.mpr ha)]

theorem rleStep_tag_rep {b cnt : Byte} {c after : Nat} (hb : Tag.ofByte b = .rep c) (ha : 1 ≤ after) :
    rleStep .tag cnt after b = .ok (.rep, BitVec.ofNat 8 (c + 2), .nothing) := by
  simp only [rleStep, hb, if_neg (Nat.not_lt.mpr ha)]

/-- A byte that is not the last of the payload is counted, and the payload goes on. -/
theorem countDown_of_ne {d : Decoder} (h : d.rem - 1#16 ≠ 0#16) : d.countDown = { d with rem := d.rem - 1#16 } := by
  rw [Decoder.countDown, if_neg h]

/-- A tag that the budget holds opens its run: it is summed and counted, and nothing is written. -/
theorem feed_tag {d : Decoder} {b cnt : Byte} {mode : RleMode} (hs : d.state = .payload) (hc : d.comp = true)
    (hpos : 1 ≤ (d.rem - 1#16).toNat)
    (hr : rleStep d.rleMode d.rleCnt (d.rem - 1#16).toNat b = .ok (mode, cnt, .nothing)) :
    d.feed b = .ok ({ d.sum b with rleMode := mode, rleCnt := cnt, rem := d.rem - 1#16 }, .needMore) := by
  have hne : d.rem - 1#16 ≠ 0#16 := half_eq_zero.not.mpr (by omega)
  rw [feed_compressed hs hc hr rfl, countDown_of_ne (d := { d.sum b with rleMode := mode, rleCnt := cnt }) hne]
  rfl

theorem litTag_setWidth : ∀ c : Fin 128, (Tag.lit c).toByte.setWidth 16 = BitVec.ofNat 16 c := by decide

theorem repTag_setWidth : ∀ c : Fin 128, (Tag.rep c).toByte.setWidth 16 = BitVec.ofNat 16 (128 + c) := by decide

end Sys2Proof.Machine

open Sys2Proof Sys2Proof.Machine

/-- Settles O21: each code is the FEED of its byte, in the state that waits for it. -/
theorem headerCodesAdvanceThePacket : Obligations.HeaderCodesAdvanceThePacket := by
  unfold Obligations.HeaderCodesAdvanceThePacket
  refine fun s => ⟨fun hs => exec_feed_of (feed_sync0 (.inl hs)),
    fun hs => ⟨exec_feed_of (feed_sync0 (.inr hs)), exec_feed_of (feed_sync1 hs)⟩, fun hs => ?_, fun hs => ⟨?_, ?_⟩⟩
  · have hcommand := fun c => exec_feed_of (feed_command_of hs c)
    simp only [List.forall_mem_cons]
    exact ⟨hcommand .init, hcommand .print, hcommand .data, hcommand .break, hcommand .inquiry, nofun⟩
  · have hraw := exec_feed_of (feed_compression_of hs false)
    have hsum : (s.dec s.link).sum (compByte false) = s.dec s.link := by simp [Decoder.sum, compByte]
    rw [hsum] at hraw
    exact hraw
  · exact exec_feed_of (feed_compression_of hs true)

/-- Settles O22: each tag byte is read back as its tag, which the budget holds. -/
theorem tagCodesOpenRuns : Obligations.TagCodesOpenRuns := by
  unfold Obligations.TagCodesOpenRuns
  refine fun s c hc hs hcomp hm => ⟨fun hle => ?_, fun hle => ?_⟩
  · have hstep := rleStep_tag_lit (cnt := (s.dec s.link).rleCnt) (tag_ofByte_lit ⟨c, hc⟩) hle
    rw [← hm] at hstep
    rw [← litTag_setWidth ⟨c, hc⟩]
    exact exec_feed_of (feed_tag hs hcomp (by omega) hstep)
  · have hstep := rleStep_tag_rep (cnt := (s.dec s.link).rleCnt) (tag_ofByte_rep ⟨c, hc⟩) hle
    rw [← hm] at hstep
    rw [← repTag_setWidth ⟨c, hc⟩]
    exact exec_feed_of (feed_tag hs hcomp hle hstep)

end

section
/-! PROOFS. FEEDN is the FEED requests of its bytes (O24). -/

namespace Sys2Proof.Machine

/-- If feeding a byte sequence to the selected link's decoder completes, so do the FEED requests of its bytes, with the
same decoder and events (R93). -/
theorem feeds_of_feedAll : ∀ {bs : List Byte} {s : State} {d : Decoder} {es : List Event},
    (s.dec s.link).feedAll bs = .ok (d, es) → ∃ u, feeds s bs = .next (u, es) ∧ u.dec s.link = d
  | [], s, _, _, h => by
    cases h
    exact ⟨s, rfl, rfl⟩
  | b :: bs, s, _, _, h => by
    obtain ⟨d1, e, es, h1, h2, rfl⟩ := feedAll_cons h
    obtain ⟨u, hu, hd⟩ := feeds_of_feedAll (s := s.returnFrom d1 (.event e)) (by simpa using h2)
    refine ⟨u, ?_, hd⟩
    have hfeed : execFeed b s = .next (s.returnFrom d1 (.event e)) := exec_feed_of h1
    simp only [feeds, hfeed, hu, replyOf_returnFrom_same]

end Sys2Proof.Machine

open Sys2Proof Sys2Proof.Machine

/-- Settles O24: the FEED requests and FEEDN are both the feeding of the sequence to the decoder. -/
theorem feednIsFeeds : Obligations.FeednIsFeeds := by
  unfold Obligations.FeednIsFeeds
  refine fun s => ⟨fun hl u es h => ?_, fun hd => ?_, execFeedn_of_gt, fun hnil => ?_⟩
  · obtain ⟨-, hall⟩ := feeds_next h
    exact ⟨execFeedn_of hl hall, feedAll_length hall⟩
  · obtain ⟨d, es, hall⟩ := feedAll_completes s.operand hd
    obtain ⟨u, hu, -⟩ := feeds_of_feedAll hall
    exact ⟨u, es, hu⟩
  · refine execFeedn_of ?_ ?_
    · simp [hnil]
    · rw [hnil]
      rfl

end

section
/-! PROOFS. The result word and the kind of result of each request (O52), and the trailer (O51). -/

namespace Sys2Proof.Machine

/-- The fields of a result word are read back (R85). -/
theorem resultWord_fields : ∀ (code : BitVec 4) (kind : BitVec 2), (resultWord code kind).extractLsb' 2 2 = 0#2 ∧
    (resultWord code kind).extractLsb' 0 2 = kind ∧ (resultWord code kind).extractLsb' 4 4 = code := by decide

/-- The kind of result that an instruction may leave (R85): an Event if it is FEED, and a value or an error if it is any
other request. -/
def Instr.mayReply (i : Instr) (r : Reply) : Prop :=
  ((∃ b, i = .feed b) → ∃ e, r = .event e) ∧
  ((∃ p, i.place = .port p) → (∀ b, i ≠ .feed b) → (∃ v, r = .ok v) ∨ ∃ k, r = .error k)

theorem mayReply_of_not_event {i : Instr} {r : Reply} (hi : ∀ b, i ≠ .feed b) (hr : ∀ e, r ≠ .event e) :
    Instr.mayReply i r := by
  refine ⟨fun ⟨b, hb⟩ => absurd hb (hi b), fun _ _ => ?_⟩
  cases r with
  | event e => exact absurd rfl (hr e)
  | ok v => exact .inl ⟨v, rfl⟩
  | error k => exact .inr ⟨k, rfl⟩

theorem exec_shared_reply {i : Instr} {s t : State} (hi : i.place = .port .shared ∨ i = .deviceId)
    (hf : ∀ b, i ≠ .feed b) (h : exec i s = .next t) :
    ∃ r, t.replyOf (Instr.unit s.link i) = some r ∧ Instr.mayReply i r := by
  obtain ⟨v, r, rfl, -, hevent, -⟩ := exec_shared hi h
  exact ⟨r, replyOf_answer_same _ _ _, mayReply_of_not_event hf hevent⟩

/-- Every instruction that completes leaves a result of its kind on its unit's port. -/
theorem exec_reply {i : Instr} {s t : State} (h : exec i s = .next t) :
    ∃ r, t.replyOf (Instr.unit s.link i) = some r ∧ Instr.mayReply i r := by
  cases i
  case drst =>
    cases h
    exact ⟨_, replyOf_returnFrom_same _ _ _, mayReply_of_not_event nofun nofun⟩
  case feedn =>
    rcases execFeedn_next h with ⟨-, rfl⟩ | ⟨-, d, es, -, rfl⟩
    · exact ⟨_, replyOf_answer_same _ _ _, mayReply_of_not_event nofun nofun⟩
    · exact ⟨_, replyOf_returnFrom_same _ _ _, mayReply_of_not_event nofun nofun⟩
  case feed b =>
    obtain ⟨d, e, -, rfl⟩ := feedByte_next h
    exact ⟨_, replyOf_returnFrom_same _ _ _, fun _ => ⟨e, rfl⟩, fun _ hf => absurd rfl (hf b)⟩
  case sync0 | sync1 | cmdInit | cmdPrint | cmdData | cmdBreak | cmdInquiry | compRaw | compRle | rleLit | rleRep =>
    obtain ⟨d, e, -, rfl⟩ := feedByte_next h
    exact ⟨_, replyOf_returnFrom_same _ _ _, nofun, nofun⟩
  case deviceId => exact exec_shared_reply (.inr rfl) nofun h
  all_goals exact exec_shared_reply (.inl rfl) nofun h

end Sys2Proof.Machine

open Sys2Proof Sys2Proof.Machine

/-- Settles O52: every reply's word is made of its two fields, and every instruction leaves a reply of its kind. -/
theorem resultWordLayout : Obligations.ResultWordLayout := by
  unfold Obligations.ResultWordLayout
  refine ⟨⟨rfl, rfl, rfl, rfl, rfl, rfl, rfl, rfl⟩, fun r => ?_, fun i s t h => exec_reply h⟩
  cases r with
  | event e =>
    cases e with
    | needMore => exact resultWord_fields 0#4 0#2
    | packet p => exact resultWord_fields 0#4 1#2
    | error k => exact resultWord_fields k.code 2#2
  | ok v => exact resultWord_fields 0#4 3#2
  | error k => exact resultWord_fields k.code 2#2

/-- Settles O51: the trailer is made of the device ID and the byte of the record on the port. -/
theorem trailReturnsIdAndStatus : Obligations.TrailReturnsIdAndStatus := fun _ => rfl

end

section
/-! PROOFS. A whole packet. After the length bytes the decoder takes exactly the wire payload and the two checksum bytes
(O47), and a payload that decompresses, or is raw, is emitted as the logical payload (O45). -/

namespace Sys2Proof.Machine

/-! ### Sequences in parts -/

theorem feedAll_append_ok {bs cs : List Byte} {d d' : Decoder} {es : List Event}
    (h : d.feedAll (bs ++ cs) = .ok (d', es)) :
    ∃ d1 es1 es2, d.feedAll bs = .ok (d1, es1) ∧ d1.feedAll cs = .ok (d', es2) ∧ es = es1 ++ es2 := by
  rw [feedAll_append] at h
  split at h
  · cases h
  · next d1 es1 h1 =>
    split at h
    · cases h
    · next es2 h2 =>
      cases h
      exact ⟨d1, es1, es2, h1, h2, rfl⟩

theorem feedAll_append_of {bs cs : List Byte} {d d1 d2 : Decoder} {es fs : List Event}
    (h1 : d.feedAll bs = .ok (d1, es)) (h2 : d1.feedAll cs = .ok (d2, fs)) :
    d.feedAll (bs ++ cs) = .ok (d2, es ++ fs) := by
  rw [feedAll_append, h1]
  simp only [h2]

theorem feedAll_cons_of {b : Byte} {bs : List Byte} {d d1 d2 : Decoder} {e : Event} {es : List Event}
    (h1 : d.feed b = .ok (d1, e)) (h2 : d1.feedAll bs = .ok (d2, es)) : d.feedAll (b :: bs) = .ok (d2, e :: es) := by
  simp only [Decoder.feedAll, h1, h2]

/-! ### After the length bytes -/

/-- The header has been taken, and the payload goes on while the budget lasts (R108, R109, R110). -/
def Decoder.inBody (d : Decoder) : Prop := d.state = if d.rem = 0#16 then .checksumLow else .payload

section
variable {d : Decoder}

theorem Decoder.inBody.payload (h : d.inBody) (hr : d.rem ≠ 0#16) : d.state = .payload := h.trans (if_neg hr)

theorem Decoder.inBody.checksumLow (h : d.inBody) (hr : d.rem = 0#16) : d.state = .checksumLow := h.trans (if_pos hr)

theorem afterPayload_inBody (hs : d.state = .payload) (b : Byte) (vs : List Byte) (mode : RleMode) (cnt : Byte) :
    (d.afterPayload b vs mode cnt).inBody := by
  show (if d.rem - 1#16 = 0#16 then DecState.checksumLow else d.state) = _
  rw [hs]
  rfl

/-- A budget that counts a sequence is used up with its end. -/
theorem rem_of_length_cons {b : Byte} {w : List Byte} (h : d.rem.toNat = (b :: w).length) :
    d.rem ≠ 0#16 ∧ (d.rem - 1#16).toNat = w.length := by
  rw [List.length_cons] at h
  rw [half_sub_one (by omega), ne_eq, half_eq_zero]
  omega

end

/-- The events of a packet whose header gave NeedMore `m` times and whose payload gave it `n` times. -/
theorem packet_events (m n : Nat) (p : Packet) :
    List.replicate m Event.needMore ++ List.replicate n .needMore ++ [.needMore, .packet p] =
      List.replicate (n + (m + 1)) .needMore ++ [.packet p] := by
  rw [List.replicate_append_replicate, show n + (m + 1) = m + n + 1 by omega, List.replicate_succ', List.append_assoc]
  rfl

/-! ### No resync inside a packet -/

/-- Before the last byte of a packet, an event that is no error is NeedMore. -/
theorem feed_needMore_of_ne_error {d d' : Decoder} {b : Byte} {e : Event} (hs : d.state ≠ .checksumHigh)
    (h : d.feed b = .ok (d', e)) (he : ∀ k, e ≠ .error k) : e = .needMore := by
  cases hst : d.state
  case checksumHigh => exact absurd hst hs
  case payload =>
    rcases feed_payload hst h with ⟨-, rfl | rfl⟩ | ⟨vs, mode, cnt, rfl, -⟩
    · exact absurd rfl (he _)
    · exact absurd rfl (he _)
    · rfl
  all_goals simp only [hst, Decoder.feed] at h
  case command | compression =>
    simp only [Decoder.takeCommand, Decoder.takeCompression] at h
    split at h
    all_goals cases h
    · exact absurd rfl (he _)
    · rfl
  case waitSync0 | waitSync1 | lenLow | lenHigh | checksumLow =>
    cases h
    rfl

/-- A sequence that raises no error, split at its first byte: the byte gives NeedMore unless it ends the packet. -/
theorem feedAll_cons_noError {d d' : Decoder} {b : Byte} {bs : List Byte} {es : List Event}
    (hs : d.state ≠ .checksumHigh) (h : d.feedAll (b :: bs) = .ok (d', es)) (he : ∀ k, Event.error k ∉ es) :
    ∃ d1 es', d.feed b = .ok (d1, .needMore) ∧ d1.feedAll bs = .ok (d', es') ∧ es = .needMore :: es' ∧
      ∀ k, Event.error k ∉ es' := by
  obtain ⟨d1, e, es', h1, h2, rfl⟩ := feedAll_cons h
  have hne : ∀ k, e ≠ .error k := fun k hk => he k (hk ▸ List.mem_cons_self)
  obtain rfl := feed_needMore_of_ne_error hs h1 hne
  exact ⟨d1, es', h1, h2, rfl, fun k hk => he k (List.mem_cons_of_mem _ hk)⟩

theorem feed_payload_inBody {d d' : Decoder} {b : Byte} (hs : d.state = .payload)
    (h : d.feed b = .ok (d', .needMore)) : d'.inBody ∧ d'.rem = d.rem - 1#16 := by
  rcases feed_payload hs h with ⟨-, h | h⟩ | ⟨vs, mode, cnt, -, rfl, -⟩
  · cases h
  · cases h
  · exact ⟨afterPayload_inBody hs b vs mode cnt, rfl⟩

/-- A header that raises no error: four times NeedMore, and the budget is the length. -/
theorem feedAll_header_noError {d d' : Decoder} {c f lo hi : Byte} {es : List Event} (hs : d.state = .command)
    (h : d.feedAll [c, f, lo, hi] = .ok (d', es)) (he : ∀ k, Event.error k ∉ es) :
    es = List.replicate 4 .needMore ∧ d'.inBody ∧ d'.rem = hi ++ lo := by
  obtain ⟨d1, es1, h1, hr1, rfl, he1⟩ := feedAll_cons_noError (by rw [hs]; nofun) h he
  obtain rfl := feed_command_needMore hs h1
  obtain ⟨d2, es2, h2, hr2, rfl, he2⟩ := feedAll_cons_noError (by nofun) hr1 he1
  obtain ⟨g, rfl⟩ := feed_compression_needMore rfl h2
  cases hr2
  exact ⟨rfl, rfl, setHigh_setLow _ _ _⟩

/-- A wire payload that raises no error: NeedMore for each byte, whatever the bytes are, and the decoder waits for the
checksum. -/
theorem feedAll_payload_noError : ∀ {w : List Byte} {d d' : Decoder} {es : List Event}, d.inBody →
    d.rem.toNat = w.length → d.feedAll w = .ok (d', es) → (∀ k, Event.error k ∉ es) →
    es = List.replicate w.length .needMore ∧ d'.state = .checksumLow
  | [], _, _, _, hbody, hr, h, _ => by
    cases h
    exact ⟨rfl, hbody.checksumLow (half_eq_zero.mpr hr)⟩
  | b :: w, d, _, _, hbody, hr, h, he => by
    obtain ⟨hne, hlen⟩ := rem_of_length_cons hr
    have hs := hbody.payload hne
    obtain ⟨d1, es', h1, h2, rfl, he'⟩ := feedAll_cons_noError (by rw [hs]; nofun) h he
    obtain ⟨hbody', hrem⟩ := feed_payload_inBody hs h1
    obtain ⟨rfl, hstate⟩ := feedAll_payload_noError hbody' (hrem ▸ hlen) h2 he'
    exact ⟨rfl, hstate⟩

/-- The two checksum bytes, whatever they are, end the packet. -/
theorem feedAll_checksum_ok {d d' : Decoder} {k0 k1 : Byte} {es : List Event} (hs : d.state = .checksumLow)
    (h : d.feedAll [k0, k1] = .ok (d', es)) : ∃ p, es = [.needMore, .packet p] ∧ d' = Decoder.idle := by
  obtain ⟨d1, e1, es1, h1, hr1, rfl⟩ := feedAll_cons h
  rw [feed_checksumLow hs] at h1
  cases h1
  obtain ⟨d2, e2, es2, h2, hr2, rfl⟩ := feedAll_cons hr1
  obtain ⟨rfl, c, -, rfl⟩ := feed_checksumHigh rfl h2
  cases hr2
  exact ⟨_, rfl, rfl⟩

/-! ### What a payload writes -/

/-- The logical payload written so far (R112). -/
def Decoder.written (d : Decoder) : List Byte := d.pb.readSeq 0 d.olen

@[simp] theorem written_length (d : Decoder) : d.written.length = d.olen := readSeq_length _ _ _

theorem afterPayload_written (d : Decoder) (b : Byte) (vs : List Byte) (mode : RleMode) (cnt : Byte) :
    (d.afterPayload b vs mode cnt).written = d.written ++ vs :=
  readSeq_writeSeq d.pb d.olen vs

/-- The bytes that a step of the line decoder writes (R141, R142, R143). -/
def RleOut.bytes : RleOut → List Byte
  | .nothing => []
  | .one v => [v]
  | .copies v n => List.replicate n v

theorem outputSeq_eq_some {out vs out' : List Byte} (h : outputSeq out vs = some out') :
    out.length + vs.length ≤ Config.outMax ∧ out' = out ++ vs := by
  by_cases ho : out.length + vs.length ≤ Config.outMax
  · rw [outputSeq_of_le ho] at h
    cases h
    exact ⟨ho, rfl⟩
  · rw [outputSeq_of_gt (Nat.lt_of_not_le ho)] at h
    cases h

/-- What RLED can write to its output, a decoder can write to its buffer, and it is the same bytes (R148). -/
theorem emit_of_outputEmit {d : Decoder} {e : RleOut} {out' : List Byte} (h : outputEmit d.written e = some out') :
    d.emit e = some { d with pb := d.pb.writeSeq d.olen e.bytes, olen := d.olen + e.bytes.length } ∧
      out' = d.written ++ e.bytes := by
  cases e with
  | nothing =>
    cases h
    exact ⟨rfl, (List.append_nil _).symm⟩
  | one v =>
    obtain ⟨hle, rfl⟩ := outputSeq_eq_some h
    exact ⟨appendSeq_of_le d (by simpa using hle), rfl⟩
  | copies v n =>
    obtain ⟨hle, rfl⟩ := outputSeq_eq_some h
    exact ⟨appendSeq_of_le d (by simpa using hle), rfl⟩

/-- All that one round of the loop of RLED does when the stream decompresses. -/
theorem rleRun_cons_ok {b : Byte} {w out p : List Byte} {mode : RleMode} {cnt : Byte} {rem : Nat}
    (h : rleRun (b :: w) mode cnt rem out = .ok p) :
    ∃ mode' cnt' e out', rleStep mode cnt (rem - 1) b = .ok (mode', cnt', e) ∧ outputEmit out e = some out' ∧
      rleRun w mode' cnt' (rem - 1) out' = .ok p := by
  unfold rleRun at h
  split at h
  · cases h
  · next mode' cnt' e hstep =>
    split at h
    · cases h
    · next out' hout => exact ⟨mode', cnt', e, out', hstep, hout, h⟩

/-- The rest `w` of the wire payload makes the logical payload `p`: what is written, followed by the rest if it is raw,
or by what RLED makes of the rest from the decoder's run state and budget on if it is compressed. -/
def Decoder.yields (d : Decoder) (w p : List Byte) : Prop :=
  if d.comp then rleRun w d.rleMode d.rleCnt d.rem.toNat d.written = .ok p
  else d.written ++ w = p ∧ p.length ≤ Config.outMax

section
variable {d : Decoder} {w p : List Byte}

theorem yields_of_raw (hc : d.comp = false) : d.yields w p ↔ d.written ++ w = p ∧ p.length ≤ Config.outMax := by
  simp [Decoder.yields, hc]

theorem yields_of_compressed (hc : d.comp = true) :
    d.yields w p ↔ rleRun w d.rleMode d.rleCnt d.rem.toNat d.written = .ok p := by
  simp [Decoder.yields, hc]

theorem written_of_yields_nil (h : d.yields [] p) : d.written = p := by
  cases hc : d.comp with
  | false => simpa using ((yields_of_raw hc).mp h).1
  | true =>
    have hrun := (yields_of_compressed hc).mp h
    cases hrun
    rfl

/-- The decoder simulates the loop of RLED, and copies a raw payload: a payload byte is taken, and the rest makes the same
logical payload. -/
theorem feed_yields {b : Byte} (hs : d.state = .payload) (hr : 1 ≤ d.rem.toNat) (h : d.yields (b :: w) p) :
    ∃ vs mode cnt, d.feed b = .ok (d.afterPayload b vs mode cnt, .needMore) ∧
      (d.afterPayload b vs mode cnt).yields w p := by
  cases hc : d.comp with
  | false =>
    obtain ⟨rfl, hmax⟩ := (yields_of_raw hc).mp h
    have hroom : d.olen + 1 ≤ Config.outMax := by
      simp only [List.length_append, written_length, List.length_cons] at hmax
      omega
    refine ⟨[b], d.rleMode, d.rleCnt, feed_raw hs hc hroom, (yields_of_raw (d := d.afterPayload _ _ _ _) hc).mpr ⟨?_, hmax⟩⟩
    rw [afterPayload_written, List.append_assoc, List.singleton_append]
  | true =>
    obtain ⟨mode, cnt, e, out', hstep, hout, hrun⟩ := rleRun_cons_ok ((yields_of_compressed hc).mp h)
    rw [← half_sub_one hr] at hstep hrun
    obtain ⟨hemit, rfl⟩ := emit_of_outputEmit (d := d.sum b) hout
    refine ⟨e.bytes, mode, cnt, feed_compressed hs hc hstep hemit,
      (yields_of_compressed (d := d.afterPayload _ _ _ _) hc).mpr ?_⟩
    rw [afterPayload_written]
    exact hrun

end

/-! ### The parts of a packet -/

/-- The decoder right after the length bytes of a packet. -/
def payloadStart (c : Command) (f : Bool) (lo hi : Byte) : Decoder :=
  { Decoder.idle with
      state := if hi ++ lo = 0#16 then .checksumLow else .payload
      cmd := c.toByte, comp := f, len := hi ++ lo, rem := hi ++ lo, acc := csum16 [c.toByte, compByte f, lo, hi] }

theorem feedAll_header (c : Command) (f : Bool) (lo hi : Byte) :
    Decoder.idle.feedAll [sync0Byte, sync1Byte, c.toByte, compByte f, lo, hi] =
      .ok (payloadStart c f lo hi, List.replicate 6 .needMore) := by
  rw [payloadStart, ← setHigh_setLow 0#16 lo hi]
  exact feedAll_cons_of (feed_sync0 (.inl rfl)) <| feedAll_cons_of (feed_sync1 rfl) <|
    feedAll_cons_of (feed_command_of rfl c) <| feedAll_cons_of (feed_compression_of rfl f) <|
    feedAll_cons_of (feed_lenLow rfl) <| feedAll_cons_of (feed_lenHigh rfl) rfl

/-- A wire payload of the length that remains gives NeedMore for each byte, and what it makes is written. -/
theorem feedAll_payload : ∀ {w p : List Byte} {d : Decoder}, d.inBody → d.rem.toNat = w.length → d.yields w p →
    ∃ d', d.feedAll w = .ok (d', List.replicate w.length .needMore) ∧ d'.state = .checksumLow ∧ d'.cmd = d.cmd ∧
      d'.comp = d.comp ∧ d'.written = p
  | [], _, d, hbody, hr, h => ⟨d, rfl, hbody.checksumLow (half_eq_zero.mpr hr), rfl, rfl, written_of_yields_nil h⟩
  | b :: w, _, d, hbody, hr, h => by
    obtain ⟨hne, hlen⟩ := rem_of_length_cons hr
    have hs := hbody.payload hne
    obtain ⟨vs, mode, cnt, hfeed, hrest⟩ := feed_yields hs (by simp [hr]) h
    obtain ⟨d', hall, hd'⟩ := feedAll_payload (afterPayload_inBody hs b vs mode cnt) hlen hrest
    exact ⟨d', feedAll_cons_of hfeed hall, hd'⟩

/-- The two checksum bytes: the Packet with what is written, the verdict on the checksum and the length warning. -/
theorem feedAll_checksum {d : Decoder} {c : Command} (k0 k1 : Byte) (hs : d.state = .checksumLow)
    (hc : d.cmd = c.toByte) :
    d.feedAll [k0, k1] = .ok (Decoder.idle, [.needMore, .packet
      { command := c, compressed := d.comp, payload := d.written, checksumValid := decide (k1 ++ k0 = d.acc)
        lengthWarning := lengthWarning c d.written.length }]) := by
  rw [written_length, ← setHigh_setLow d.rxcs k0 k1]
  exact feedAll_cons_of (feed_checksumLow hs) <|
    feedAll_cons_of (feed_checksumHigh_of rfl (by simp [hc])) rfl

section
variable {c : Command} {f : Bool} {lo hi : Byte} {w p : List Byte}

/-- A payload that is raw, or decompresses, makes its logical payload from the first byte on. -/
theorem payloadStart_yields (hx : (hi ++ lo).toNat = w.length) (hp : if f then rleDecompress w = .ok p else p = w) :
    (payloadStart c f lo hi).yields w p := by
  cases f with
  | false =>
    obtain rfl : p = w := hp
    have hmax := outMax_ge
    have hlt := (hi ++ lo).isLt
    exact (yields_of_raw rfl).mpr ⟨rfl, by omega⟩
  | true =>
    have hrun : rleRun w .tag 0 w.length [] = .ok p := hp
    rw [← hx] at hrun
    exact (yields_of_compressed rfl).mpr hrun

/-- Every packet decodes from an idle decoder. -/
theorem feedAll_packet (k0 k1 : Byte) (hx : (hi ++ lo).toNat = w.length)
    (hp : if f then rleDecompress w = .ok p else p = w) :
    Decoder.idle.feedAll ([sync0Byte, sync1Byte, c.toByte, compByte f, lo, hi] ++ w ++ [k0, k1]) =
      .ok (Decoder.idle, List.replicate (7 + w.length) .needMore ++ [.packet
        { command := c, compressed := f, payload := p
          checksumValid := decide (k1 ++ k0 = csum16 ([c.toByte, compByte f, lo, hi] ++ w))
          lengthWarning := lengthWarning c p.length }]) := by
  have hheader := feedAll_header c f lo hi
  obtain ⟨d, hpayload, hstate, hcmd, hcomp, hwritten⟩ :=
    feedAll_payload (d := payloadStart c f lo hi) rfl hx (payloadStart_yields hx hp)
  have hacc : d.acc = csum16 ([c.toByte, compByte f, lo, hi] ++ w) := by
    rw [feedAll_payload_acc (fun hr => if_neg hr) hx hpayload (fun e he => List.eq_of_mem_replicate he)]
    simp [payloadStart, csum16_cons, BitVec.add_assoc]
  have hchecksum := feedAll_checksum k0 k1 hstate hcmd
  rw [hcomp, hwritten, hacc] at hchecksum
  rw [feedAll_append_of (feedAll_append_of hheader hpayload) hchecksum, packet_events, Nat.add_comm]
  rfl

end

end Sys2Proof.Machine

open Sys2Proof Sys2Proof.Machine

/-- Settles O45: the header, the payload, which the decoder makes as RLED does, and the checksum, one after the other. -/
theorem everyPacketDecodes : Obligations.EveryPacketDecodes := by
  unfold Obligations.EveryPacketDecodes
  intro s c f w p k0 k1 x received hidle hx hreceived hp
  have hbytes : x.extractLsb' 8 8 ++ x.extractLsb' 0 8 = x := by
    rw [← highByte_eq, ← lowByte_eq, highByte_append_lowByte]
  have hall := feedAll_packet (c := c) (lo := x.extractLsb' 0 8) (hi := x.extractLsb' 8 8) k0 k1 (by rwa [hbytes]) hp
  rw [← hidle, ← hreceived] at hall
  obtain ⟨u, hu, hd⟩ := feeds_of_feedAll hall
  exact ⟨u, hu, hd.trans hidle⟩

/-- Settles O47: with no error the header, the payload and the checksum take their bytes, whatever they are. -/
theorem noResyncInsideAPacket : Obligations.NoResyncInsideAPacket := by
  unfold Obligations.NoResyncInsideAPacket
  intro s c f lo hi k0 k1 w es u _ hs hw hfeeds he
  obtain ⟨-, hall⟩ := feeds_next hfeeds
  obtain ⟨d2, es2, es3, hbody, hchecksum, rfl⟩ := feedAll_append_ok hall
  obtain ⟨d1, es0, es1, hheader, hpayload, rfl⟩ := feedAll_append_ok hbody
  simp only [List.mem_append, not_or] at he
  obtain ⟨rfl, hin, hrem⟩ := feedAll_header_noError hs hheader fun k => (he k).1.1
  have hlen : d1.rem.toNat = w.length := by
    rw [hrem, toNat_append_byte]
    omega
  obtain ⟨rfl, hstate⟩ := feedAll_payload_noError hin hlen hpayload fun k => (he k).1.2
  obtain ⟨p, rfl, hidle⟩ := feedAll_checksum_ok hstate hchecksum
  exact ⟨p, packet_events 4 w.length p, hidle⟩

end

section
/-! PROOFS. What FEED does in each state of the decoder: the sync word (O11), the header (O12, O13, O14), a raw payload
(O15), the checksum and the packet (O19, O20), and the event that it leaves (O26). DRST (O27). -/

namespace Sys2Proof.Machine

/-! ### The bytes of the header -/

/-- The two compression bytes are those that the recogniser takes. -/
theorem mem_compBytes (b : Byte) : b ∈ [0x00#8, 0x01#8] ↔ (compOfByte? b).isSome := by
  simp only [List.mem_cons, List.not_mem_nil, or_false]
  unfold compOfByte?
  split_ifs <;> simp_all

/-- Bit 0 of a compression byte is its flag (R74). -/
theorem compByte_getLsbD_zero (f : Bool) : (compByte f).getLsbD 0 = f := by
  cases f <;> rfl

/-- The length warning by the command: Print expects four bytes, and Init, Break and Inquiry none (R114). -/
theorem lengthWarning_eq (c : Command) (n : Nat) :
    lengthWarning c n = decide ((c = .print ∧ n ≠ 4) ∨ ((c = .init ∨ c = .break ∨ c = .inquiry) ∧ n ≠ 0)) := by
  rw [Bool.eq_iff_iff]
  cases c <;> simp [lengthWarning]

/-! ### One byte, by the state it arrives in -/

section
variable {d : Decoder} {b : Byte}

theorem feed_waitSync0 (hs : d.state = .waitSync0) :
    d.feed b = .ok (if b = sync0Byte then { d with state := .waitSync1 } else d, .needMore) := by
  simp only [Decoder.feed, hs]
  rfl

theorem feed_waitSync1 (hs : d.state = .waitSync1) :
    d.feed b = .ok ({ d with
      state := if b = sync1Byte then .command else if b = sync0Byte then .waitSync1 else .waitSync0 }, .needMore) := by
  simp only [Decoder.feed, hs, Decoder.takeWaitSync1]
  split_ifs <;> rfl

/-- A byte that is no command aborts the packet (R104). -/
theorem feed_command_of_none (hs : d.state = .command) (hb : Command.ofByte? b = none) :
    d.feed b = .ok (Decoder.idle, .error .unrecognizedCommand) := by
  simp only [Decoder.feed, hs, Decoder.takeCommand, hb, raise_eq]

/-- A byte that is no compression flag aborts the packet (R106). -/
theorem feed_compression_of_none (hs : d.state = .compression) (hb : compOfByte? b = none) :
    d.feed b = .ok (Decoder.idle, .error .unrecognizedCompressionFlag) := by
  simp only [Decoder.feed, hs, Decoder.takeCompression, hb, raise_eq]

/-- An uncompressed payload byte beyond the capacity aborts the packet (R109). -/
theorem feed_raw_of_gt (hs : d.state = .payload) (hc : d.comp = false) (ho : Config.outMax < d.olen + 1) :
    d.feed b = .ok (Decoder.idle, .error .bufferOverflow) := by
  have hnone : (d.sum b).append b = none := appendSeq_of_gt (d.sum b) (vs := [b]) ho
  simp only [Decoder.feed, hs, hc, Bool.false_eq_true, if_false, Decoder.takeRaw, hnone, raise_eq]

/-- A raw payload of a decoder that meets its invariant always has room for its next byte: the wire length has 16 bits
(R7, R33 (f)). -/
theorem Decoder.Inv.raw_room (h : d.Inv) (hs : d.state = .payload) (hc : d.comp = false) :
    d.olen + 1 ≤ Config.outMax := by
  obtain ⟨-, -, -, ⟨hbudget, -⟩, -, -, -, hraw⟩ := h
  have hlen := d.len.isLt
  have hbound := outMax_ge
  have hrem := hbudget hs
  have holen := hraw hc hs
  omega

/-! ### The event of a byte -/

/-- A Packet comes only on the last byte of the checksum, and leaves the decoder idle (R112). -/
theorem feed_packet {d' : Decoder} {p : Packet} (h : d.feed b = .ok (d', .packet p)) :
    d.state = .checksumHigh ∧ d' = Decoder.idle := by
  have hs : d.state = .checksumHigh := by
    by_contra hs
    cases feed_needMore_of_ne_error hs h nofun
  exact ⟨hs, (feed_checksumHigh hs h).1⟩

/-- An Error comes only on a byte that breaks the packet in Command, Compression or Payload, and leaves the decoder idle
(R231 (a)). -/
theorem feed_errorEvent {d' : Decoder} {k : ErrorKind} (h : d.feed b = .ok (d', .error k)) :
    d.state ∈ [.command, .compression, .payload] ∧ d' = Decoder.idle := by
  cases hs : d.state
  case payload =>
    rcases feed_payload hs h with ⟨hidle, -⟩ | ⟨vs, mode, cnt, he, -⟩
    · exact ⟨by simp, hidle⟩
    · cases he
  case checksumHigh =>
    obtain ⟨-, c, -, he⟩ := feed_checksumHigh hs h
    cases he
  all_goals simp only [hs, Decoder.feed] at h
  case command | compression =>
    simp only [Decoder.takeCommand, Decoder.takeCompression] at h
    split at h
    all_goals cases h
    exact ⟨by simp, rfl⟩
  case waitSync0 | waitSync1 | lenLow | lenHigh | checksumLow => cases h

end

end Sys2Proof.Machine

open Sys2Proof Sys2Proof.Machine

/-- Settles O11: the two sync states never abort and write `DEC.state` alone. -/
theorem feedInWaitSync : Obligations.FeedInWaitSync := by
  unfold Obligations.FeedInWaitSync
  exact fun s b => ⟨fun hs => exec_feed_of (feed_waitSync0 hs), fun hs => exec_feed_of (feed_waitSync1 hs)⟩

/-- Settles O12: the recogniser takes the five command bytes and no other. -/
theorem feedInCommand : Obligations.FeedInCommand := by
  unfold Obligations.FeedInCommand
  intro s b hs
  cases hb : Command.ofByte? b with
  | none =>
    rw [if_neg (mt (mem_commands b).mp (by simp [hb]))]
    exact exec_feed_of (feed_command_of_none hs hb)
  | some c =>
    rw [if_pos ((mem_commands b).mpr (by simp [hb])), ← toByte_of_ofByte hb]
    exact exec_feed_of (feed_command_of hs c)

/-- Settles O13: the recogniser takes 0x00 and 0x01 and no other byte, and the flag is bit 0. -/
theorem feedInCompression : Obligations.FeedInCompression := by
  unfold Obligations.FeedInCompression
  intro s b hs
  cases hb : compOfByte? b with
  | none =>
    rw [if_neg (mt (mem_compBytes b).mp (by simp [hb]))]
    exact exec_feed_of (feed_compression_of_none hs hb)
  | some f =>
    rw [if_pos ((mem_compBytes b).mpr (by simp [hb])), ← compByte_of_ofByte hb, compByte_getLsbD_zero]
    exact exec_feed_of (feed_compression_of hs f)

/-- Settles O14: each length byte replaces its half of the register. -/
theorem feedInLengthBytes : Obligations.FeedInLengthBytes := by
  unfold Obligations.FeedInLengthBytes
  refine fun s b x => ⟨fun hs hx => ?_, fun hs hx => ?_⟩
  · rw [hx, ← setLow_eq]
    exact exec_feed_of (feed_lenLow hs)
  · rw [hx, ← setHigh_eq]
    exact exec_feed_of (feed_lenHigh hs)

/-- Settles O15: the byte is appended if there is room, which the invariant grants. -/
theorem feedInRawPayload : Obligations.FeedInRawPayload := by
  unfold Obligations.FeedInRawPayload
  refine fun s b hs hc => ⟨?_, fun hd => hd.raw_room hs hc⟩
  by_cases ho : (s.dec s.link).olen + 1 ≤ Config.outMax
  · rw [if_pos ho, exec_feed_of (feed_raw hs hc ho), ← hs]
    rfl
  · rw [if_neg ho]
    exact exec_feed_of (feed_raw_of_gt hs hc (Nat.lt_of_not_le ho))

/-- Settles O19: the byte replaces bits 7:0 of the received checksum. -/
theorem feedInChecksumLow : Obligations.FeedInChecksumLow := by
  unfold Obligations.FeedInChecksumLow
  intro s b hs
  rw [← setLow_eq]
  exact exec_feed_of (feed_checksumLow hs)

/-- Settles O20: the latched command is emitted with the two flags, and the invariant says that there is one and that
the indices below `DEC.olen` are written. -/
theorem feedInChecksumHigh : Obligations.FeedInChecksumHigh := by
  unfold Obligations.FeedInChecksumHigh
  refine ⟨fun s b c received hs hc hreceived => ?_, fun d => ⟨readSeq_length _ _ _, fun i hi => ?_⟩,
    fun d hd hs => ⟨?_, fun i hi => ?_⟩⟩
  · have hcmd : Command.ofByte? (s.dec s.link).cmd = some c := by rw [← hc, command_ofByte_toByte]
    rw [exec_feed_of (feed_checksumHigh_of hs hcmd), lengthWarning_eq, setHigh_eq, ← hreceived]
    rfl
  · rw [List.getElem?_eq_getElem (by simpa using hi), readSeq_getElem, Nat.zero_add]
  · obtain ⟨hcmd, -⟩ := hd.contentSound (by rw [hs]; rfl)
    obtain ⟨c, hc⟩ := Option.isSome_iff_exists.mp hcmd
    exact ⟨c, toByte_of_ofByte hc⟩
  · obtain ⟨-, -, -, -, -, hbuf⟩ := hd
    exact read_written hbuf hi

/-- Settles O26: a FEED that completes returns the event of its byte, which says the state it was taken in. -/
theorem oneEventPerByte : Obligations.OneEventPerByte := by
  unfold Obligations.OneEventPerByte
  intro s t b h
  obtain ⟨d, e, hfeed, rfl⟩ := feedByte_next h
  rw [dec_returnFrom_same]
  refine ⟨e, replyOf_returnFrom_same s d _, fun p hp => ?_, fun k hk => ?_⟩
  · subst hp
    exact feed_packet hfeed
  · subst hk
    exact feed_errorEvent hfeed

/-- Settles O27: DRST is the idle load, in every state. -/
theorem drstDiscardsThePacket : Obligations.DrstDiscardsThePacket := fun _ => rfl

end

section
/-! PROOFS. FEEDN in two parts (O25), and on bytes that are noise (O48). -/

namespace Sys2Proof.Machine

/-- A FEEDN that leaves events has fed its whole operand to the selected link's decoder. -/
theorem execFeedn_events {s t : State} {es : List Event} (h : exec .feedn s = .next t)
    (hr : t.replyOf (.dec s.link) = some (.ok (.events es))) :
    t.link = s.link ∧ (s.dec s.link).feedAll s.operand = .ok (t.dec s.link, es) := by
  rcases execFeedn_next h with ⟨-, rfl⟩ | ⟨-, d, es', hall, rfl⟩
  · rw [replyOf_answer_same] at hr
    cases hr
  · rw [replyOf_returnFrom_same] at hr
    cases hr
    exact ⟨rfl, by rw [dec_returnFrom_same]; exact hall⟩

/-- A decoder in WaitSync0 discards bytes that hold no 0x88, one by one (R102). -/
theorem feedAll_noise {d : Decoder} (hs : d.state = .waitSync0) : ∀ {bs : List Byte}, sync0Byte ∉ bs →
    d.feedAll bs = .ok (d, List.replicate bs.length .needMore)
  | [], _ => rfl
  | b :: bs, h => by
    obtain ⟨hb, hbs⟩ := List.ne_and_not_mem_of_not_mem_cons h
    have hfeed := feed_waitSync0 (b := b) hs
    rw [if_neg (Ne.symm hb)] at hfeed
    exact feedAll_cons_of hfeed (feedAll_noise hs hbs)

end Sys2Proof.Machine

open Sys2Proof Sys2Proof.Machine

/-- Settles O25: both parts are fed to the decoder of the same link, the second where the first left it. -/
theorem feednInTwoParts : Obligations.FeednInTwoParts := by
  unfold Obligations.FeednInTwoParts
  intro s t u bs cs es fs hl ht hes hu hfs
  obtain ⟨hlink, hfirst⟩ : t.link = s.link ∧ (s.dec s.link).feedAll bs = .ok (t.dec s.link, es) :=
    execFeedn_events ht hes
  have hall : (s.dec s.link).feedAll (bs ++ cs) = .ok (u.dec s.link, es ++ fs) := by
    rw [← hlink] at hfirst hfs ⊢
    obtain ⟨-, hsecond⟩ := execFeedn_events hu hfs
    exact feedAll_append_of hfirst hsecond
  refine ⟨⟨_, execFeedn_of (s := { s with operand := bs ++ cs }) hl hall, ?_, ?_⟩, feeds_of_feedAll hall⟩
  · exact dec_returnFrom_same { s with operand := bs ++ cs } _ _
  · exact replyOf_returnFrom_same { s with operand := bs ++ cs } _ _

/-- Settles O48: FEEDN feeds the whole operand, and all of it is noise. -/
theorem trailingBytesAreNoise : Obligations.TrailingBytesAreNoise := by
  unfold Obligations.TrailingBytesAreNoise
  exact fun s hs hnoise hl => execFeedn_of hl (feedAll_noise hs hnoise)

end

section
/-! PROOFS. The RLE codec as a decompressor: RLED takes the sequences of runs that fit in `OUT_MAX` and no other stream
(O37, O38, O39), and so gives back what the compressor wrote (O42). -/

namespace Sys2Proof.Machine

/-! ### The requests -/

/-- A value that a request with a byte sequence returns is what its unit computed. -/
theorem eq_ok_of_operandReply {bs : List Byte} {f : List Byte → Except ErrorKind Value} {v : Value}
    (h : operandReply bs f = .ok v) : f bs = .ok v := by
  rcases operandReply_cases bs f with ⟨hr, -⟩ | ⟨v', hr, hf⟩ | ⟨k, hr, -⟩
  all_goals
    rw [hr] at h
    cases h
  exact hf

theorem exec_rled (s : State) :
    exec .rled s = .next (s.answer .rle (operandReply s.operand fun w => (rleDecompress w).map .bytes)) := rfl

theorem exec_rlec (s : State) :
    exec .rlec s = .next (s.answer .rle (operandReply s.operand fun p => .ok (.bytes (rleCompress p)))) := rfl

/-- RLED of an operand that decompresses (R147). -/
theorem exec_rled_of {s : State} {out : List Byte} (hl : s.operand.length ≤ Config.operandMax)
    (h : rleDecompress s.operand = .ok out) : exec .rled s = .next (s.answer .rle (.ok (.bytes out))) := by
  rw [exec_rled, operandReply_of_le hl, h]
  rfl

/-- The byte sequence that RLEC returns is its operand compressed (R160). -/
theorem eq_rleCompress_of_exec_rlec {s t : State} {w : List Byte} (h : exec .rlec s = .next t)
    (hr : t.replyOf .rle = some (.ok (.bytes w))) : w = rleCompress s.operand := by
  rw [exec_rlec] at h
  cases h
  rw [replyOf_answer_same] at hr
  cases eq_ok_of_operandReply (Option.some.inj hr)
  rfl

/-! ### What decompresses -/

/-- All that RLED can make of a stream (R148): the logical bytes of its runs, MalformedRLEStream at a starved tag after
runs that fit, or BufferOverflow. -/
theorem rleDecompress_cases (w : List Byte) : ∃ rs, Runs.wf rs ∧
    ((Runs.wire rs = w ∧ (Runs.out rs).length ≤ Config.outMax ∧ rleDecompress w = .ok (Runs.out rs)) ∨
      (∃ t rest, w = Runs.wire rs ++ t :: rest ∧ (Runs.out rs).length ≤ Config.outMax ∧ tagStarved t rest ∧
        rleDecompress w = .error .malformedRLEStream) ∨
      rleDecompress w = .error .bufferOverflow) := by
  obtain ⟨rs, hwf, rfl | ⟨t, rest, rfl, hstarved⟩⟩ := exists_runs w.length w le_rfl
  all_goals
    refine ⟨rs, hwf, ?_⟩
    by_cases hle : (Runs.out rs).length ≤ Config.outMax
  · exact .inl ⟨rfl, hle, by rw [rleDecompress_runs hwf, if_pos hle]⟩
  · exact .inr (.inr (by rw [rleDecompress_runs hwf, if_neg hle]))
  · exact .inr (.inl ⟨t, rest, rfl, hle, hstarved, by rw [rleDecompress_starved hwf hstarved, if_pos hle]⟩)
  · exact .inr (.inr (by rw [rleDecompress_starved hwf hstarved, if_neg hle]))

theorem rleDecompress_eq_ok_iff {w out : List Byte} : rleDecompress w = .ok out ↔
    ∃ rs, Runs.wf rs ∧ Runs.wire rs = w ∧ Runs.out rs = out ∧ out.length ≤ Config.outMax := by
  constructor
  · intro h
    obtain ⟨rs, hwf, ⟨hwire, hle, hok⟩ | ⟨_, _, -, -, -, herr⟩ | herr⟩ := rleDecompress_cases w
    · rw [h] at hok
      cases hok
      exact ⟨rs, hwf, hwire, rfl, hle⟩
    all_goals
      rw [h] at herr
      cases herr
  · rintro ⟨rs, hwf, rfl, rfl, hle⟩
    rw [rleDecompress_runs hwf, if_pos hle]

theorem rleDecompress_eq_malformed_iff {w : List Byte} : rleDecompress w = .error .malformedRLEStream ↔
    ∃ rs t rest, Runs.wf rs ∧ w = Runs.wire rs ++ t :: rest ∧ (Runs.out rs).length ≤ Config.outMax ∧
      tagStarved t rest := by
  constructor
  · intro h
    obtain ⟨rs, hwf, ⟨-, -, hok⟩ | ⟨t, rest, hw, hle, hstarved, -⟩ | hover⟩ := rleDecompress_cases w
    · rw [h] at hok
      cases hok
    · exact ⟨rs, t, rest, hwf, hw, hle, hstarved⟩
    · rw [h] at hover
      cases hover
  · rintro ⟨rs, t, rest, hwf, rfl, hle, hstarved⟩
    rw [rleDecompress_starved hwf hstarved, if_pos hle]

theorem rleDecompress_error {w : List Byte} {k : ErrorKind} (h : rleDecompress w = .error k) :
    k = .malformedRLEStream ∨ k = .bufferOverflow := by
  obtain ⟨rs, -, ⟨-, -, hw⟩ | ⟨_, _, -, -, -, hw⟩ | hw⟩ := rleDecompress_cases w
  all_goals
    rw [h] at hw
    cases hw
  · exact .inl rfl
  · exact .inr rfl

/-- One run always fits in `OUT_MAX` (R7). -/
theorem rleDecompress_run {r : Run} (h : r.wf = true) : rleDecompress r.wire = .ok r.out := by
  have hmax := outMax_ge
  have hle : r.out.length ≤ 129 := by
    cases r with
    | lit bs =>
      have := Run.wf_lit.mp h
      simp only [Run.out]
      omega
    | rep n v => simpa [Run.out] using (Run.wf_rep.mp h).2
  exact rleDecompress_eq_ok_iff.mpr ⟨[r], by simpa [Runs.wf] using h, by simp, by simp, by omega⟩

/-- A starved tag at the front. -/
theorem rleDecompress_of_starved {t : Byte} {rest : List Byte} (h : tagStarved t rest) :
    rleDecompress (t :: rest) = .error .malformedRLEStream :=
  rleDecompress_eq_malformed_iff.mpr ⟨[], t, rest, Runs.wf_nil, rfl, Nat.zero_le _, h⟩

/-- Runs hold at most 129 logical bytes for every two wire bytes (R146). -/
theorem runs_out_length_le : ∀ {rs : List Run}, Runs.wf rs →
    (Runs.out rs).length ≤ (Runs.wire rs).length / 2 * 129
  | [], _ => Nat.le_refl _
  | r :: rs, h => by
    obtain ⟨hr, hrs⟩ := Runs.wf_cons.mp h
    have ih := runs_out_length_le hrs
    have hrun : r.out.length ≤ r.wire.length / 2 * 129 := by
      cases r with
      | lit bs =>
        have := Run.wf_lit.mp hr
        simp only [Run.out, Run.wire, List.length_cons]
        omega
      | rep n v => simpa [Run.out, Run.wire] using (Run.wf_rep.mp hr).2
    simp only [Runs.out_cons, Runs.wire_cons, List.length_append]
    omega

/-- The compressor writes runs of its operand, so decompression gives the operand, or BufferOverflow (R163). -/
theorem rleDecompress_rleCompress (p : List Byte) :
    rleDecompress (rleCompress p) = if p.length ≤ Config.outMax then .ok p else .error .bufferOverflow := by
  obtain ⟨rs, hwf, hwire, hout⟩ := exists_compressed_runs p.length p le_rfl
  rw [← hwire, rleDecompress_runs hwf, hout]

end Sys2Proof.Machine

open Sys2Proof Sys2Proof.Machine

/-- Settles O42: the compressor writes a sequence of runs of its operand, which RLED reads back. -/
theorem rleRoundTrip : Obligations.RleRoundTrip := by
  unfold Obligations.RleRoundTrip
  have hback : ∀ p : List Byte, p.length ≤ Config.outMax → rleDecompress (rleCompress p) = .ok p := fun p hp => by
    rw [rleDecompress_rleCompress, if_pos hp]
  refine ⟨fun p h => ?_, hback, fun s t w hp h hr hw => ?_⟩
  · rw [rleDecompress_rleCompress] at h
    split_ifs at h
    cases h
  · obtain rfl := eq_rleCompress_of_exec_rlec h hr
    exact exec_rled_of hw (hback _ hp)

/-- Settles O37: every stream is runs, or runs and a starved tag. -/
theorem rledDecompresses : Obligations.RledDecompresses := by
  unfold Obligations.RledDecompresses
  refine ⟨fun s => ?_, fun w out => rleDecompress_eq_ok_iff, fun w => rleDecompress_eq_malformed_iff,
    fun w k => rleDecompress_error, rfl⟩
  rw [exec_rled]
  by_cases hl : Config.operandMax < s.operand.length
  · rw [operandReply_of_gt hl, if_pos hl]
  · rw [operandReply_of_le (Nat.le_of_not_lt hl), if_neg hl]
    cases rleDecompress s.operand with
    | ok out => rfl
    | error k => rfl

/-- Settles O38: four single runs, and four starved tags. -/
theorem rledCornerCases : Obligations.RledCornerCases := by
  unfold Obligations.RledCornerCases
  intro v a b bs hbs
  have hlit : rleDecompress (0x7F#8 :: bs) = .ok bs := by
    have h := rleDecompress_run (Run.wf_lit.mpr (by omega : 1 ≤ bs.length ∧ bs.length ≤ 128))
    rwa [Run.wire, hbs] at h
  exact ⟨rleDecompress_run (r := .lit [v]) rfl, rleDecompress_run (r := .rep 2 v) rfl,
    rleDecompress_run (r := .rep 129 v) rfl, hlit, rleDecompress_of_starved (by simp [tagStarved]),
    rleDecompress_of_starved (by simp [tagStarved]), rleDecompress_of_starved (by simp [tagStarved]),
    rleDecompress_of_starved (by simp [tagStarved])⟩

/-- Settles O39: the bound holds of every run, so of every sequence of runs. -/
theorem expansionBound : Obligations.ExpansionBound := by
  unfold Obligations.ExpansionBound
  intro w out h
  obtain ⟨rs, hwf, rfl, rfl, -⟩ := rleDecompress_eq_ok_iff.mp h
  exact runs_out_length_le hwf

end

section
/-! PROOFS. The compressor: a repeat run and a literal run at the front of any operand (O40, O41), and the length of what
it writes (O43). -/

namespace Sys2Proof.Machine

/-! ### One run at the front -/

theorem equalBytes_eq_zero {v : Byte} {cap : Nat} {q : List Byte} (h : q[0]? ≠ some v) : equalBytes v cap q = 0 :=
  equalBytes_replicate v cap 0 q (Nat.zero_le _) (.inr h)

/-- A maximal repeat run at the front is written as one run (R161). -/
theorem rleCompress_repeat {v : Byte} {r : Nat} {q : List Byte} (h2 : 2 ≤ r) (h129 : r ≤ 129)
    (hend : r = 129 ∨ q[0]? ≠ some v) :
    rleCompress (List.replicate r v ++ q) = [BitVec.ofNat 8 (128 + (r - 2)), v] ++ rleCompress q := by
  obtain ⟨n, rfl⟩ : ∃ n, r = n + 1 := ⟨r - 1, by omega⟩
  have hcount : equalBytes v 128 (List.replicate n v ++ q) = n :=
    equalBytes_replicate v 128 n q (by omega) (hend.imp (by omega) id)
  rw [List.replicate_succ, List.cons_append, rleCompress_cons, hcount, if_pos (by omega), tag_rep_toByte _ (by omega),
    List.drop_left' List.length_replicate]
  rfl

/-- Bytes of which none begins a pair, up to the 128th, to the end or to the first pair, are written as one literal run
(R161). -/
theorem rleCompress_literal {bs q : List Byte} (h1 : 1 ≤ bs.length) (h128 : bs.length ≤ 128)
    (hne : ∀ i < bs.length, (bs ++ q)[i]? ≠ (bs ++ q)[i + 1]?) (hend : bs.length = 128 ∨ q = [] ∨ q[0]? = q[1]?) :
    rleCompress (bs ++ q) = BitVec.ofNat 8 (bs.length - 1) :: bs ++ rleCompress q := by
  have hcount : literalBytes 128 (bs ++ q) = bs.length := literalBytes_eq 128 bs q h128 hne hend
  cases bs with
  | nil => simp at h1
  | cons x xs =>
    have hsingle : equalBytes x 128 (xs ++ q) = 0 := equalBytes_eq_zero fun h => hne 0 h1 (by simp [h])
    rw [List.cons_append] at hcount ⊢
    rw [rleCompress_cons, hsingle, if_neg (by omega), hcount, tag_lit_toByte _ (by omega), ← List.cons_append (a := x),
      List.take_left, List.drop_left]
    rfl

theorem rleCompress_singleton (v : Byte) : rleCompress [v] = [0x00#8, v] :=
  rleCompress_literal (bs := [v]) (q := []) (by simp) (by simp) (by simp) (.inr (.inl rfl))

/-- 128 distinct bytes at the front of distinct bytes are one literal run. -/
theorem rleCompress_of_nodup {p q : List Byte} (h : (p ++ q).Nodup) (hp : p.length = 128) :
    rleCompress (p ++ q) = 0x7F#8 :: (p ++ rleCompress q) := by
  have hne : ∀ i < p.length, (p ++ q)[i]? ≠ (p ++ q)[i + 1]? := by
    intro i hi he
    have hi' : i < (p ++ q).length := by rw [List.length_append]; omega
    have := (List.getElem?_inj hi' h).mp he
    omega
  rw [rleCompress_literal (by omega) (by omega) hne (.inl hp), hp]
  rfl

/-! ### The length -/

/-- Runs take at most two wire bytes for each logical byte. -/
theorem runs_wire_length_le : ∀ {rs : List Run}, Runs.wf rs → (Runs.wire rs).length ≤ 2 * (Runs.out rs).length
  | [], _ => Nat.le_refl _
  | r :: rs, h => by
    obtain ⟨hr, hrs⟩ := Runs.wf_cons.mp h
    have ih := runs_wire_length_le hrs
    have hrun : r.wire.length ≤ 2 * r.out.length := by
      cases r with
      | lit bs =>
        have := Run.wf_lit.mp hr
        simp only [Run.out, Run.wire, List.length_cons]
        omega
      | rep n v =>
        have := Run.wf_rep.mp hr
        simp only [Run.out, Run.wire, List.length_cons, List.length_nil, List.length_replicate]
        omega
    simp only [Runs.out_cons, Runs.wire_cons, List.length_append]
    omega

/-- The pattern whose compressed form is longer than it is: a byte, and a pair of another (R164). -/
theorem rleCompress_pattern : ∀ m : Nat, rleCompress (List.replicate m [1#8, 2#8, 2#8]).flatten =
    (List.replicate m [0x00#8, 1#8, 0x80#8, 2#8]).flatten
  | 0 => rfl
  | m + 1 => by
    have hnext : (List.replicate m [1#8, 2#8, 2#8]).flatten[0]? ≠ some 2#8 := by
      cases m <;> simp [List.replicate_succ]
    have hpair := rleCompress_repeat (le_refl 2) (by omega) (.inr hnext)
    have hlit := rleCompress_literal (bs := [1#8])
      (q := List.replicate 2 2#8 ++ (List.replicate m [1#8, 2#8, 2#8]).flatten) (by simp) (by simp)
      (by simp [List.replicate_succ]) (.inr (.inr rfl))
    rw [List.replicate_succ, List.flatten_cons, List.replicate_succ, List.flatten_cons, ← rleCompress_pattern m]
    rw [hpair] at hlit
    exact hlit

end Sys2Proof.Machine

open Sys2Proof Sys2Proof.Machine

/-- Settles O40: the two runs that the compressor can write at the front. -/
theorem rlecCompresses : Obligations.RlecCompresses := by
  unfold Obligations.RlecCompresses
  refine ⟨fun s => ?_, fun v r q => rleCompress_repeat, fun bs q => rleCompress_literal, rfl, rleCompress_singleton⟩
  rw [exec_rlec]
  split_ifs with hl
  · rw [operandReply_of_gt hl]
  · rw [operandReply_of_le (Nat.le_of_not_lt hl)]
    rfl

/-- Settles O41: run by run. -/
theorem rlecCornerCases : Obligations.RlecCornerCases := by
  unfold Obligations.RlecCornerCases
  refine ⟨fun v => ⟨?_, ?_, ?_⟩, fun p hp hl => ?_, fun p v hp hl => ?_, by decide, by decide⟩
  · exact rleCompress_repeat (q := []) (by omega) (le_refl 129) (.inl rfl)
  · have h := rleCompress_repeat (v := v) (q := [v]) (by omega) (le_refl 129) (.inl rfl)
    rw [rleCompress_singleton] at h
    exact h
  · have hpair := rleCompress_repeat (v := v) (q := []) (le_refl 2) (by omega) (.inr nofun)
    have h := rleCompress_repeat (v := v) (q := List.replicate 2 v ++ []) (by omega) (le_refl 129) (.inl rfl)
    rw [hpair] at h
    exact h
  · have h := rleCompress_of_nodup (q := []) (by rwa [List.append_nil]) hl
    rwa [List.append_nil, show rleCompress [] = [] from rfl, List.append_nil] at h
  · rw [rleCompress_of_nodup hp hl, rleCompress_singleton]

/-- Settles O43: the compressor writes runs of its operand, whose wire length is known. -/
theorem compressedSize : Obligations.CompressedSize := by
  unfold Obligations.CompressedSize
  refine ⟨fun p => ?_, fun p => ?_, rleCompress_pattern⟩
  all_goals obtain ⟨rs, hwf, hwire, hout⟩ := exists_compressed_runs p.length p le_rfl
  · have hlen := runs_length rs hwf
    rw [hwire, hout] at hlen
    exact ⟨rs, hwf, hwire, hout, hlen⟩
  · rw [← hwire]
    exact (runs_wire_length_le hwf).trans_eq (by rw [hout])

end

section
/-! PROOFS. A byte of a compressed payload: a tag (O16), and a literal byte (O17) or the value of a repeat run (O18), which
write to the buffer. -/

namespace Sys2Proof.Machine

/-- A tag as the line decoder takes it: refused if the budget `after` it does not hold its run, else its run is open
(R141). -/
theorem rleStep_tag (b cnt : Byte) (after : Nat) : rleStep .tag cnt after b =
    if (b.toNat < 128 ∧ after < b.toNat % 128 + 1) ∨ (128 ≤ b.toNat ∧ after < 1) then .error .malformedRLEStream
    else .ok (if b.toNat < 128 then .lit else .rep,
      BitVec.ofNat 8 (if b.toNat < 128 then b.toNat % 128 + 1 else b.toNat % 128 + 2), .nothing) := by
  by_cases hb : b.toNat < 128
  · simp [rleStep, tag_of_lt hb, hb, Nat.not_le.mpr hb]
  · simp [rleStep, tag_of_ge (Nat.le_of_not_lt hb), hb, Nat.le_of_not_lt hb]

section
variable {d : Decoder} {b : Byte}

/-- A byte that the line decoder refuses aborts the packet (R110). -/
theorem feed_compressed_of_error {k : ErrorKind} (hs : d.state = .payload) (hc : d.comp = true)
    (hr : rleStep d.rleMode d.rleCnt (d.rem - 1#16).toNat b = .error k) :
    d.feed b = .ok (Decoder.idle, .error k) := by
  simp only [Decoder.feed, hs, hc, if_true, Decoder.takeCompressed, Decoder.rleStep, sum_rleMode, sum_rleCnt, sum_rem,
    hr, raise_eq]

/-- A byte for which the line decoder writes more than there is room for aborts the packet (R52). -/
theorem feed_compressed_of_emit_none {mode : RleMode} {cnt : Byte} {out : RleOut} (hs : d.state = .payload)
    (hc : d.comp = true) (hr : rleStep d.rleMode d.rleCnt (d.rem - 1#16).toNat b = .ok (mode, cnt, out))
    (he : (d.sum b).emit out = none) : d.feed b = .ok (Decoder.idle, .error .bufferOverflow) := by
  simp only [Decoder.feed, hs, hc, if_true, Decoder.takeCompressed, Decoder.rleStep, sum_rleMode, sum_rleCnt, sum_rem,
    hr, he, raise_eq]

end

/-- The line decoder writes with the append primitive, if it writes at all. -/
theorem emit_eq_appendSeq (d : Decoder) {out : RleOut} (h : out ≠ .nothing) : d.emit out = d.appendSeq out.bytes := by
  cases out with
  | nothing => exact absurd rfl h
  | one v => rfl
  | copies v n => rfl

/-- FEED of a byte for which the line decoder writes: all of it is appended and the byte counted, or nothing is and the
packet aborts (R142, R143). -/
theorem exec_feed_writing {s : State} {b : Byte} {mode : RleMode} {cnt : Byte} {out : RleOut}
    (hs : (s.dec s.link).state = .payload) (hc : (s.dec s.link).comp = true)
    (hr : rleStep (s.dec s.link).rleMode (s.dec s.link).rleCnt ((s.dec s.link).rem - 1#16).toNat b =
      .ok (mode, cnt, out)) (hw : out ≠ .nothing) :
    exec (.feed b) s = .next (
      if (s.dec s.link).olen + out.bytes.length ≤ Config.outMax then
        s.returnFrom ((s.dec s.link).afterPayload b out.bytes mode cnt) (.event .needMore)
      else s.returnFrom Decoder.idle (.event (.error .bufferOverflow))) := by
  have hemit := emit_eq_appendSeq ((s.dec s.link).sum b) hw
  split_ifs with ho
  · exact exec_feed_of (feed_compressed hs hc hr (hemit.trans (appendSeq_of_le _ ho)))
  · exact exec_feed_of (feed_compressed_of_emit_none hs hc hr (hemit.trans (appendSeq_of_gt _ (Nat.lt_of_not_le ho))))

end Sys2Proof.Machine

open Sys2Proof Sys2Proof.Machine

/-- Settles O16: the line decoder refuses exactly the tags that the budget does not hold, and a tag that it takes is not
the last byte of the payload. -/
theorem feedOfTagByte : Obligations.FeedOfTagByte := by
  unfold Obligations.FeedOfTagByte
  rintro s b after c hs hc hm rfl rfl
  have hstep := rleStep_tag b (s.dec s.link).rleCnt ((s.dec s.link).rem - 1#16).toNat
  rw [← hm] at hstep
  split
  · next hstarved =>
    rw [if_pos hstarved] at hstep
    exact exec_feed_of (feed_compressed_of_error hs hc hstep)
  · next hholds =>
    rw [if_neg hholds] at hstep
    exact exec_feed_of (feed_tag hs hc (by omega) hstep)

/-- Settles O17: a literal byte writes itself. -/
theorem feedOfLiteralByte : Obligations.FeedOfLiteralByte := by
  unfold Obligations.FeedOfLiteralByte
  intro s b hs hc hm
  have hstep : rleStep (s.dec s.link).rleMode (s.dec s.link).rleCnt ((s.dec s.link).rem - 1#16).toNat b =
      .ok (if (s.dec s.link).rleCnt - 1#8 = 0#8 then .tag else .lit, (s.dec s.link).rleCnt - 1#8, .one b) := by
    rw [hm]
    rfl
  rw [exec_feed_writing hs hc hstep nofun, ← hs]
  rfl

/-- Settles O18: the value of a repeat run writes all its copies. -/
theorem feedOfRepeatValue : Obligations.FeedOfRepeatValue := by
  unfold Obligations.FeedOfRepeatValue
  rintro s b n hs hc hm rfl
  have hstep : rleStep (s.dec s.link).rleMode (s.dec s.link).rleCnt ((s.dec s.link).rem - 1#16).toNat b =
      .ok (.tag, 0#8, .copies b (s.dec s.link).rleCnt.toNat) := by
    rw [hm]
    rfl
  rw [exec_feed_writing hs hc hstep nofun, ← hs]
  simp only [Decoder.afterPayload, RleOut.bytes, List.length_replicate]
  rfl

end

section
/-! PROOFS. The checksum unit: csum16 is the sum of the bytes modulo 65536 (O31), the four requests of the unit (O32), the
sum byte by byte and in parts (O33), and what the sum sees of a sequence (O34). -/

namespace Sys2Proof.Machine

/-! ### csum16 -/

/-- Adding a byte to a sum is addition modulo 65536 (R170, R172). -/
theorem toNat_add_byte (a : Half) (b : Byte) : (a + b.setWidth 16).toNat = (a.toNat + b.toNat) % 65536 := by
  bv_omega

theorem toNat_csum16 (bs : List Byte) : (csum16 bs).toNat = (bs.map BitVec.toNat).sum % 65536 := by
  induction bs with
  | nil => rfl
  | cons b bs ih =>
    rw [csum16_cons, BitVec.add_comm, toNat_add_byte, ih, List.map_cons, List.sum_cons]
    omega

theorem csum16_append (as bs : List Byte) : csum16 (as ++ bs) = csum16 as + csum16 bs := by
  induction as with
  | nil => simp
  | cons a as ih => rw [List.cons_append, csum16_cons, csum16_cons, ih, BitVec.add_assoc]

theorem csum16_perm {as bs : List Byte} (h : as.Perm bs) : csum16 as = csum16 bs :=
  BitVec.eq_of_toNat_eq (by rw [toNat_csum16, toNat_csum16, (h.map _).sum_nat])

/-- One byte of a sequence adds itself to the sum of the others. -/
theorem csum16_middle (as bs : List Byte) (x : Byte) :
    csum16 (as ++ x :: bs) = x.setWidth 16 + csum16 (as ++ bs) := by
  rw [csum16_perm List.perm_middle, csum16_cons]

/-- Moving 1 between two bytes leaves their 16-bit sum, when neither byte wraps at 8 bits. -/
theorem setWidth_succ_add_setWidth_pred {x y : Byte} (hx : x ≠ 0xFF#8) (hy : y ≠ 0x00#8) :
    (x + 1#8).setWidth 16 + (y - 1#8).setWidth 16 = x.setWidth 16 + y.setWidth 16 := by
  bv_omega

/-! ### The requests -/

theorem exec_csclr (s : State) : exec .csclr s = .next ((s.setCsuAcc 0x0000).answer .csu (.ok .unit)) := rfl

theorem exec_csadd (b : Byte) (s : State) :
    exec (.csadd b) s = .next ((s.setCsuAcc (s.csuAcc + b.setWidth 16)).answer .csu
      (.ok (.half (s.csuAcc + b.setWidth 16)))) := rfl

theorem exec_cssum (s : State) :
    exec .cssum s = .next (s.answer .csu (operandReply s.operand fun bs => .ok (.half (csum16 bs)))) := rfl

theorem exec_cscmp (w : Half) (s : State) :
    exec (.cscmp w) s = .next (s.answer .csu (.ok (.bit (if s.csuAcc = w then 1 else 0)))) := rfl

/-- CSADD of each byte in order completes and adds the sum of the bytes to `CSU.acc`, for any way `f` of chaining outcomes
that goes on from a completed one (R177). -/
theorem foldl_csadd {f : Host.Outcome State Fault Refusal → Byte → Host.Outcome State Fault Refusal}
    (hf : ∀ u b, f (.next u) b = exec (.csadd b) u) (bs : List Byte) (s : State) :
    ∃ t, bs.foldl f (.next s) = .next t ∧ t.csuAcc = s.csuAcc + csum16 bs := by
  induction bs generalizing s with
  | nil => exact ⟨s, rfl, by simp⟩
  | cons b bs ih =>
    rw [List.foldl_cons, hf, exec_csadd]
    obtain ⟨t, ht, hacc⟩ := ih ((s.setCsuAcc (s.csuAcc + b.setWidth 16)).answer .csu
      (.ok (.half (s.csuAcc + b.setWidth 16))))
    refine ⟨t, ht, ?_⟩
    rw [hacc, answer_csuAcc, setCsuAcc_csuAcc, csum16_cons, BitVec.add_assoc]

/-- From CSCLR on the sum that CSADD of each byte leaves starts at 0 (R177). -/
theorem foldl_csadd_csclr {f : Host.Outcome State Fault Refusal → Byte → Host.Outcome State Fault Refusal}
    (hf : ∀ u b, f (.next u) b = exec (.csadd b) u) (bs : List Byte) (s : State) :
    ∃ t, bs.foldl f (exec .csclr s) = .next t ∧ t.csuAcc = csum16 bs := by
  rw [exec_csclr]
  obtain ⟨t, ht, hacc⟩ := foldl_csadd hf bs ((s.setCsuAcc 0x0000).answer .csu (.ok .unit))
  rw [answer_csuAcc, setCsuAcc_csuAcc] at hacc
  exact ⟨t, ht, hacc.trans (BitVec.zero_add _)⟩

end Sys2Proof.Machine

open Sys2Proof Sys2Proof.Machine

/-- Settles O31, by induction on the bytes. -/
theorem checksumIsTheSumModulo65536 : Obligations.ChecksumIsTheSumModulo65536 := by
  unfold Obligations.ChecksumIsTheSumModulo65536
  exact toNat_csum16

/-- Settles O32: each request by its equation; CSSUM by the length of its operand. -/
theorem checksumUnitRequests : Obligations.ChecksumUnitRequests := by
  unfold Obligations.ChecksumUnitRequests
  refine fun s b v w => ⟨exec_csclr s, fun hv => ?_, ?_, exec_cscmp w s,
    fun r => ⟨answer_csuAcc s r .csu, dec_answer s r .csu⟩⟩
  · obtain rfl : v = s.csuAcc + b.setWidth 16 := BitVec.eq_of_toNat_eq (hv.trans (toNat_add_byte _ _).symm)
    exact exec_csadd b s
  · rw [exec_cssum]
    by_cases hl : Config.operandMax < s.operand.length
    · rw [operandReply_of_gt hl, if_pos hl]
    · rw [operandReply_of_le (Nat.le_of_not_lt hl), if_neg hl]
      rfl

/-- Settles O33: CSADD of each byte adds the sum of the bytes to the 0 that CSCLR leaves. -/
theorem incrementalSumIsBatchSum : Obligations.IncrementalSumIsBatchSum := by
  unfold Obligations.IncrementalSumIsBatchSum
  exact ⟨fun s bs => foldl_csadd_csclr (fun _ _ => rfl) bs s, csum16_append⟩

/-- Settles O34: the order does not matter, so each changed byte may be taken out of the sum and compared by itself. -/
theorem whatTheSumSees : Obligations.WhatTheSumSees := by
  unfold Obligations.WhatTheSumSees
  refine ⟨fun as bs => csum16_perm, fun as bs x y hxy heq => ?_, fun as bs cs x y hx hy => ?_, fun as bs => ?_⟩
  · rw [csum16_middle, csum16_middle, BitVec.add_left_inj] at heq
    exact hxy (by bv_omega)
  · have hpair : ∀ u v : Byte, csum16 (as ++ u :: bs ++ v :: cs) =
        u.setWidth 16 + v.setWidth 16 + csum16 (as ++ (bs ++ cs)) := fun u v => by
      rw [csum16_middle, List.append_assoc, List.cons_append, csum16_middle, ← BitVec.add_assoc,
        BitVec.add_comm (v.setWidth 16)]
    rw [hpair, hpair, setWidth_succ_add_setWidth_pred hx hy]
  · rw [csum16_middle]
    exact BitVec.zero_add _

end

section
/-! PROOFS. The status codec: each bit of a status byte is one field of the record (O49), so that the two conversions undo
each other (O50). -/

namespace Sys2Proof.Machine

@[simp] theorem getElem_statusBit (f : Bool) (i : Nat) {j : Nat} (hj : j < 8) :
    (statusBit f i)[j] = (f && decide (j = i)) := by
  cases f with
  | false => simp [statusBit]
  | true => rw [statusBit, if_pos rfl, ← BitVec.twoPow_eq, BitVec.getElem_twoPow, Bool.true_and]

/-- Every field of a record is read back from its own bit of the record's byte (R190). -/
@[simp] theorem status_ofByte_toByte (st : Status) : Status.ofByte st.toByte = st := by
  simp [Status.ofByte, Status.toByte]

/-- The eight fields are all the bits of a byte: none is reserved (R192). -/
theorem status_ofByte_injective : Function.Injective Status.ofByte := by
  intro a b h
  obtain ⟨h7, h6, h5, h4, h3, h2, h1, h0⟩ := Status.mk.inj h
  refine BitVec.eq_of_getLsbD_eq fun i hi => ?_
  interval_cases i <;> assumption

@[simp] theorem status_toByte_ofByte (b : Byte) : (Status.ofByte b).toByte = b :=
  status_ofByte_injective (status_ofByte_toByte _)

theorem exec_stpack (s : State) : exec .stpack s = .next (s.answer .stat (.ok (.byte s.status.toByte))) := rfl

theorem exec_stunpack (b : Byte) (s : State) :
    exec (.stunpack b) s = .next (s.answer .stat (.ok (.status (Status.ofByte b)))) := rfl

end Sys2Proof.Machine

open Sys2Proof Sys2Proof.Machine

/-- Settles O50: each field stands at its own bit, and the record determines the byte. -/
theorem statusRoundTrip : Obligations.StatusRoundTrip := by
  unfold Obligations.StatusRoundTrip
  exact ⟨status_ofByte_toByte, status_toByte_ofByte⟩

/-- Settles O49: the bits of STPACK's byte are the fields of the record that this byte unpacks to. -/
theorem statusFieldsAreBits : Obligations.StatusFieldsAreBits := by
  unfold Obligations.StatusFieldsAreBits
  refine fun s b => ⟨⟨s.status.toByte, exec_stpack s, ?_⟩, exec_stunpack b s⟩
  exact Status.mk.inj (status_ofByte_toByte s.status)

end

section
/-! PROOFS. The packet encoder: the order of its checks and the bytes it builds (O44), and that the decoder takes back
every packet it builds (O46). -/

namespace Sys2Proof.Machine

/-! ### The bytes of a packet -/

/-- A packet, split where the decoder's state changes (R71): sync word and header, wire payload, checksum. -/
theorem packetBytes_eq (c : Byte) (f : Bool) (w : List Byte) :
    packetBytes c f w =
      [sync0Byte, sync1Byte, c, compByte f, lowByte (BitVec.ofNat 16 w.length), highByte (BitVec.ofNat 16 w.length)] ++
        w ++ [lowByte (csum16 (packetHeader c f (BitVec.ofNat 16 w.length) ++ w)),
          highByte (csum16 (packetHeader c f (BitVec.ofNat 16 w.length) ++ w))] := rfl

@[simp] theorem packetBytes_length (c : Byte) (f : Bool) (w : List Byte) :
    (packetBytes c f w).length = 8 + w.length := by
  rw [packetBytes_eq]
  simp only [List.length_append, List.length_cons, List.length_nil]
  omega

/-! ### The request -/

/-- The two checks of ENC on an operand that it takes, in their order (R201, R204). -/
theorem encodePacket_eq (c : Byte) (f : Bool) (p : List Byte) : encodePacket c f p =
    if c ∉ [0x01#8, 0x02#8, 0x04#8, 0x08#8, 0x0F#8] then .error .unrecognizedCommand
    else if 65535 < (wirePayload f p).length then .error .payloadTooLarge
    else .ok (packetBytes c f (wirePayload f p)) := by
  simp only [encodePacket, mem_commands]
  cases Command.ofByte? c with
  | none => rfl
  | some _ => rfl

theorem encodePacket_ok {c : Byte} {f : Bool} {p bytes : List Byte} (h : encodePacket c f p = .ok bytes) :
    (wirePayload f p).length ≤ 65535 ∧ bytes = packetBytes c f (wirePayload f p) := by
  rw [encodePacket_eq] at h
  split_ifs at h with hc hl
  cases h
  exact ⟨Nat.le_of_not_lt hl, rfl⟩

theorem exec_enc (f : Bool) (c : Byte) (s : State) : exec (.enc f c) s =
    .next (s.answer .enc (operandReply s.operand fun p => (encodePacket c f p).map .bytes)) := rfl

/-- The byte sequence that ENC returns is the packet of its operand (R200). -/
theorem encodePacket_of_exec_enc {s t : State} {f : Bool} {c : Byte} {bytes : List Byte}
    (h : exec (.enc f c) s = .next t) (hr : t.replyOf .enc = some (.ok (.bytes bytes))) :
    encodePacket c f s.operand = .ok bytes := by
  rw [exec_enc] at h
  cases h
  rw [replyOf_answer_same] at hr
  have hmap := eq_ok_of_operandReply (Option.some.inj hr)
  cases he : encodePacket c f s.operand with
  | error k =>
    rw [he] at hmap
    cases hmap
  | ok bs =>
    rw [he] at hmap
    cases hmap
    rfl

/-! ### Back through the decoder -/

/-- The wire payload makes the payload again: it is the payload itself, or decompresses to it (R163, R205). -/
theorem wirePayload_decodes (f : Bool) {p : List Byte} (hp : p.length ≤ Config.outMax) :
    if f then rleDecompress (wirePayload f p) = .ok p else p = wirePayload f p := by
  cases f with
  | false => rfl
  | true =>
    show rleDecompress (rleCompress p) = .ok p
    rw [rleDecompress_rleCompress, if_pos hp]

/-- A packet that ENC builds decodes, from an idle decoder, to its inputs, and its checksum is valid (R205). -/
theorem feedAll_packetBytes (c : Command) (f : Bool) {p : List Byte} (hp : p.length ≤ Config.outMax)
    (hl : (wirePayload f p).length ≤ 65535) :
    Decoder.idle.feedAll (packetBytes c.toByte f (wirePayload f p)) =
      .ok (Decoder.idle, List.replicate ((packetBytes c.toByte f (wirePayload f p)).length - 1) .needMore ++ [.packet
        { command := c, compressed := f, payload := p, checksumValid := true
          lengthWarning := lengthWarning c p.length }]) := by
  have hx : (highByte (BitVec.ofNat 16 (wirePayload f p).length) ++
      lowByte (BitVec.ofNat 16 (wirePayload f p).length)).toNat = (wirePayload f p).length := by
    rw [highByte_append_lowByte]
    exact Nat.mod_eq_of_lt (by omega)
  rw [packetBytes_length, packetBytes_eq, feedAll_packet _ _ hx (wirePayload_decodes f hp), highByte_append_lowByte,
    show 8 + (wirePayload f p).length - 1 = 7 + (wirePayload f p).length by omega]
  simp only [packetHeader, decide_true]

end Sys2Proof.Machine

open Sys2Proof Sys2Proof.Machine

/-- Settles O46: ENC returns the packet of its operand, and an idle decoder takes it back. -/
theorem loopbackLaw : Obligations.LoopbackLaw := by
  unfold Obligations.LoopbackLaw
  intro s t f c cmd bytes h hr hp hbytes hinv hs hcmd
  obtain ⟨hl, rfl⟩ := encodePacket_ok (encodePacket_of_exec_enc h hr)
  obtain rfl := toByte_of_ofByte hcmd
  have hidle : t.dec t.link = Decoder.idle := by
    rw [hinv.eq_idle (by rw [hs]; rfl), hs]
    rfl
  have hall := feedAll_packetBytes cmd f hp hl
  rw [← hidle] at hall
  rw [← hidle]
  exact execFeedn_of (s := { t with operand := _ }) hbytes hall

/-- Settles O44: the operand is checked first, then the command, then the wire length. -/
theorem encBuildsThePacket : Obligations.EncBuildsThePacket := by
  unfold Obligations.EncBuildsThePacket
  rintro s f c w hdr bytes x cs hw rfl rfl rfl hbytes
  have hpacket : bytes = packetBytes c f w := by
    rw [hbytes, packetBytes_eq]
    simp only [lowByte_eq, highByte_eq, packetHeader]
    rfl
  obtain rfl : w = wirePayload f s.operand := hw
  subst hpacket
  refine ⟨?_, packetBytes_length _ _ _⟩
  rw [exec_enc]
  by_cases hl : Config.operandMax < s.operand.length
  · rw [operandReply_of_gt hl, if_pos hl]
  · rw [operandReply_of_le (Nat.le_of_not_lt hl), if_neg hl, encodePacket_eq]
    split_ifs <;> rfl

end

section
/-! PROOFS. ChecksumMismatch and TruncatedStream are never reported (O53): what errors a byte of the wire and a request of
the units without a decoder can end in, and that a step replaces at most one result and keeps the others. -/

namespace Sys2Proof.Machine

/-- The error kinds that some result may carry: all but the two that are only flags (R236, R238). -/
abbrev ErrorKind.reported (k : ErrorKind) : Prop := k ≠ .checksumMismatch ∧ k ≠ .truncatedStream

/-! ### The errors of a decoder -/

/-- Every error that a byte can end in, and the state it is raised in (R232 to R235). -/
theorem feed_error_kind {d d' : Decoder} {b : Byte} {k : ErrorKind} (h : d.feed b = .ok (d', .error k)) :
    (d.state = .command ∧ k = .unrecognizedCommand) ∨
    (d.state = .compression ∧ k = .unrecognizedCompressionFlag) ∨
    (d.state = .payload ∧ (k = .bufferOverflow ∨ k = .malformedRLEStream)) := by
  obtain ⟨hs, -⟩ := feed_errorEvent h
  simp only [List.mem_cons, List.not_mem_nil, or_false] at hs
  rcases hs with hs | hs | hs
  · simp only [Decoder.feed, hs, Decoder.takeCommand] at h
    split at h
    all_goals cases h
    exact .inl ⟨hs, rfl⟩
  · simp only [Decoder.feed, hs, Decoder.takeCompression] at h
    split at h
    all_goals cases h
    exact .inr (.inl ⟨hs, rfl⟩)
  · rcases feed_payload hs h with ⟨-, he⟩ | ⟨_, _, _, he, -⟩
    · simp only [Event.error.injEq] at he
      exact .inr (.inr ⟨hs, he⟩)
    · cases he

/-- No byte raises ChecksumMismatch or TruncatedStream. -/
theorem feed_legal {d d' : Decoder} {b : Byte} {e : Event} (h : d.feed b = .ok (d', e)) : ∀ k ∈ e.kinds, k.reported := by
  intro k hk
  cases e with
  | needMore => cases hk
  | packet p => cases hk
  | error k' =>
    obtain rfl := List.mem_singleton.mp hk
    rcases feed_error_kind h with ⟨-, rfl⟩ | ⟨-, rfl⟩ | ⟨-, rfl | rfl⟩
    all_goals decide

theorem feedAll_legal : ∀ {bs : List Byte} {d d' : Decoder} {es : List Event}, d.feedAll bs = .ok (d', es) →
    ∀ k ∈ es.flatMap Event.kinds, k.reported
  | [], _, _, _, h, k, hk => by
    cases h
    cases hk
  | b :: bs, _, _, _, h, k, hk => by
    obtain ⟨d1, e, es, hfeed, hrest, rfl⟩ := feedAll_cons h
    rw [List.flatMap_cons] at hk
    rcases List.mem_append.mp hk with hk | hk
    · exact feed_legal hfeed k hk
    · exact feedAll_legal hrest k hk

/-! ### The errors of the other units -/

theorem encodePacket_error {c : Byte} {f : Bool} {p : List Byte} {k : ErrorKind} (h : encodePacket c f p = .error k) :
    k = .unrecognizedCommand ∨ k = .payloadTooLarge := by
  rw [encodePacket_eq] at h
  split_ifs at h
  all_goals cases h
  · exact .inr rfl
  · exact .inl rfl

theorem error_legal {k : ErrorKind} (h : k.reported) : (Reply.error k).legal := by
  intro k' hk
  obtain rfl := List.mem_singleton.mp hk
  exact h

/-- The result of a computed byte sequence carries the errors of the computation alone. -/
theorem ofResult_bytes_legal {x : Except ErrorKind (List Byte)} (h : ∀ k, x = .error k → k.reported) :
    (Reply.ofResult (x.map .bytes)).legal := by
  cases x with
  | ok out => exact nofun
  | error k => exact error_legal (h k rfl)

/-- A request with a byte sequence adds only IllegalRequest to what its unit answers (R239). -/
theorem operandReply_legal {bs : List Byte} {f : List Byte → Except ErrorKind Value}
    (h : (Reply.ofResult (f bs)).legal) : (operandReply bs f).legal := by
  by_cases hl : Config.operandMax < bs.length
  · rw [operandReply_of_gt hl]
    exact error_legal (by decide)
  · rwa [operandReply_of_le (Nat.le_of_not_lt hl)]

theorem rled_legal (w : List Byte) : (Reply.ofResult ((rleDecompress w).map .bytes)).legal := by
  refine ofResult_bytes_legal fun k hk => ?_
  rcases rleDecompress_error hk with rfl | rfl
  all_goals decide

theorem enc_legal (c : Byte) (f : Bool) (p : List Byte) : (Reply.ofResult ((encodePacket c f p).map .bytes)).legal := by
  refine ofResult_bytes_legal fun k hk => ?_
  rcases encodePacket_error hk with rfl | rfl
  all_goals decide

/-- The result that an answer leaves on its port is the one it was given. -/
theorem legal_of_answer {s t : State} {u : UnitName} {r r' : Reply}
    (h : (.next (s.answer u r') : Host.Outcome State Fault Refusal) = .next t)
    (hr : t.replyOf u = some r) (hl : r'.legal) : r.legal := by
  cases h
  cases (replyOf_answer_same _ _ _).symm.trans hr
  exact hl

/-- What a request of the shared port, or the sending of the device ID, leaves on its unit's port. -/
theorem exec_shared_legal {i : Instr} {s t : State} {r : Reply} (hi : i.place = .port .shared ∨ i = .deviceId)
    (h : exec i s = .next t) (hr : t.replyOf (Instr.unit s.link i) = some r) : r.legal := by
  cases i
  case csclr | csadd | cscmp | stpack | stunpack | trail | deviceId => exact legal_of_answer h hr nofun
  case cssum | rlec => exact legal_of_answer h hr (operandReply_legal nofun)
  case rled => exact legal_of_answer h hr (operandReply_legal (rled_legal _))
  case enc f c => exact legal_of_answer h hr (operandReply_legal (enc_legal c f _))
  all_goals
    rcases hi with hi | hi
    all_goals cases hi

/-! ### The result ports under a step -/

/-- A state whose result ports show what another's show, but for one new result. -/
theorem State.RepliesLegal.replace {s t : State} {u : UnitName} {r : Reply} (hs : s.RepliesLegal) (hr : r.legal)
    (hu : t.replyOf u = some r) (hne : ∀ w, w ≠ u → t.replyOf w = s.replyOf w) : t.RepliesLegal := by
  intro w r' hw
  by_cases hwu : w = u
  · subst hwu
    cases hu.symm.trans hw
    exact hr
  · exact hs w r' ((hne w hwu).symm.trans hw)

theorem answer_repliesLegal {s : State} (hs : s.RepliesLegal) (u : UnitName) {r : Reply} (hr : r.legal) :
    (s.answer u r).RepliesLegal :=
  hs.replace hr (replyOf_answer_same _ _ _) fun _ => replyOf_answer_ne _ _ _

/-- A decoder request replaces the result of its own link alone (R56). -/
theorem replyOf_returnFrom_ne (s : State) (d : Decoder) (r : Reply) {w : UnitName} (h : w ≠ .dec s.link) :
    (s.returnFrom d r).replyOf w = s.replyOf w := by
  cases w
  case dec j => exact congrArg Link.reply (getLink_returnFrom_ne s d r fun hj => h (by rw [hj]))
  all_goals rfl

theorem returnFrom_repliesLegal {s : State} (hs : s.RepliesLegal) (d : Decoder) {r : Reply} (hr : r.legal) :
    (s.returnFrom d r).RepliesLegal :=
  hs.replace hr (replyOf_returnFrom_same _ _ _) fun _ => replyOf_returnFrom_ne _ _ _

/-- Every instruction that completes keeps the result ports legal. -/
theorem exec_repliesLegal {i : Instr} {s t : State} (hs : s.RepliesLegal) (h : exec i s = .next t) : t.RepliesLegal := by
  rcases exec_kinds i with rfl | rfl | ⟨b, hb⟩ | hi
  · cases h
    exact returnFrom_repliesLegal hs _ nofun
  · rcases execFeedn_next h with ⟨-, rfl⟩ | ⟨-, d, es, hfeed, rfl⟩
    · exact answer_repliesLegal hs _ (error_legal (by decide))
    · exact returnFrom_repliesLegal hs d (feedAll_legal hfeed)
  · rw [hb s] at h
    obtain ⟨d, e, hfeed, rfl⟩ := feedByte_next h
    exact returnFrom_repliesLegal hs d (feed_legal hfeed)
  · obtain ⟨r, hr, -⟩ := exec_reply h
    obtain ⟨-, -, -, -, -, -, hne⟩ := sharedRequestsFrame i s t hi h
    exact hs.replace (exec_shared_legal hi h hr) hr hne

/-! ### The result ports under the reset input -/

theorem findKey_of_risingAbove {α : Type} {i k : Nat} (hik : i ≤ k) :
    ∀ {l : List (Nat × α)}, risingAbove k l = true → findKey i l = none
  | [], _ => rfl
  | (a, v) :: t, h => by
    simp only [risingAbove, Bool.and_eq_true, decide_eq_true_eq] at h
    obtain ⟨hka, ht⟩ := h
    rw [findKey, if_neg (by omega)]
    exact findKey_of_risingAbove (by omega) ht

/-- A link that is no longer listed after the reset input showed no result, and every other one shows what it did. -/
theorem reply_idleLinks (i : Nat) : ∀ {ls : List (Nat × Link)}, rising ls = true →
    ((findKey i (idleLinks ls)).getD Link.fresh).reply = ((findKey i ls).getD Link.fresh).reply
  | [], _ => rfl
  | (a, l) :: t, h => by
    have hrest := reply_idleLinks i (rising_of_risingAbove (show risingAbove a t = true from h))
    by_cases hl : l.reply = none
    · rw [idleLinks, if_pos hl, hrest]
      by_cases ha : a = i
      · rw [findKey, if_pos ha, findKey_of_risingAbove (Nat.le_of_eq ha.symm) h]
        exact hl.symm
      · rw [findKey, if_neg ha]
    · rw [idleLinks, if_neg hl]
      by_cases ha : a = i
      · simp only [findKey, if_pos ha, Option.getD_some]
      · simp only [findKey, if_neg ha, hrest]

/-- The reset input changes no result (R260; notes/assumptions/9.md). -/
theorem replyOf_assertReset {s : State} (h : rising s.links = true) (u : UnitName) :
    s.assertReset.replyOf u = s.replyOf u := by
  cases u
  case dec i => exact reply_idleLinks i h
  all_goals rfl

/-- Every step from a canonical list of links keeps the result ports legal. -/
theorem step_repliesLegal {s t : State} (hlinks : rising s.links = true) (hs : s.RepliesLegal)
    (h : step s = .next t) : t.RepliesLegal := by
  rcases step_next h with ⟨-, rfl⟩ | ⟨rest, -, rfl⟩ | ⟨r, rest, i, -, -, -, hexec⟩ | ⟨r, rest, -, -, -, rfl⟩
  · exact hs
  · intro u r hr
    rw [replyOf_assertReset (s := s.withInputs rest) hlinks] at hr
    exact hs u r hr
  · exact exec_repliesLegal (s := (s.withInputs rest).attach r) hs hexec
  · exact answer_repliesLegal (s := s.withInputs rest) hs _ (error_legal (by decide))

end Sys2Proof.Machine

open Sys2Proof Sys2Proof.Machine

/-- Settles O53: no byte and no unit raises one of the two kinds, and the invariant's canonical list of links lets the
reset input keep every result. -/
theorem noMismatchOrTruncationErrors : Obligations.NoMismatchOrTruncationErrors := by
  unfold Obligations.NoMismatchOrTruncationErrors
  intro s t hinv hs h
  obtain ⟨hlinks, -⟩ := hinv
  exact step_repliesLegal hlinks hs h

end

section
/-! PROOFS. Steps that run no instruction (O10): what can stop the machine, and when a request names no port there is. -/

namespace Sys2Proof.Machine

/-- Only the emission of a packet can stop a sequence of FEEDs. -/
theorem feedAll_error : ∀ {bs : List Byte} {d : Decoder} {f : Fault}, d.feedAll bs = .error f → f = .illegalCommandLatch
  | [], _, _, h => by cases h
  | b :: bs, d, f, h => by
    unfold Decoder.feedAll at h
    split at h
    · next hfeed =>
      cases h
      obtain ⟨-, -, hf⟩ := feed_error hfeed
      exact hf
    · split at h
      · next hrest =>
        cases h
        exact feedAll_error hrest
      · cases h

theorem feedByte_fault {s : State} {b : Byte} {f : Fault} (h : s.feedByte b = .fault f) : f = .illegalCommandLatch := by
  unfold State.feedByte at h
  split at h
  · next hfeed =>
    cases h
    obtain ⟨-, -, hf⟩ := feed_error hfeed
    exact hf
  · cases h

theorem execFeedn_fault {s : State} {f : Fault} (h : execFeedn s = .fault f) : f = .illegalCommandLatch := by
  unfold execFeedn at h
  split at h
  · cases h
  · split at h
    · next hfeed =>
      cases h
      exact feedAll_error hfeed
    · cases h

/-- The one fault of an instruction is that of the emission of a packet (R112). -/
theorem exec_fault {i : Instr} {s : State} {f : Fault} (h : exec i s = .fault f) : f = .illegalCommandLatch := by
  rcases exec_kinds i with rfl | rfl | ⟨b, hb⟩ | hi
  · cases h
  · exact execFeedn_fault h
  · exact feedByte_fault ((hb s).symm.trans h)
  · obtain ⟨t, ht⟩ := exec_shared_completes hi s
    cases ht.symm.trans h

theorem present_eq_false_iff {p : Port} : p.present = false ↔ ∃ i, p = .decoder i ∧ Config.nLinks ≤ i := by
  cases p with
  | shared => exact ⟨nofun, nofun⟩
  | decoder j => simp [Port.present]

/-- A request on a decoder port there is not stops the machine before its word is looked at. -/
theorem step_absentPort {s : State} {r : Request} {rest : List HostInput} {i : Nat} (hi : s.inputs = .request r :: rest)
    (hr : r.port = .decoder i) (hn : Config.nLinks ≤ i) : step s = .fault (.absentPort i) := by
  have hp : r.port.present = false := present_eq_false_iff.mpr ⟨i, hr, hn⟩
  unfold step
  rw [hi]
  simp only [hp, Bool.false_eq_true, if_false]
  rw [hr]
  rfl

/-- All that can stop a step: an instruction that faults, or a request on a port there is not. -/
theorem step_fault {s : State} {f : Fault} (h : step s = .fault f) :
    (∃ i t, exec i t = .fault f) ∨
      ∃ r rest i, s.inputs = .request r :: rest ∧ r.port = .decoder i ∧ Config.nLinks ≤ i ∧ f = .absentPort i := by
  cases hi : s.inputs with
  | nil => cases (step_idle hi).symm.trans h
  | cons x rest =>
    cases x with
    | reset => cases (step_reset hi).symm.trans h
    | request r =>
      cases hp : r.port.present with
      | true =>
        cases hd : decodeRequest r.port.kind r.word with
        | ok i => exact .inl ⟨i, _, (step_request hi hp hd).symm.trans h⟩
        | error k => cases (step_refused hi hp hd).symm.trans h
      | false =>
        obtain ⟨i, hr, hn⟩ := present_eq_false_iff.mp hp
        cases (step_absentPort hi hr hn).symm.trans h
        exact .inr ⟨r, rest, i, rfl, hr, hn, rfl⟩

end Sys2Proof.Machine

open Sys2Proof Sys2Proof.Machine

/-- Settles O10: no instruction raises absentPort, so it comes from the port of the oldest request alone. -/
theorem stepsThatRunNoInstruction : Obligations.StepsThatRunNoInstruction := by
  unfold Obligations.StepsThatRunNoInstruction
  refine ⟨fun s hi => step_idle hi, fun s i => ⟨fun h => ?_, ?_⟩⟩
  · rcases step_fault h with ⟨_, _, hexec⟩ | ⟨r, rest, j, hi, hr, hn, hj⟩
    · cases exec_fault hexec
    · cases hj
      exact ⟨r, rest, hi, hr, hn⟩
  · rintro ⟨r, rest, hi, hr, hn⟩
    exact step_absentPort hi hr hn

end
